-- ==== Sys2Proof/Word.lean ====
section
/-! DEFINITION. The word types of the 80386 and the two size types the rules speak of. -/

namespace Sys2Proof

/-- A byte (R9: 8 bits). -/
abbrev Byte := BitVec 8

/-- A word (R9: 16 bits). -/
abbrev Word := BitVec 16

/-- A doubleword (R9: 32 bits). -/
abbrev DWord := BitVec 32

/-- The operand widths N = 8, 16, 32 (R3). -/
inductive Width where
  | w8 | w16 | w32
  deriving DecidableEq, Repr

/-- N of a width, in bits. -/
@[reducible] def Width.bits : Width → Nat
  | .w8 => 8
  | .w16 => 16
  | .w32 => 32

/-- N / 8 of a width (R41). -/
@[reducible] def Width.bytes : Width → Nat
  | .w8 => 1
  | .w16 => 2
  | .w32 => 4

/-- A size attribute: the values of DefaultSize, OperandSize and AddressSize (R5). -/
inductive Size where
  | s16 | s32
  deriving DecidableEq, Repr

end Sys2Proof
end

