-- ==== Sys2Proof/Config.lean ====
section
/-! DEFINITION. The free values of the manual: constants with no body, so that nothing can be proved
of their values. `draw_N()` of R7 is one of them applied to the counter `draws` of State. -/

namespace Sys2Proof

/-- `draw_1()` (R7): the undefined flags of R115, R179, R181, R182. Log entry 11. -/
opaque Config.drawBit : Nat → Bool

/-- `draw_8()` (R7): byte 5 of SGDT and SIDT when SGDT16_TOP is `draw` (R172). Log entry 11. -/
opaque Config.drawByte : Nat → BitVec 8

/-- `draw_16()` (R7): the destination of SHLD and SHRD with bad parameters (R181). Log entry 11. -/
opaque Config.drawWord : Nat → BitVec 16

end Sys2Proof
end

