-- ==== Sys2Proof/Syntax.lean ====
section
/-! DEFINITION. The instructions as syntax: operand forms, prefixes, and one constructor of `Instr`
per row of spec/opcode_table.json. -/

namespace Sys2Proof

/-- A 3-bit register number n (R12): it names `reg8[n]`, `reg16[n]` or `reg32[n]` by operand width
(0 AL AX EAX, 1 CL CX ECX, 2 DL DX EDX, 3 BL BX EBX, 4 AH SP ESP, 5 CH BP EBP, 6 DH SI ESI,
7 BH DI EDI). -/
inductive RegNo where
  | n0 | n1 | n2 | n3 | n4 | n5 | n6 | n7
  deriving DecidableEq, Repr

/-- The six segment registers (R21). -/
inductive SegName where
  | es | cs | ss | ds | fs | gs
  deriving DecidableEq, Repr

/-- The register part of a 16-bit addressing form (R82), in the order of its `rm` numbers. -/
inductive Base16 where
  | bxsi | bxdi | bpsi | bpdi | si | di | bp | bx
  deriving DecidableEq, Repr

/-- The displacement of a 16-bit addressing form with a register part: mod 0, 1, 2 (R82). -/
inductive Disp16 where
  | none
  | d8 (v : Byte)
  | d16 (v : Word)
  deriving DecidableEq, Repr

/-- The displacement of a 32-bit addressing form with a base register: mod 0, 1, 2 (R83). -/
inductive Disp32 where
  | none
  | d8 (v : Byte)
  | d32 (v : DWord)
  deriving DecidableEq, Repr

/-- A 16-bit addressing form (R82). -/
inductive Addr16 where
  | based (b : Base16) (d : Disp16)
  | direct (d : Word)
  deriving DecidableEq, Repr

/-- The scale of a SIB index: times 1, 2, 4, 8 (R83). -/
inductive Scale where
  | x1 | x2 | x4 | x8
  deriving DecidableEq, Repr

/-- A 32-bit addressing form (R83). `none` as index is SIB.index = 4 with scale 0; an index of 4 with
another scale has no term here (D24 refuses it). -/
inductive Addr32 where
  | based (b : RegNo) (d : Disp32)
  | direct (d : DWord)
  | sib (base : RegNo) (index : Option (RegNo × Scale)) (d : Disp32)
  | sibDirect (index : Option (RegNo × Scale)) (d : DWord)
  deriving DecidableEq, Repr

/-- An addressing form under either AddressSize. -/
inductive Addr where
  | a16 (a : Addr16)
  | a32 (a : Addr32)
  deriving DecidableEq, Repr

/-- A ModRM memory operand: the segment override prefix if there is one (R74) and the address. -/
structure MemOp where
  seg : Option SegName
  addr : Addr
  deriving DecidableEq, Repr

/-- The `r/m` operand (R79, R81): a register when ModRM.mod = 3, else memory. -/
inductive RM where
  | reg (n : RegNo)
  | mem (m : MemOp)
  deriving DecidableEq, Repr

/-- The size prefixes of an instruction (R72): whether 66 and whether 67 is present. -/
structure Pfx where
  opSize : Bool
  addrSize : Bool
  deriving DecidableEq, Repr

/-- The two repeat prefixes of SCAS (R76): F3 is REPE, F2 is REPNE. -/
inductive RepCond where
  | repe | repne
  deriving DecidableEq, Repr

/-- The instructions: one constructor per row of spec/opcode_table.json, in the table's order. `p`
holds the size prefixes, `rm` the r/m operand, `r` the register operand of a `/r` form, `imm` the
immediate, `rep` the repeat prefix of a string instruction. -/
inductive Instr where
  /-- SAHF (R110). -/
  | sahf (p : Pfx)
  /-- SAL r/m8,1 (R117). -/
  | salRm8One (p : Pfx) (rm : RM)
  /-- SAL r/m8,CL (R117). -/
  | salRm8Cl (p : Pfx) (rm : RM)
  /-- SAL r/m8,imm8 (R117). -/
  | salRm8Imm8 (p : Pfx) (rm : RM) (imm : Byte)
  /-- SAL r/m16,1 (R117). -/
  | salRm16One (p : Pfx) (rm : RM)
  /-- SAL r/m16,CL (R117). -/
  | salRm16Cl (p : Pfx) (rm : RM)
  /-- SAL r/m16,imm8 (R117). -/
  | salRm16Imm8 (p : Pfx) (rm : RM) (imm : Byte)
  /-- SAL r/m32,1 (R117). -/
  | salRm32One (p : Pfx) (rm : RM)
  /-- SAL r/m32,CL (R117). -/
  | salRm32Cl (p : Pfx) (rm : RM)
  /-- SAL r/m32,imm8 (R117). -/
  | salRm32Imm8 (p : Pfx) (rm : RM) (imm : Byte)
  /-- SAR r/m8,1 (R119). -/
  | sarRm8One (p : Pfx) (rm : RM)
  /-- SAR r/m8,CL (R119). -/
  | sarRm8Cl (p : Pfx) (rm : RM)
  /-- SAR r/m8,imm8 (R119). -/
  | sarRm8Imm8 (p : Pfx) (rm : RM) (imm : Byte)
  /-- SAR r/m16,1 (R119). -/
  | sarRm16One (p : Pfx) (rm : RM)
  /-- SAR r/m16,CL (R119). -/
  | sarRm16Cl (p : Pfx) (rm : RM)
  /-- SAR r/m16,imm8 (R119). -/
  | sarRm16Imm8 (p : Pfx) (rm : RM) (imm : Byte)
  /-- SAR r/m32,1 (R119). -/
  | sarRm32One (p : Pfx) (rm : RM)
  /-- SAR r/m32,CL (R119). -/
  | sarRm32Cl (p : Pfx) (rm : RM)
  /-- SAR r/m32,imm8 (R119). -/
  | sarRm32Imm8 (p : Pfx) (rm : RM) (imm : Byte)
  /-- SHL r/m8,1 (R117). -/
  | shlRm8One (p : Pfx) (rm : RM)
  /-- SHL r/m8,CL (R117). -/
  | shlRm8Cl (p : Pfx) (rm : RM)
  /-- SHL r/m8,imm8 (R117). -/
  | shlRm8Imm8 (p : Pfx) (rm : RM) (imm : Byte)
  /-- SHL r/m16,1 (R117). -/
  | shlRm16One (p : Pfx) (rm : RM)
  /-- SHL r/m16,CL (R117). -/
  | shlRm16Cl (p : Pfx) (rm : RM)
  /-- SHL r/m16,imm8 (R117). -/
  | shlRm16Imm8 (p : Pfx) (rm : RM) (imm : Byte)
  /-- SHL r/m32,1 (R117). -/
  | shlRm32One (p : Pfx) (rm : RM)
  /-- SHL r/m32,CL (R117). -/
  | shlRm32Cl (p : Pfx) (rm : RM)
  /-- SHL r/m32,imm8 (R117). -/
  | shlRm32Imm8 (p : Pfx) (rm : RM) (imm : Byte)
  /-- SHR r/m8,1 (R118). -/
  | shrRm8One (p : Pfx) (rm : RM)
  /-- SHR r/m8,CL (R118). -/
  | shrRm8Cl (p : Pfx) (rm : RM)
  /-- SHR r/m8,imm8 (R118). -/
  | shrRm8Imm8 (p : Pfx) (rm : RM) (imm : Byte)
  /-- SHR r/m16,1 (R118). -/
  | shrRm16One (p : Pfx) (rm : RM)
  /-- SHR r/m16,CL (R118). -/
  | shrRm16Cl (p : Pfx) (rm : RM)
  /-- SHR r/m16,imm8 (R118). -/
  | shrRm16Imm8 (p : Pfx) (rm : RM) (imm : Byte)
  /-- SHR r/m32,1 (R118). -/
  | shrRm32One (p : Pfx) (rm : RM)
  /-- SHR r/m32,CL (R118). -/
  | shrRm32Cl (p : Pfx) (rm : RM)
  /-- SHR r/m32,imm8 (R118). -/
  | shrRm32Imm8 (p : Pfx) (rm : RM) (imm : Byte)
  /-- SBB AL,imm8 (R131). -/
  | sbbAlImm8 (p : Pfx) (imm : Byte)
  /-- SBB AX,imm16 (R131). -/
  | sbbAxImm16 (p : Pfx) (imm : Word)
  /-- SBB EAX,imm32 (R131). -/
  | sbbEaxImm32 (p : Pfx) (imm : DWord)
  /-- SBB r/m8,imm8 (R132). -/
  | sbbRm8Imm8 (p : Pfx) (rm : RM) (imm : Byte)
  /-- SBB r/m16,imm16 (R132). -/
  | sbbRm16Imm16 (p : Pfx) (rm : RM) (imm : Word)
  /-- SBB r/m32,imm32 (R132). -/
  | sbbRm32Imm32 (p : Pfx) (rm : RM) (imm : DWord)
  /-- SBB r/m16,imm8 (R133). -/
  | sbbRm16Imm8 (p : Pfx) (rm : RM) (imm : Byte)
  /-- SBB r/m32,imm8 (R133). -/
  | sbbRm32Imm8 (p : Pfx) (rm : RM) (imm : Byte)
  /-- SBB r/m8,r8 (R134). -/
  | sbbRm8R8 (p : Pfx) (rm : RM) (r : RegNo)
  /-- SBB r/m16,r16 (R134). -/
  | sbbRm16R16 (p : Pfx) (rm : RM) (r : RegNo)
  /-- SBB r/m32,r32 (R134). -/
  | sbbRm32R32 (p : Pfx) (rm : RM) (r : RegNo)
  /-- SBB r8,r/m8 (R135). -/
  | sbbR8Rm8 (p : Pfx) (rm : RM) (r : RegNo)
  /-- SBB r16,r/m16 (R135). -/
  | sbbR16Rm16 (p : Pfx) (rm : RM) (r : RegNo)
  /-- SBB r32,r/m32 (R135). -/
  | sbbR32Rm32 (p : Pfx) (rm : RM) (r : RegNo)
  /-- SCAS m8 (R142). -/
  | scasM8 (p : Pfx) (rep : Option RepCond)
  /-- SCAS m16 (R143). -/
  | scasM16 (p : Pfx) (rep : Option RepCond)
  /-- SCAS m32 (R144). -/
  | scasM32 (p : Pfx) (rep : Option RepCond)
  /-- SCASB (R142). -/
  | scasb (p : Pfx) (rep : Option RepCond)
  /-- SCASW (R143). -/
  | scasw (p : Pfx) (rep : Option RepCond)
  /-- SCASD (R144). -/
  | scasd (p : Pfx) (rep : Option RepCond)
  /-- SETA r/m8 (R159). -/
  | seta (p : Pfx) (rm : RM)
  /-- SETAE r/m8 (R155). -/
  | setae (p : Pfx) (rm : RM)
  /-- SETB r/m8 (R154). -/
  | setb (p : Pfx) (rm : RM)
  /-- SETBE r/m8 (R158). -/
  | setbe (p : Pfx) (rm : RM)
  /-- SETC r/m8 (R154). -/
  | setc (p : Pfx) (rm : RM)
  /-- SETE r/m8 (R156). -/
  | sete (p : Pfx) (rm : RM)
  /-- SETG r/m8 (R167). -/
  | setg (p : Pfx) (rm : RM)
  /-- SETGE r/m8 (R165). -/
  | setge (p : Pfx) (rm : RM)
  /-- SETL r/m8 (R164). -/
  | setl (p : Pfx) (rm : RM)
  /-- SETLE r/m8 (R166). -/
  | setle (p : Pfx) (rm : RM)
  /-- SETNA r/m8 (R158). -/
  | setna (p : Pfx) (rm : RM)
  /-- SETNAE r/m8 (R154). -/
  | setnae (p : Pfx) (rm : RM)
  /-- SETNB r/m8 (R155). -/
  | setnb (p : Pfx) (rm : RM)
  /-- SETNBE r/m8 (R159). -/
  | setnbe (p : Pfx) (rm : RM)
  /-- SETNC r/m8 (R155). -/
  | setnc (p : Pfx) (rm : RM)
  /-- SETNE r/m8 (R157). -/
  | setne (p : Pfx) (rm : RM)
  /-- SETNG r/m8 (R166). -/
  | setng (p : Pfx) (rm : RM)
  /-- SETNGE r/m8 (R164). -/
  | setnge (p : Pfx) (rm : RM)
  /-- SETNL r/m8 (R165). -/
  | setnl (p : Pfx) (rm : RM)
  /-- SETNLE r/m8 (R167). -/
  | setnle (p : Pfx) (rm : RM)
  /-- SETNO r/m8 (R153). -/
  | setno (p : Pfx) (rm : RM)
  /-- SETNP r/m8 (R163). -/
  | setnp (p : Pfx) (rm : RM)
  /-- SETNS r/m8 (R161). -/
  | setns (p : Pfx) (rm : RM)
  /-- SETNZ r/m8 (R157). -/
  | setnz (p : Pfx) (rm : RM)
  /-- SETO r/m8 (R152). -/
  | seto (p : Pfx) (rm : RM)
  /-- SETP r/m8 (R162). -/
  | setp (p : Pfx) (rm : RM)
  /-- SETPE r/m8 (R162). -/
  | setpe (p : Pfx) (rm : RM)
  /-- SETPO r/m8 (R163). -/
  | setpo (p : Pfx) (rm : RM)
  /-- SETS r/m8 (R160). -/
  | sets (p : Pfx) (rm : RM)
  /-- SETZ r/m8 (R156). -/
  | setz (p : Pfx) (rm : RM)
  /-- SGDT m (R170). -/
  | sgdt (p : Pfx) (rm : RM)
  /-- SIDT m (R171). -/
  | sidt (p : Pfx) (rm : RM)
  /-- SHLD r/m16,r16,imm8 (R179). -/
  | shldRm16R16Imm8 (p : Pfx) (rm : RM) (r : RegNo) (imm : Byte)
  /-- SHLD r/m32,r32,imm8 (R179). -/
  | shldRm32R32Imm8 (p : Pfx) (rm : RM) (r : RegNo) (imm : Byte)
  /-- SHLD r/m16,r16,CL (R179). -/
  | shldRm16R16Cl (p : Pfx) (rm : RM) (r : RegNo)
  /-- SHLD r/m32,r32,CL (R179). -/
  | shldRm32R32Cl (p : Pfx) (rm : RM) (r : RegNo)
  /-- SHRD r/m16,r16,imm8 (R182). -/
  | shrdRm16R16Imm8 (p : Pfx) (rm : RM) (r : RegNo) (imm : Byte)
  /-- SHRD r/m32,r32,imm8 (R182). -/
  | shrdRm32R32Imm8 (p : Pfx) (rm : RM) (r : RegNo) (imm : Byte)
  /-- SHRD r/m16,r16,CL (R182). -/
  | shrdRm16R16Cl (p : Pfx) (rm : RM) (r : RegNo)
  /-- SHRD r/m32,r32,CL (R182). -/
  | shrdRm32R32Cl (p : Pfx) (rm : RM) (r : RegNo)
  /-- SLDT r/m16 (R186). -/
  | sldt (p : Pfx) (rm : RM)
  /-- SMSW r/m16 (R189). -/
  | smsw (p : Pfx) (rm : RM)
  /-- STC (R192). -/
  | stc (p : Pfx)
  /-- STD (R193). -/
  | std (p : Pfx)
  /-- STI (R195). -/
  | sti (p : Pfx)
  /-- STOS m8 (R201). -/
  | stosM8 (p : Pfx) (rep : Bool)
  /-- STOS m16 (R202). -/
  | stosM16 (p : Pfx) (rep : Bool)
  /-- STOS m32 (R203). -/
  | stosM32 (p : Pfx) (rep : Bool)
  /-- STOSB (R201). -/
  | stosb (p : Pfx) (rep : Bool)
  /-- STOSW (R202). -/
  | stosw (p : Pfx) (rep : Bool)
  /-- STOSD (R203). -/
  | stosd (p : Pfx) (rep : Bool)
  /-- STR r/m16 (R207). -/
  | str (p : Pfx) (rm : RM)
  /-- SUB AL,imm8 (R211). -/
  | subAlImm8 (p : Pfx) (imm : Byte)
  /-- SUB AX,imm16 (R211). -/
  | subAxImm16 (p : Pfx) (imm : Word)
  /-- SUB EAX,imm32 (R211). -/
  | subEaxImm32 (p : Pfx) (imm : DWord)
  /-- SUB r/m8,imm8 (R212). -/
  | subRm8Imm8 (p : Pfx) (rm : RM) (imm : Byte)
  /-- SUB r/m16,imm16 (R212). -/
  | subRm16Imm16 (p : Pfx) (rm : RM) (imm : Word)
  /-- SUB r/m32,imm32 (R212). -/
  | subRm32Imm32 (p : Pfx) (rm : RM) (imm : DWord)
  /-- SUB r/m16,imm8 (R213). -/
  | subRm16Imm8 (p : Pfx) (rm : RM) (imm : Byte)
  /-- SUB r/m32,imm8 (R213). -/
  | subRm32Imm8 (p : Pfx) (rm : RM) (imm : Byte)
  /-- SUB r/m8,r8 (R214). -/
  | subRm8R8 (p : Pfx) (rm : RM) (r : RegNo)
  /-- SUB r/m16,r16 (R214). -/
  | subRm16R16 (p : Pfx) (rm : RM) (r : RegNo)
  /-- SUB r/m32,r32 (R214). -/
  | subRm32R32 (p : Pfx) (rm : RM) (r : RegNo)
  /-- SUB r8,r/m8 (R215). -/
  | subR8Rm8 (p : Pfx) (rm : RM) (r : RegNo)
  /-- SUB r16,r/m16 (R215). -/
  | subR16Rm16 (p : Pfx) (rm : RM) (r : RegNo)
  /-- SUB r32,r/m32 (R215). -/
  | subR32Rm32 (p : Pfx) (rm : RM) (r : RegNo)
  deriving DecidableEq, Repr

/-- The canonical constructor of an instruction's encoding (R97): the table's synonym rows (SAL for
SHL, SCAS m8 for SCASB, SETC for SETB, ...) go to the row a decoder keeps (R100), every other row to
itself. -/
def Instr.canonical : Instr → Instr
  | .salRm8One p rm => .shlRm8One p rm
  | .salRm8Cl p rm => .shlRm8Cl p rm
  | .salRm8Imm8 p rm imm => .shlRm8Imm8 p rm imm
  | .salRm16One p rm => .shlRm16One p rm
  | .salRm16Cl p rm => .shlRm16Cl p rm
  | .salRm16Imm8 p rm imm => .shlRm16Imm8 p rm imm
  | .salRm32One p rm => .shlRm32One p rm
  | .salRm32Cl p rm => .shlRm32Cl p rm
  | .salRm32Imm8 p rm imm => .shlRm32Imm8 p rm imm
  | .scasM8 p rep => .scasb p rep
  | .scasM16 p rep => .scasw p rep
  | .scasM32 p rep => .scasd p rep
  | .setc p rm => .setb p rm
  | .setna p rm => .setbe p rm
  | .setnae p rm => .setb p rm
  | .setnb p rm => .setae p rm
  | .setnbe p rm => .seta p rm
  | .setnc p rm => .setae p rm
  | .setng p rm => .setle p rm
  | .setnge p rm => .setl p rm
  | .setnl p rm => .setge p rm
  | .setnle p rm => .setg p rm
  | .setnz p rm => .setne p rm
  | .setpe p rm => .setp p rm
  | .setpo p rm => .setnp p rm
  | .setz p rm => .sete p rm
  | .stosM8 p rep => .stosb p rep
  | .stosM16 p rep => .stosw p rep
  | .stosM32 p rep => .stosd p rep
  | .sahf p => .sahf p
  | .sarRm8One p rm => .sarRm8One p rm
  | .sarRm8Cl p rm => .sarRm8Cl p rm
  | .sarRm8Imm8 p rm imm => .sarRm8Imm8 p rm imm
  | .sarRm16One p rm => .sarRm16One p rm
  | .sarRm16Cl p rm => .sarRm16Cl p rm
  | .sarRm16Imm8 p rm imm => .sarRm16Imm8 p rm imm
  | .sarRm32One p rm => .sarRm32One p rm
  | .sarRm32Cl p rm => .sarRm32Cl p rm
  | .sarRm32Imm8 p rm imm => .sarRm32Imm8 p rm imm
  | .shlRm8One p rm => .shlRm8One p rm
  | .shlRm8Cl p rm => .shlRm8Cl p rm
  | .shlRm8Imm8 p rm imm => .shlRm8Imm8 p rm imm
  | .shlRm16One p rm => .shlRm16One p rm
  | .shlRm16Cl p rm => .shlRm16Cl p rm
  | .shlRm16Imm8 p rm imm => .shlRm16Imm8 p rm imm
  | .shlRm32One p rm => .shlRm32One p rm
  | .shlRm32Cl p rm => .shlRm32Cl p rm
  | .shlRm32Imm8 p rm imm => .shlRm32Imm8 p rm imm
  | .shrRm8One p rm => .shrRm8One p rm
  | .shrRm8Cl p rm => .shrRm8Cl p rm
  | .shrRm8Imm8 p rm imm => .shrRm8Imm8 p rm imm
  | .shrRm16One p rm => .shrRm16One p rm
  | .shrRm16Cl p rm => .shrRm16Cl p rm
  | .shrRm16Imm8 p rm imm => .shrRm16Imm8 p rm imm
  | .shrRm32One p rm => .shrRm32One p rm
  | .shrRm32Cl p rm => .shrRm32Cl p rm
  | .shrRm32Imm8 p rm imm => .shrRm32Imm8 p rm imm
  | .sbbAlImm8 p imm => .sbbAlImm8 p imm
  | .sbbAxImm16 p imm => .sbbAxImm16 p imm
  | .sbbEaxImm32 p imm => .sbbEaxImm32 p imm
  | .sbbRm8Imm8 p rm imm => .sbbRm8Imm8 p rm imm
  | .sbbRm16Imm16 p rm imm => .sbbRm16Imm16 p rm imm
  | .sbbRm32Imm32 p rm imm => .sbbRm32Imm32 p rm imm
  | .sbbRm16Imm8 p rm imm => .sbbRm16Imm8 p rm imm
  | .sbbRm32Imm8 p rm imm => .sbbRm32Imm8 p rm imm
  | .sbbRm8R8 p rm r => .sbbRm8R8 p rm r
  | .sbbRm16R16 p rm r => .sbbRm16R16 p rm r
  | .sbbRm32R32 p rm r => .sbbRm32R32 p rm r
  | .sbbR8Rm8 p rm r => .sbbR8Rm8 p rm r
  | .sbbR16Rm16 p rm r => .sbbR16Rm16 p rm r
  | .sbbR32Rm32 p rm r => .sbbR32Rm32 p rm r
  | .scasb p rep => .scasb p rep
  | .scasw p rep => .scasw p rep
  | .scasd p rep => .scasd p rep
  | .seta p rm => .seta p rm
  | .setae p rm => .setae p rm
  | .setb p rm => .setb p rm
  | .setbe p rm => .setbe p rm
  | .sete p rm => .sete p rm
  | .setg p rm => .setg p rm
  | .setge p rm => .setge p rm
  | .setl p rm => .setl p rm
  | .setle p rm => .setle p rm
  | .setne p rm => .setne p rm
  | .setno p rm => .setno p rm
  | .setnp p rm => .setnp p rm
  | .setns p rm => .setns p rm
  | .seto p rm => .seto p rm
  | .setp p rm => .setp p rm
  | .sets p rm => .sets p rm
  | .sgdt p rm => .sgdt p rm
  | .sidt p rm => .sidt p rm
  | .shldRm16R16Imm8 p rm r imm => .shldRm16R16Imm8 p rm r imm
  | .shldRm32R32Imm8 p rm r imm => .shldRm32R32Imm8 p rm r imm
  | .shldRm16R16Cl p rm r => .shldRm16R16Cl p rm r
  | .shldRm32R32Cl p rm r => .shldRm32R32Cl p rm r
  | .shrdRm16R16Imm8 p rm r imm => .shrdRm16R16Imm8 p rm r imm
  | .shrdRm32R32Imm8 p rm r imm => .shrdRm32R32Imm8 p rm r imm
  | .shrdRm16R16Cl p rm r => .shrdRm16R16Cl p rm r
  | .shrdRm32R32Cl p rm r => .shrdRm32R32Cl p rm r
  | .sldt p rm => .sldt p rm
  | .smsw p rm => .smsw p rm
  | .stc p => .stc p
  | .std p => .std p
  | .sti p => .sti p
  | .stosb p rep => .stosb p rep
  | .stosw p rep => .stosw p rep
  | .stosd p rep => .stosd p rep
  | .str p rm => .str p rm
  | .subAlImm8 p imm => .subAlImm8 p imm
  | .subAxImm16 p imm => .subAxImm16 p imm
  | .subEaxImm32 p imm => .subEaxImm32 p imm
  | .subRm8Imm8 p rm imm => .subRm8Imm8 p rm imm
  | .subRm16Imm16 p rm imm => .subRm16Imm16 p rm imm
  | .subRm32Imm32 p rm imm => .subRm32Imm32 p rm imm
  | .subRm16Imm8 p rm imm => .subRm16Imm8 p rm imm
  | .subRm32Imm8 p rm imm => .subRm32Imm8 p rm imm
  | .subRm8R8 p rm r => .subRm8R8 p rm r
  | .subRm16R16 p rm r => .subRm16R16 p rm r
  | .subRm32R32 p rm r => .subRm32R32 p rm r
  | .subR8Rm8 p rm r => .subR8Rm8 p rm r
  | .subR16Rm16 p rm r => .subR16Rm16 p rm r
  | .subR32Rm32 p rm r => .subR32Rm32 p rm r

end Sys2Proof
end

