-- ==== Sys2Proof/WellFormed.lean ====
section
/-! DEFINITION. Well-formed instructions: the terms some byte string encodes under a given DefaultSize
(R75, R82, R83, R98). -/

namespace Sys2Proof

/-- An attribute after its override prefix (R75): the default, or the other value if the prefix is
present. -/
def Size.select (d : Size) (present : Bool) : Size :=
  match d, present with
  | d, false => d
  | .s16, true => .s32
  | .s32, true => .s16

/-- R82: the form [BP] without displacement has no encoding (rm = 6 with mod = 0 is disp16). -/
def Addr16.wf : Addr16 → Bool
  | .based .bp .none => false
  | .based _ _ => true
  | .direct _ => true

/-- R83: SIB.index = 4 names no register. -/
def indexWf : Option (RegNo × Scale) → Bool
  | some (.n4, _) => false
  | _ => true

/-- R83: rm = 4 is the SIB escape; base 5 without displacement is disp32; index 4 is no index. -/
def Addr32.wf : Addr32 → Bool
  | .based .n4 _ => false
  | .based .n5 .none => false
  | .based _ _ => true
  | .direct _ => true
  | .sib .n5 _ .none => false
  | .sib _ i _ => indexWf i
  | .sibDirect i _ => indexWf i

/-- An address is well-formed under AddressSize `a` when it is a form of that size (R82, R83). -/
def Addr.wf (a : Size) : Addr → Bool
  | .a16 x => decide (a = .s16) && x.wf
  | .a32 x => decide (a = .s32) && x.wf

/-- An r/m operand under AddressSize `a`; a register operand has no address. -/
def RM.wf (a : Size) : RM → Bool
  | .reg _ => true
  | .mem m => m.addr.wf a

/-- The r/m operand of an instruction with size prefixes `p` under DefaultSize `d`. -/
def Pfx.rmWf (p : Pfx) (d : Size) (rm : RM) : Bool :=
  rm.wf (d.select p.addrSize)

/-- R98: a word form needs OperandSize 16, a dword form OperandSize 32. -/
def Pfx.sizeWf (p : Pfx) (d : Size) (form : Size) : Bool :=
  decide (d.select p.opSize = form)

/-- Well-formed under DefaultSize `d`. -/
def Instr.wf (d : Size) : Instr → Bool
  | .sahf _ | .sbbAlImm8 _ _ | .scasM8 _ _ | .scasb _ _ | .stc _ | .std _ | .sti _ | .stosM8 _ _
  | .stosb _ _ | .subAlImm8 _ _
    => true
  | .salRm8One p rm | .salRm8Cl p rm | .salRm8Imm8 p rm _ | .sarRm8One p rm | .sarRm8Cl p rm
  | .sarRm8Imm8 p rm _ | .shlRm8One p rm | .shlRm8Cl p rm | .shlRm8Imm8 p rm _ | .shrRm8One p rm
  | .shrRm8Cl p rm | .shrRm8Imm8 p rm _ | .sbbRm8Imm8 p rm _ | .sbbRm8R8 p rm _
  | .sbbR8Rm8 p rm _ | .seta p rm | .setae p rm | .setb p rm | .setbe p rm | .setc p rm
  | .sete p rm | .setg p rm | .setge p rm | .setl p rm | .setle p rm | .setna p rm | .setnae p rm
  | .setnb p rm | .setnbe p rm | .setnc p rm | .setne p rm | .setng p rm | .setnge p rm
  | .setnl p rm | .setnle p rm | .setno p rm | .setnp p rm | .setns p rm | .setnz p rm
  | .seto p rm | .setp p rm | .setpe p rm | .setpo p rm | .sets p rm | .setz p rm | .sgdt p rm
  | .sidt p rm | .sldt p rm | .smsw p rm | .str p rm | .subRm8Imm8 p rm _ | .subRm8R8 p rm _
  | .subR8Rm8 p rm _
    => p.rmWf d rm
  | .salRm16One p rm | .salRm16Cl p rm | .salRm16Imm8 p rm _ | .sarRm16One p rm | .sarRm16Cl p rm
  | .sarRm16Imm8 p rm _ | .shlRm16One p rm | .shlRm16Cl p rm | .shlRm16Imm8 p rm _
  | .shrRm16One p rm | .shrRm16Cl p rm | .shrRm16Imm8 p rm _ | .sbbRm16Imm16 p rm _
  | .sbbRm16Imm8 p rm _ | .sbbRm16R16 p rm _ | .sbbR16Rm16 p rm _ | .shldRm16R16Imm8 p rm _ _
  | .shldRm16R16Cl p rm _ | .shrdRm16R16Imm8 p rm _ _ | .shrdRm16R16Cl p rm _
  | .subRm16Imm16 p rm _ | .subRm16Imm8 p rm _ | .subRm16R16 p rm _ | .subR16Rm16 p rm _
    => p.sizeWf d .s16 && p.rmWf d rm
  | .salRm32One p rm | .salRm32Cl p rm | .salRm32Imm8 p rm _ | .sarRm32One p rm | .sarRm32Cl p rm
  | .sarRm32Imm8 p rm _ | .shlRm32One p rm | .shlRm32Cl p rm | .shlRm32Imm8 p rm _
  | .shrRm32One p rm | .shrRm32Cl p rm | .shrRm32Imm8 p rm _ | .sbbRm32Imm32 p rm _
  | .sbbRm32Imm8 p rm _ | .sbbRm32R32 p rm _ | .sbbR32Rm32 p rm _ | .shldRm32R32Imm8 p rm _ _
  | .shldRm32R32Cl p rm _ | .shrdRm32R32Imm8 p rm _ _ | .shrdRm32R32Cl p rm _
  | .subRm32Imm32 p rm _ | .subRm32Imm8 p rm _ | .subRm32R32 p rm _ | .subR32Rm32 p rm _
    => p.sizeWf d .s32 && p.rmWf d rm
  | .sbbAxImm16 p _ | .scasM16 p _ | .scasw p _ | .stosM16 p _ | .stosw p _ | .subAxImm16 p _
    => p.sizeWf d .s16
  | .sbbEaxImm32 p _ | .scasM32 p _ | .scasd p _ | .stosM32 p _ | .stosd p _ | .subEaxImm32 p _
    => p.sizeWf d .s32

end Sys2Proof
end

