-- ==== Sys2Proof/Decode.lean ====
section
/-! DEFINITION. The decoder of R99, total on any bytes and rejecting by name, and the encoder, both
written from the encoding tables R70 to R92. -/

namespace Sys2Proof

/-- Why a byte string is not an in-scope instruction. -/
inductive DecodeError where
  /-- The bytes end inside the instruction. -/
  | short
  /-- The LOCK prefix F0 (R77). -/
  | lock
  /-- A second prefix of one group (R73). -/
  | repeatedPrefix
  /-- No row of R91 matches (R93, D24). -/
  | outOfScope
  /-- SIB.index = 4 with a scale other than 0 (R83, D24). -/
  | sibScaleWithoutIndex
  /-- A segment override on an instruction with no ModRM memory operand (R74, D18). -/
  | overrideNotAllowed
  /-- F2 or F3 where R76 does not define it (D17). -/
  | repNotAllowed
  deriving DecidableEq, Repr

/-- What a decoding stage answers. -/
abbrev Dec (α : Type) := Except DecodeError α

/-! ### Bit fields and byte order -/

/-- A byte from the fields in bits 7:6, 5:3 and 2:0 (R79, R83). -/
def fieldsByte (hi : BitVec 2) (mid lo : BitVec 3) : Byte := hi ++ mid ++ lo

/-- Bits 7:6 of a ModRM or SIB byte. -/
def hiField (b : Byte) : BitVec 2 := b.extractLsb' 6 2

/-- Bits 5:3 of a ModRM or SIB byte. -/
def midField (b : Byte) : BitVec 3 := b.extractLsb' 3 3

/-- Bits 2:0 of a ModRM or SIB byte. -/
def loField (b : Byte) : BitVec 3 := b.extractLsb' 0 3

/-- The bytes of a 16-bit field, least significant first (R45, R89). -/
def wordBytes (v : Word) : List Byte := [v.extractLsb' 0 8, v.extractLsb' 8 8]

/-- The bytes of a 32-bit field, least significant first (R45, R89). -/
def dwordBytes (v : DWord) : List Byte :=
  [v.extractLsb' 0 8, v.extractLsb' 8 8, v.extractLsb' 16 8, v.extractLsb' 24 8]

/-- The register number of a 3-bit field (R12). -/
def RegNo.ofBits (b : BitVec 3) : RegNo :=
  match b.toNat with
  | 0 => .n0 | 1 => .n1 | 2 => .n2 | 3 => .n3
  | 4 => .n4 | 5 => .n5 | 6 => .n6 | _ => .n7

/-- The 3-bit field of a register number (R12). -/
def RegNo.toBits : RegNo → BitVec 3
  | .n0 => 0#3 | .n1 => 1#3 | .n2 => 2#3 | .n3 => 3#3
  | .n4 => 4#3 | .n5 => 5#3 | .n6 => 6#3 | .n7 => 7#3

/-- The register part that `rm` names in a 16-bit form (R82). -/
def Base16.ofBits (b : BitVec 3) : Base16 :=
  match b.toNat with
  | 0 => .bxsi | 1 => .bxdi | 2 => .bpsi | 3 => .bpdi
  | 4 => .si | 5 => .di | 6 => .bp | _ => .bx

/-- The `rm` number of a 16-bit register part (R82). -/
def Base16.toBits : Base16 → BitVec 3
  | .bxsi => 0#3 | .bxdi => 1#3 | .bpsi => 2#3 | .bpdi => 3#3
  | .si => 4#3 | .di => 5#3 | .bp => 6#3 | .bx => 7#3

/-- The scale of a SIB byte's bits 7:6 (R83). -/
def Scale.ofBits (b : BitVec 2) : Scale :=
  match b.toNat with
  | 0 => .x1 | 1 => .x2 | 2 => .x4 | _ => .x8

/-- The SIB bits 7:6 of a scale (R83). -/
def Scale.toBits : Scale → BitVec 2
  | .x1 => 0#2 | .x2 => 1#2 | .x4 => 2#2 | .x8 => 3#2

/-- One byte from the front. -/
def takeByte : List Byte → Dec (Byte × List Byte)
  | b :: bs => .ok (b, bs)
  | [] => .error .short

/-- A little-endian 16-bit field from the front (R45, R89). -/
def takeWord : List Byte → Dec (Word × List Byte)
  | b0 :: b1 :: bs => .ok (b1 ++ b0, bs)
  | _ => .error .short

/-- A little-endian 32-bit field from the front (R45, R89). -/
def takeDWord : List Byte → Dec (DWord × List Byte)
  | b0 :: b1 :: b2 :: b3 :: bs => .ok (b3 ++ b2 ++ b1 ++ b0, bs)
  | _ => .error .short

/-! ### Prefixes (R72 to R77) -/

/-- What a prefix byte is (R72). -/
inductive PrefixByte where
  | opSize | addrSize | lock
  | seg (r : SegName)
  | rep (c : RepCond)
  deriving DecidableEq, Repr

/-- The prefix bytes of R72; any other byte is the opcode. -/
def prefixOf (b : Byte) : Option PrefixByte :=
  match b.toNat with
  | 0x66 => some .opSize
  | 0x67 => some .addrSize
  | 0x26 => some (.seg .es)
  | 0x2E => some (.seg .cs)
  | 0x36 => some (.seg .ss)
  | 0x3E => some (.seg .ds)
  | 0x64 => some (.seg .fs)
  | 0x65 => some (.seg .gs)
  | 0xF3 => some (.rep .repe)
  | 0xF2 => some (.rep .repne)
  | 0xF0 => some .lock
  | _ => none

/-- The byte of a segment override (R72). -/
def SegName.overrideByte : SegName → Byte
  | .es => 0x26#8 | .cs => 0x2E#8 | .ss => 0x36#8 | .ds => 0x3E#8 | .fs => 0x64#8 | .gs => 0x65#8

/-- The byte of a repeat prefix (R72, R76). -/
def RepCond.prefixByte : RepCond → Byte
  | .repe => 0xF3#8
  | .repne => 0xF2#8

/-- The prefixes seen so far: at most one of each group of R73. -/
structure Prefixes where
  pfx : Pfx
  seg : Option SegName
  rep : Option RepCond
  deriving DecidableEq, Repr

/-- No prefix. -/
def Prefixes.empty : Prefixes := ⟨⟨false, false⟩, none, none⟩

/-- Step 1 of R99: the prefixes in any order, refusing a repeated group (R73) and F0 (R77). -/
def readPrefixes (x : Prefixes) : List Byte → Dec (Prefixes × List Byte)
  | [] => .error .short
  | b :: bs =>
    match prefixOf b with
    | none => .ok (x, b :: bs)
    | some .lock => .error .lock
    | some .opSize =>
      if x.pfx.opSize then .error .repeatedPrefix
      else readPrefixes ⟨⟨true, x.pfx.addrSize⟩, x.seg, x.rep⟩ bs
    | some .addrSize =>
      if x.pfx.addrSize then .error .repeatedPrefix
      else readPrefixes ⟨⟨x.pfx.opSize, true⟩, x.seg, x.rep⟩ bs
    | some (.seg r) =>
      if x.seg.isSome then .error .repeatedPrefix
      else readPrefixes ⟨x.pfx, some r, x.rep⟩ bs
    | some (.rep c) =>
      if x.rep.isSome then .error .repeatedPrefix
      else readPrefixes ⟨x.pfx, x.seg, some c⟩ bs

/-! ### The r/m operand (R79 to R83) -/

/-- The displacement that mod selects for a 16-bit form with a register part (R82). -/
def takeDisp16 (mod : BitVec 2) (bs : List Byte) : Dec (Disp16 × List Byte) :=
  match mod.toNat with
  | 0 => .ok (.none, bs)
  | 1 => do
    let (v, bs) ← takeByte bs
    .ok (.d8 v, bs)
  | _ => do
    let (v, bs) ← takeWord bs
    .ok (.d16 v, bs)

/-- The displacement that mod selects for a 32-bit form with a base register (R83). -/
def takeDisp32 (mod : BitVec 2) (bs : List Byte) : Dec (Disp32 × List Byte) :=
  match mod.toNat with
  | 0 => .ok (.none, bs)
  | 1 => do
    let (v, bs) ← takeByte bs
    .ok (.d8 v, bs)
  | _ => do
    let (v, bs) ← takeDWord bs
    .ok (.d32 v, bs)

/-- A 16-bit address (R82), mod not 3. -/
def takeAddr16 (mod : BitVec 2) (rm : BitVec 3) (bs : List Byte) : Dec (Addr16 × List Byte) :=
  if mod = 0#2 ∧ rm = 6#3 then do
    let (v, bs) ← takeWord bs
    .ok (.direct v, bs)
  else do
    let (disp, bs) ← takeDisp16 mod bs
    .ok (.based (Base16.ofBits rm) disp, bs)

/-- The index of a SIB byte (R83): index 4 means none and is refused with a scale (D24). -/
def sibIndex (scale : BitVec 2) (index : BitVec 3) : Dec (Option (RegNo × Scale)) :=
  if index = 4#3 then
    if scale = 0#2 then .ok none else .error .sibScaleWithoutIndex
  else .ok (some (RegNo.ofBits index, Scale.ofBits scale))

/-- A 32-bit address (R83), mod not 3. -/
def takeAddr32 (mod : BitVec 2) (rm : BitVec 3) (bs : List Byte) : Dec (Addr32 × List Byte) :=
  if rm = 4#3 then do
    let (sib, bs) ← takeByte bs
    let index ← sibIndex (hiField sib) (midField sib)
    if loField sib = 5#3 ∧ mod = 0#2 then do
      let (v, bs) ← takeDWord bs
      .ok (.sibDirect index v, bs)
    else do
      let (disp, bs) ← takeDisp32 mod bs
      .ok (.sib (RegNo.ofBits (loField sib)) index disp, bs)
  else if rm = 5#3 ∧ mod = 0#2 then do
    let (v, bs) ← takeDWord bs
    .ok (.direct v, bs)
  else do
    let (disp, bs) ← takeDisp32 mod bs
    .ok (.based (RegNo.ofBits rm) disp, bs)

/-- The r/m operand that the ModRM byte `m` and the bytes after it name under AddressSize `a`
(R81 to R83, R86). -/
def takeRM (a : Size) (seg : Option SegName) (m : Byte) (bs : List Byte) : Dec (RM × List Byte) :=
  if hiField m = 3#2 then .ok (.reg (RegNo.ofBits (loField m)), bs)
  else
    match a with
    | .s16 => do
      let (x, bs) ← takeAddr16 (hiField m) (loField m) bs
      .ok (.mem ⟨seg, .a16 x⟩, bs)
    | .s32 => do
      let (x, bs) ← takeAddr32 (hiField m) (loField m) bs
      .ok (.mem ⟨seg, .a32 x⟩, bs)

/-! ### Instruction bodies -/

/-- OperandSize (R75). -/
def Prefixes.opSize (x : Prefixes) (d : Size) : Size := d.select x.pfx.opSize

/-- AddressSize (R75). -/
def Prefixes.addrSize (x : Prefixes) (d : Size) : Size := d.select x.pfx.addrSize

/-- Of a word and dword form under one opcode, the one OperandSize chooses (R98). -/
def bySize {α : Type} (d : Size) (x : Prefixes) (word dword : α) : α :=
  match x.opSize d with
  | .s16 => word
  | .s32 => dword

/-- Step 8 of R99 for an instruction with no ModRM memory operand: no override (R74). -/
def checkOverride (x : Prefixes) : Dec Unit :=
  if x.seg.isSome then .error .overrideNotAllowed else .ok ()

/-- Step 8 of R99 for an instruction that takes no repeat prefix (R76). -/
def checkRep (x : Prefixes) : Dec Unit :=
  if x.rep.isSome then .error .repNotAllowed else .ok ()

/-- Step 8 of R99 for a ModRM instruction. -/
def checkRM (x : Prefixes) (rm : RM) : Dec Unit :=
  match rm with
  | .reg _ => do
    checkOverride x
    checkRep x
  | .mem _ => checkRep x

/-- An instruction without operand bytes. -/
def decPlain (x : Prefixes) (bs : List Byte) (mk : Pfx → Instr) : Dec (Instr × List Byte) := do
  checkOverride x
  checkRep x
  .ok (mk x.pfx, bs)

/-- SCAS with its optional repeat prefix (R74, R76). -/
def decScas (x : Prefixes) (bs : List Byte) (mk : Pfx → Option RepCond → Instr) :
    Dec (Instr × List Byte) := do
  checkOverride x
  .ok (mk x.pfx x.rep, bs)

/-- STOS with its optional F3 prefix; F2 is refused (R74, R76). -/
def decStos (x : Prefixes) (bs : List Byte) (mk : Pfx → Bool → Instr) : Dec (Instr × List Byte) := do
  checkOverride x
  match x.rep with
  | none => .ok (mk x.pfx false, bs)
  | some .repe => .ok (mk x.pfx true, bs)
  | some .repne => .error .repNotAllowed

/-- An accumulator-immediate form: the immediate read by `take`. -/
def decAcc {α : Type} (x : Prefixes) (bs : List Byte) (take : List Byte → Dec (α × List Byte))
    (mk : Pfx → α → Instr) : Dec (Instr × List Byte) := do
  let (v, bs) ← take bs
  checkOverride x
  checkRep x
  .ok (mk x.pfx v, bs)

/-- A ModRM byte whose reg field `pick` accepts (step 5 of R99: a digit no row has is out of scope),
and the r/m operand. -/
def decModRM {α : Type} (d : Size) (x : Prefixes) (bs : List Byte) (pick : BitVec 3 → Option α) :
    Dec (α × RM × List Byte) := do
  let (m, bs) ← takeByte bs
  match pick (midField m) with
  | none => .error .outOfScope
  | some k => do
    let (rm, bs) ← takeRM (x.addrSize d) x.seg m bs
    .ok (k, rm, bs)

/-- A ModRM form without immediate. -/
def decRM (d : Size) (x : Prefixes) (bs : List Byte) (pick : BitVec 3 → Option (Pfx → RM → Instr)) :
    Dec (Instr × List Byte) := do
  let (mk, rm, bs) ← decModRM d x bs pick
  checkRM x rm
  .ok (mk x.pfx rm, bs)

/-- A ModRM form with an immediate read by `take`. -/
def decRMImm {α : Type} (d : Size) (x : Prefixes) (bs : List Byte)
    (take : List Byte → Dec (α × List Byte)) (pick : BitVec 3 → Option (Pfx → RM → α → Instr)) :
    Dec (Instr × List Byte) := do
  let (mk, rm, bs) ← decModRM d x bs pick
  let (v, bs) ← take bs
  checkRM x rm
  .ok (mk x.pfx rm v, bs)

/-- A `/r` form: the reg field names a register operand (R80, R81). -/
def slashR (mk : Pfx → RM → RegNo → Instr) (b : BitVec 3) : Option (Pfx → RM → Instr) :=
  some fun p rm => mk p rm (RegNo.ofBits b)

/-- A `/r` form with an immediate byte (R80, R176). -/
def slashRImm (mk : Pfx → RM → RegNo → Byte → Instr) (b : BitVec 3) :
    Option (Pfx → RM → Byte → Instr) :=
  some fun p rm v => mk p rm (RegNo.ofBits b) v

/-- SETcc ignores the reg field (R80, D23). -/
def anyReg (mk : Pfx → RM → Instr) (_ : BitVec 3) : Option (Pfx → RM → Instr) := some mk

/-- Digits 4, 5, 7 of the shift opcodes (R80). -/
def shiftDigit {α : Type} (shl shr sar : α) (b : BitVec 3) : Option α :=
  match b.toNat with
  | 4 => some shl
  | 5 => some shr
  | 7 => some sar
  | _ => none

/-- Digits 3 and 5 of 80, 81, 83 (R80). -/
def arithDigit {α : Type} (sbb sub : α) (b : BitVec 3) : Option α :=
  match b.toNat with
  | 3 => some sbb
  | 5 => some sub
  | _ => none

/-- Digits 0 and 1 of 0F 00 (R80). -/
def group00Digit (b : BitVec 3) : Option (Pfx → RM → Instr) :=
  match b.toNat with
  | 0 => some .sldt
  | 1 => some .str
  | _ => none

/-- Digits 0, 1 and 4 of 0F 01 (R80). -/
def group01Digit (b : BitVec 3) : Option (Pfx → RM → Instr) :=
  match b.toNat with
  | 0 => some .sgdt
  | 1 => some .sidt
  | 4 => some .smsw
  | _ => none

/-- The two-byte opcodes of R91, after the escape 0F. -/
def decode0F (d : Size) (x : Prefixes) (op : Byte) (bs : List Byte) : Dec (Instr × List Byte) :=
  match op.toNat with
  | 0x00 => decRM d x bs group00Digit
  | 0x01 => decRM d x bs group01Digit
  | 0x90 => decRM d x bs (anyReg .seto)
  | 0x91 => decRM d x bs (anyReg .setno)
  | 0x92 => decRM d x bs (anyReg .setb)
  | 0x93 => decRM d x bs (anyReg .setae)
  | 0x94 => decRM d x bs (anyReg .sete)
  | 0x95 => decRM d x bs (anyReg .setne)
  | 0x96 => decRM d x bs (anyReg .setbe)
  | 0x97 => decRM d x bs (anyReg .seta)
  | 0x98 => decRM d x bs (anyReg .sets)
  | 0x99 => decRM d x bs (anyReg .setns)
  | 0x9A => decRM d x bs (anyReg .setp)
  | 0x9B => decRM d x bs (anyReg .setnp)
  | 0x9C => decRM d x bs (anyReg .setl)
  | 0x9D => decRM d x bs (anyReg .setge)
  | 0x9E => decRM d x bs (anyReg .setle)
  | 0x9F => decRM d x bs (anyReg .setg)
  | 0xA4 => decRMImm d x bs takeByte (slashRImm (bySize d x .shldRm16R16Imm8 .shldRm32R32Imm8))
  | 0xA5 => decRM d x bs (slashR (bySize d x .shldRm16R16Cl .shldRm32R32Cl))
  | 0xAC => decRMImm d x bs takeByte (slashRImm (bySize d x .shrdRm16R16Imm8 .shrdRm32R32Imm8))
  | 0xAD => decRM d x bs (slashR (bySize d x .shrdRm16R16Cl .shrdRm32R32Cl))
  | _ => .error .outOfScope

/-- The one-byte opcodes of R91, and the escape to the two-byte ones. -/
def decodeOp (d : Size) (x : Prefixes) (op : Byte) (bs : List Byte) : Dec (Instr × List Byte) :=
  match op.toNat with
  | 0x0F => do
    let (op2, bs) ← takeByte bs
    decode0F d x op2 bs
  | 0x18 => decRM d x bs (slashR .sbbRm8R8)
  | 0x19 => decRM d x bs (slashR (bySize d x .sbbRm16R16 .sbbRm32R32))
  | 0x1A => decRM d x bs (slashR .sbbR8Rm8)
  | 0x1B => decRM d x bs (slashR (bySize d x .sbbR16Rm16 .sbbR32Rm32))
  | 0x1C => decAcc x bs takeByte .sbbAlImm8
  | 0x1D => bySize d x (decAcc x bs takeWord .sbbAxImm16) (decAcc x bs takeDWord .sbbEaxImm32)
  | 0x28 => decRM d x bs (slashR .subRm8R8)
  | 0x29 => decRM d x bs (slashR (bySize d x .subRm16R16 .subRm32R32))
  | 0x2A => decRM d x bs (slashR .subR8Rm8)
  | 0x2B => decRM d x bs (slashR (bySize d x .subR16Rm16 .subR32Rm32))
  | 0x2C => decAcc x bs takeByte .subAlImm8
  | 0x2D => bySize d x (decAcc x bs takeWord .subAxImm16) (decAcc x bs takeDWord .subEaxImm32)
  | 0x80 => decRMImm d x bs takeByte (arithDigit .sbbRm8Imm8 .subRm8Imm8)
  | 0x81 => bySize d x
      (decRMImm d x bs takeWord (arithDigit .sbbRm16Imm16 .subRm16Imm16))
      (decRMImm d x bs takeDWord (arithDigit .sbbRm32Imm32 .subRm32Imm32))
  | 0x83 => decRMImm d x bs takeByte
      (arithDigit (bySize d x .sbbRm16Imm8 .sbbRm32Imm8) (bySize d x .subRm16Imm8 .subRm32Imm8))
  | 0x9E => decPlain x bs .sahf
  | 0xAA => decStos x bs .stosb
  | 0xAB => decStos x bs (bySize d x .stosw .stosd)
  | 0xAE => decScas x bs .scasb
  | 0xAF => decScas x bs (bySize d x .scasw .scasd)
  | 0xC0 => decRMImm d x bs takeByte (shiftDigit .shlRm8Imm8 .shrRm8Imm8 .sarRm8Imm8)
  | 0xC1 => decRMImm d x bs takeByte (shiftDigit (bySize d x .shlRm16Imm8 .shlRm32Imm8)
      (bySize d x .shrRm16Imm8 .shrRm32Imm8) (bySize d x .sarRm16Imm8 .sarRm32Imm8))
  | 0xD0 => decRM d x bs (shiftDigit .shlRm8One .shrRm8One .sarRm8One)
  | 0xD1 => decRM d x bs (shiftDigit (bySize d x .shlRm16One .shlRm32One)
      (bySize d x .shrRm16One .shrRm32One) (bySize d x .sarRm16One .sarRm32One))
  | 0xD2 => decRM d x bs (shiftDigit .shlRm8Cl .shrRm8Cl .sarRm8Cl)
  | 0xD3 => decRM d x bs (shiftDigit (bySize d x .shlRm16Cl .shlRm32Cl)
      (bySize d x .shrRm16Cl .shrRm32Cl) (bySize d x .sarRm16Cl .sarRm32Cl))
  | 0xF9 => decPlain x bs .stc
  | 0xFB => decPlain x bs .sti
  | 0xFD => decPlain x bs .std
  | _ => .error .outOfScope

/-- The decoder of R99 under DefaultSize `d`: the instruction and the bytes after it. Its step 9 (the
`#UD` of R92) is the meaning of the instruction, its step 10 the fetch (Machine/Fetch.lean). -/
def decode (d : Size) (bs : List Byte) : Dec (Instr × List Byte) := do
  let (x, bs) ← readPrefixes Prefixes.empty bs
  let (op, bs) ← takeByte bs
  decodeOp d x op bs

/-! ### The encoder -/

/-- mod and the displacement bytes of a 16-bit form with a register part (R82). -/
def Disp16.enc : Disp16 → BitVec 2 × List Byte
  | .none => (0#2, [])
  | .d8 v => (1#2, [v])
  | .d16 v => (2#2, wordBytes v)

/-- mod and the displacement bytes of a 32-bit form with a base register (R83). -/
def Disp32.enc : Disp32 → BitVec 2 × List Byte
  | .none => (0#2, [])
  | .d8 v => (1#2, [v])
  | .d32 v => (2#2, dwordBytes v)

/-- SIB bits 7:6 and 5:3 of an index (R83). -/
def indexBits : Option (RegNo × Scale) → BitVec 2 × BitVec 3
  | none => (0#2, 4#3)
  | some (r, s) => (s.toBits, r.toBits)

/-- The ModRM byte with reg field `reg`, and the SIB and displacement bytes, of an r/m operand
(R79 to R83). -/
def RM.enc (reg : BitVec 3) : RM → List Byte
  | .reg n => [fieldsByte 3#2 reg n.toBits]
  | .mem ⟨_, .a16 (.direct v)⟩ => fieldsByte 0#2 reg 6#3 :: wordBytes v
  | .mem ⟨_, .a16 (.based b x)⟩ => fieldsByte x.enc.1 reg b.toBits :: x.enc.2
  | .mem ⟨_, .a32 (.direct v)⟩ => fieldsByte 0#2 reg 5#3 :: dwordBytes v
  | .mem ⟨_, .a32 (.based b x)⟩ => fieldsByte x.enc.1 reg b.toBits :: x.enc.2
  | .mem ⟨_, .a32 (.sib b i x)⟩ =>
    fieldsByte x.enc.1 reg 4#3 :: fieldsByte (indexBits i).1 (indexBits i).2 b.toBits :: x.enc.2
  | .mem ⟨_, .a32 (.sibDirect i v)⟩ =>
    fieldsByte 0#2 reg 4#3 :: fieldsByte (indexBits i).1 (indexBits i).2 5#3 :: dwordBytes v

/-- The override prefix of an r/m operand. -/
def RM.override : RM → Option SegName
  | .reg _ => none
  | .mem m => m.seg

/-- The parts of an instruction's encoding (R70). -/
structure Encoding where
  pfx : Pfx
  rep : Option RepCond := none
  opcode : List Byte
  modrm : Option (BitVec 3 × RM) := none
  imm : List Byte := []
  deriving DecidableEq, Repr

/-- The prefix bytes in the encoder's order: 66, 67, override, repeat (R73: any order is allowed). -/
def Encoding.prefixBytes (e : Encoding) : List Byte :=
  (if e.pfx.opSize then [0x66#8] else []) ++ (if e.pfx.addrSize then [0x67#8] else [])
    ++ (match e.modrm.bind (·.2.override) with | some r => [r.overrideByte] | none => [])
    ++ (match e.rep with | some c => [c.prefixByte] | none => [])

/-- The ModRM, SIB and displacement bytes. -/
def Encoding.modrmBytes (e : Encoding) : List Byte :=
  match e.modrm with
  | some (reg, rm) => rm.enc reg
  | none => []

/-- The bytes of an encoding in the order of R70. -/
def Encoding.bytes (e : Encoding) : List Byte :=
  e.prefixBytes ++ e.opcode ++ e.modrmBytes ++ e.imm

/-- REP before STOS is F3 (R76). -/
def stosRep (rep : Bool) : Option RepCond := if rep then some .repe else none

/-- The encoding of every instruction: opcode, ModRM.reg and immediate of its row of R91. -/
def Instr.encoding : Instr → Encoding
  | .sahf p =>
    { pfx := p, opcode := [0x9E#8] }
  | .salRm8One p rm =>
    { pfx := p, opcode := [0xD0#8], modrm := some (4#3, rm) }
  | .salRm8Cl p rm =>
    { pfx := p, opcode := [0xD2#8], modrm := some (4#3, rm) }
  | .salRm8Imm8 p rm imm =>
    { pfx := p, opcode := [0xC0#8], modrm := some (4#3, rm), imm := [imm] }
  | .salRm16One p rm =>
    { pfx := p, opcode := [0xD1#8], modrm := some (4#3, rm) }
  | .salRm16Cl p rm =>
    { pfx := p, opcode := [0xD3#8], modrm := some (4#3, rm) }
  | .salRm16Imm8 p rm imm =>
    { pfx := p, opcode := [0xC1#8], modrm := some (4#3, rm), imm := [imm] }
  | .salRm32One p rm =>
    { pfx := p, opcode := [0xD1#8], modrm := some (4#3, rm) }
  | .salRm32Cl p rm =>
    { pfx := p, opcode := [0xD3#8], modrm := some (4#3, rm) }
  | .salRm32Imm8 p rm imm =>
    { pfx := p, opcode := [0xC1#8], modrm := some (4#3, rm), imm := [imm] }
  | .sarRm8One p rm =>
    { pfx := p, opcode := [0xD0#8], modrm := some (7#3, rm) }
  | .sarRm8Cl p rm =>
    { pfx := p, opcode := [0xD2#8], modrm := some (7#3, rm) }
  | .sarRm8Imm8 p rm imm =>
    { pfx := p, opcode := [0xC0#8], modrm := some (7#3, rm), imm := [imm] }
  | .sarRm16One p rm =>
    { pfx := p, opcode := [0xD1#8], modrm := some (7#3, rm) }
  | .sarRm16Cl p rm =>
    { pfx := p, opcode := [0xD3#8], modrm := some (7#3, rm) }
  | .sarRm16Imm8 p rm imm =>
    { pfx := p, opcode := [0xC1#8], modrm := some (7#3, rm), imm := [imm] }
  | .sarRm32One p rm =>
    { pfx := p, opcode := [0xD1#8], modrm := some (7#3, rm) }
  | .sarRm32Cl p rm =>
    { pfx := p, opcode := [0xD3#8], modrm := some (7#3, rm) }
  | .sarRm32Imm8 p rm imm =>
    { pfx := p, opcode := [0xC1#8], modrm := some (7#3, rm), imm := [imm] }
  | .shlRm8One p rm =>
    { pfx := p, opcode := [0xD0#8], modrm := some (4#3, rm) }
  | .shlRm8Cl p rm =>
    { pfx := p, opcode := [0xD2#8], modrm := some (4#3, rm) }
  | .shlRm8Imm8 p rm imm =>
    { pfx := p, opcode := [0xC0#8], modrm := some (4#3, rm), imm := [imm] }
  | .shlRm16One p rm =>
    { pfx := p, opcode := [0xD1#8], modrm := some (4#3, rm) }
  | .shlRm16Cl p rm =>
    { pfx := p, opcode := [0xD3#8], modrm := some (4#3, rm) }
  | .shlRm16Imm8 p rm imm =>
    { pfx := p, opcode := [0xC1#8], modrm := some (4#3, rm), imm := [imm] }
  | .shlRm32One p rm =>
    { pfx := p, opcode := [0xD1#8], modrm := some (4#3, rm) }
  | .shlRm32Cl p rm =>
    { pfx := p, opcode := [0xD3#8], modrm := some (4#3, rm) }
  | .shlRm32Imm8 p rm imm =>
    { pfx := p, opcode := [0xC1#8], modrm := some (4#3, rm), imm := [imm] }
  | .shrRm8One p rm =>
    { pfx := p, opcode := [0xD0#8], modrm := some (5#3, rm) }
  | .shrRm8Cl p rm =>
    { pfx := p, opcode := [0xD2#8], modrm := some (5#3, rm) }
  | .shrRm8Imm8 p rm imm =>
    { pfx := p, opcode := [0xC0#8], modrm := some (5#3, rm), imm := [imm] }
  | .shrRm16One p rm =>
    { pfx := p, opcode := [0xD1#8], modrm := some (5#3, rm) }
  | .shrRm16Cl p rm =>
    { pfx := p, opcode := [0xD3#8], modrm := some (5#3, rm) }
  | .shrRm16Imm8 p rm imm =>
    { pfx := p, opcode := [0xC1#8], modrm := some (5#3, rm), imm := [imm] }
  | .shrRm32One p rm =>
    { pfx := p, opcode := [0xD1#8], modrm := some (5#3, rm) }
  | .shrRm32Cl p rm =>
    { pfx := p, opcode := [0xD3#8], modrm := some (5#3, rm) }
  | .shrRm32Imm8 p rm imm =>
    { pfx := p, opcode := [0xC1#8], modrm := some (5#3, rm), imm := [imm] }
  | .sbbAlImm8 p imm =>
    { pfx := p, opcode := [0x1C#8], imm := [imm] }
  | .sbbAxImm16 p imm =>
    { pfx := p, opcode := [0x1D#8], imm := wordBytes imm }
  | .sbbEaxImm32 p imm =>
    { pfx := p, opcode := [0x1D#8], imm := dwordBytes imm }
  | .sbbRm8Imm8 p rm imm =>
    { pfx := p, opcode := [0x80#8], modrm := some (3#3, rm), imm := [imm] }
  | .sbbRm16Imm16 p rm imm =>
    { pfx := p, opcode := [0x81#8], modrm := some (3#3, rm), imm := wordBytes imm }
  | .sbbRm32Imm32 p rm imm =>
    { pfx := p, opcode := [0x81#8], modrm := some (3#3, rm), imm := dwordBytes imm }
  | .sbbRm16Imm8 p rm imm =>
    { pfx := p, opcode := [0x83#8], modrm := some (3#3, rm), imm := [imm] }
  | .sbbRm32Imm8 p rm imm =>
    { pfx := p, opcode := [0x83#8], modrm := some (3#3, rm), imm := [imm] }
  | .sbbRm8R8 p rm r =>
    { pfx := p, opcode := [0x18#8], modrm := some (r.toBits, rm) }
  | .sbbRm16R16 p rm r =>
    { pfx := p, opcode := [0x19#8], modrm := some (r.toBits, rm) }
  | .sbbRm32R32 p rm r =>
    { pfx := p, opcode := [0x19#8], modrm := some (r.toBits, rm) }
  | .sbbR8Rm8 p rm r =>
    { pfx := p, opcode := [0x1A#8], modrm := some (r.toBits, rm) }
  | .sbbR16Rm16 p rm r =>
    { pfx := p, opcode := [0x1B#8], modrm := some (r.toBits, rm) }
  | .sbbR32Rm32 p rm r =>
    { pfx := p, opcode := [0x1B#8], modrm := some (r.toBits, rm) }
  | .scasM8 p rep =>
    { pfx := p, rep := rep, opcode := [0xAE#8] }
  | .scasM16 p rep =>
    { pfx := p, rep := rep, opcode := [0xAF#8] }
  | .scasM32 p rep =>
    { pfx := p, rep := rep, opcode := [0xAF#8] }
  | .scasb p rep =>
    { pfx := p, rep := rep, opcode := [0xAE#8] }
  | .scasw p rep =>
    { pfx := p, rep := rep, opcode := [0xAF#8] }
  | .scasd p rep =>
    { pfx := p, rep := rep, opcode := [0xAF#8] }
  | .seta p rm =>
    { pfx := p, opcode := [0x0F#8, 0x97#8], modrm := some (0#3, rm) }
  | .setae p rm =>
    { pfx := p, opcode := [0x0F#8, 0x93#8], modrm := some (0#3, rm) }
  | .setb p rm =>
    { pfx := p, opcode := [0x0F#8, 0x92#8], modrm := some (0#3, rm) }
  | .setbe p rm =>
    { pfx := p, opcode := [0x0F#8, 0x96#8], modrm := some (0#3, rm) }
  | .setc p rm =>
    { pfx := p, opcode := [0x0F#8, 0x92#8], modrm := some (0#3, rm) }
  | .sete p rm =>
    { pfx := p, opcode := [0x0F#8, 0x94#8], modrm := some (0#3, rm) }
  | .setg p rm =>
    { pfx := p, opcode := [0x0F#8, 0x9F#8], modrm := some (0#3, rm) }
  | .setge p rm =>
    { pfx := p, opcode := [0x0F#8, 0x9D#8], modrm := some (0#3, rm) }
  | .setl p rm =>
    { pfx := p, opcode := [0x0F#8, 0x9C#8], modrm := some (0#3, rm) }
  | .setle p rm =>
    { pfx := p, opcode := [0x0F#8, 0x9E#8], modrm := some (0#3, rm) }
  | .setna p rm =>
    { pfx := p, opcode := [0x0F#8, 0x96#8], modrm := some (0#3, rm) }
  | .setnae p rm =>
    { pfx := p, opcode := [0x0F#8, 0x92#8], modrm := some (0#3, rm) }
  | .setnb p rm =>
    { pfx := p, opcode := [0x0F#8, 0x93#8], modrm := some (0#3, rm) }
  | .setnbe p rm =>
    { pfx := p, opcode := [0x0F#8, 0x97#8], modrm := some (0#3, rm) }
  | .setnc p rm =>
    { pfx := p, opcode := [0x0F#8, 0x93#8], modrm := some (0#3, rm) }
  | .setne p rm =>
    { pfx := p, opcode := [0x0F#8, 0x95#8], modrm := some (0#3, rm) }
  | .setng p rm =>
    { pfx := p, opcode := [0x0F#8, 0x9E#8], modrm := some (0#3, rm) }
  | .setnge p rm =>
    { pfx := p, opcode := [0x0F#8, 0x9C#8], modrm := some (0#3, rm) }
  | .setnl p rm =>
    { pfx := p, opcode := [0x0F#8, 0x9D#8], modrm := some (0#3, rm) }
  | .setnle p rm =>
    { pfx := p, opcode := [0x0F#8, 0x9F#8], modrm := some (0#3, rm) }
  | .setno p rm =>
    { pfx := p, opcode := [0x0F#8, 0x91#8], modrm := some (0#3, rm) }
  | .setnp p rm =>
    { pfx := p, opcode := [0x0F#8, 0x9B#8], modrm := some (0#3, rm) }
  | .setns p rm =>
    { pfx := p, opcode := [0x0F#8, 0x99#8], modrm := some (0#3, rm) }
  | .setnz p rm =>
    { pfx := p, opcode := [0x0F#8, 0x95#8], modrm := some (0#3, rm) }
  | .seto p rm =>
    { pfx := p, opcode := [0x0F#8, 0x90#8], modrm := some (0#3, rm) }
  | .setp p rm =>
    { pfx := p, opcode := [0x0F#8, 0x9A#8], modrm := some (0#3, rm) }
  | .setpe p rm =>
    { pfx := p, opcode := [0x0F#8, 0x9A#8], modrm := some (0#3, rm) }
  | .setpo p rm =>
    { pfx := p, opcode := [0x0F#8, 0x9B#8], modrm := some (0#3, rm) }
  | .sets p rm =>
    { pfx := p, opcode := [0x0F#8, 0x98#8], modrm := some (0#3, rm) }
  | .setz p rm =>
    { pfx := p, opcode := [0x0F#8, 0x94#8], modrm := some (0#3, rm) }
  | .sgdt p rm =>
    { pfx := p, opcode := [0x0F#8, 0x01#8], modrm := some (0#3, rm) }
  | .sidt p rm =>
    { pfx := p, opcode := [0x0F#8, 0x01#8], modrm := some (1#3, rm) }
  | .shldRm16R16Imm8 p rm r imm =>
    { pfx := p, opcode := [0x0F#8, 0xA4#8], modrm := some (r.toBits, rm), imm := [imm] }
  | .shldRm32R32Imm8 p rm r imm =>
    { pfx := p, opcode := [0x0F#8, 0xA4#8], modrm := some (r.toBits, rm), imm := [imm] }
  | .shldRm16R16Cl p rm r =>
    { pfx := p, opcode := [0x0F#8, 0xA5#8], modrm := some (r.toBits, rm) }
  | .shldRm32R32Cl p rm r =>
    { pfx := p, opcode := [0x0F#8, 0xA5#8], modrm := some (r.toBits, rm) }
  | .shrdRm16R16Imm8 p rm r imm =>
    { pfx := p, opcode := [0x0F#8, 0xAC#8], modrm := some (r.toBits, rm), imm := [imm] }
  | .shrdRm32R32Imm8 p rm r imm =>
    { pfx := p, opcode := [0x0F#8, 0xAC#8], modrm := some (r.toBits, rm), imm := [imm] }
  | .shrdRm16R16Cl p rm r =>
    { pfx := p, opcode := [0x0F#8, 0xAD#8], modrm := some (r.toBits, rm) }
  | .shrdRm32R32Cl p rm r =>
    { pfx := p, opcode := [0x0F#8, 0xAD#8], modrm := some (r.toBits, rm) }
  | .sldt p rm =>
    { pfx := p, opcode := [0x0F#8, 0x00#8], modrm := some (0#3, rm) }
  | .smsw p rm =>
    { pfx := p, opcode := [0x0F#8, 0x01#8], modrm := some (4#3, rm) }
  | .stc p =>
    { pfx := p, opcode := [0xF9#8] }
  | .std p =>
    { pfx := p, opcode := [0xFD#8] }
  | .sti p =>
    { pfx := p, opcode := [0xFB#8] }
  | .stosM8 p rep =>
    { pfx := p, rep := stosRep rep, opcode := [0xAA#8] }
  | .stosM16 p rep =>
    { pfx := p, rep := stosRep rep, opcode := [0xAB#8] }
  | .stosM32 p rep =>
    { pfx := p, rep := stosRep rep, opcode := [0xAB#8] }
  | .stosb p rep =>
    { pfx := p, rep := stosRep rep, opcode := [0xAA#8] }
  | .stosw p rep =>
    { pfx := p, rep := stosRep rep, opcode := [0xAB#8] }
  | .stosd p rep =>
    { pfx := p, rep := stosRep rep, opcode := [0xAB#8] }
  | .str p rm =>
    { pfx := p, opcode := [0x0F#8, 0x00#8], modrm := some (1#3, rm) }
  | .subAlImm8 p imm =>
    { pfx := p, opcode := [0x2C#8], imm := [imm] }
  | .subAxImm16 p imm =>
    { pfx := p, opcode := [0x2D#8], imm := wordBytes imm }
  | .subEaxImm32 p imm =>
    { pfx := p, opcode := [0x2D#8], imm := dwordBytes imm }
  | .subRm8Imm8 p rm imm =>
    { pfx := p, opcode := [0x80#8], modrm := some (5#3, rm), imm := [imm] }
  | .subRm16Imm16 p rm imm =>
    { pfx := p, opcode := [0x81#8], modrm := some (5#3, rm), imm := wordBytes imm }
  | .subRm32Imm32 p rm imm =>
    { pfx := p, opcode := [0x81#8], modrm := some (5#3, rm), imm := dwordBytes imm }
  | .subRm16Imm8 p rm imm =>
    { pfx := p, opcode := [0x83#8], modrm := some (5#3, rm), imm := [imm] }
  | .subRm32Imm8 p rm imm =>
    { pfx := p, opcode := [0x83#8], modrm := some (5#3, rm), imm := [imm] }
  | .subRm8R8 p rm r =>
    { pfx := p, opcode := [0x28#8], modrm := some (r.toBits, rm) }
  | .subRm16R16 p rm r =>
    { pfx := p, opcode := [0x29#8], modrm := some (r.toBits, rm) }
  | .subRm32R32 p rm r =>
    { pfx := p, opcode := [0x29#8], modrm := some (r.toBits, rm) }
  | .subR8Rm8 p rm r =>
    { pfx := p, opcode := [0x2A#8], modrm := some (r.toBits, rm) }
  | .subR16Rm16 p rm r =>
    { pfx := p, opcode := [0x2B#8], modrm := some (r.toBits, rm) }
  | .subR32Rm32 p rm r =>
    { pfx := p, opcode := [0x2B#8], modrm := some (r.toBits, rm) }

/-- The bytes of an instruction: prefixes, opcode, ModRM, SIB, displacement, immediate (R70). -/
def encode (i : Instr) : List Byte := i.encoding.bytes

/-- The length L in bytes, prefixes included (R71). -/
def Instr.length (i : Instr) : Nat := (encode i).length

/-! ### The opcode table's words -/

/-- The longest instruction the decoder can read before it answers: four prefixes, one opcode byte,
ModRM, SIB, disp32 and imm32 (log entry 20). -/
def maxInstrBytes : Nat := 15

/-- The `n` bytes of a number, least significant first: bit 0 of `w` is the least significant bit of the
byte at the lowest address. -/
def numBytes : Nat → Nat → List Byte
  | 0, _ => []
  | n + 1, w => BitVec.ofNat 8 w :: numBytes n (w / 256)

/-- The bytes of an instruction whose first `nbits` bits are `w` and whose later bits are 0. -/
def tableBytes (nbits w : Nat) : List Byte := numBytes maxInstrBytes (w % 2 ^ nbits)

/-- The instruction the decoder reads from the bits `w`, under the DefaultSize of reset (log entry 29). -/
def decodeTableWord (nbits w : Nat) : Option Instr :=
  match decode .s16 (tableBytes nbits w) with
  | .ok (i, _) => some i
  | .error _ => none

end Sys2Proof
end

