-- ==== Sys2Proof/Machine/State.lean ====
section
/-! DEFINITION. The state of the machine as plain data, the reasons a step can stop, and the state after
reset. -/

namespace Sys2Proof.Machine

/-- The eight 32-bit general registers (R11). -/
structure Regs where
  eax : DWord
  ecx : DWord
  edx : DWord
  ebx : DWord
  esp : DWord
  ebp : DWord
  esi : DWord
  edi : DWord
  deriving DecidableEq, Repr

/-- The one-bit fields of the flags register (R15, R16). TF, NT and RF are held because R16 names them;
no in-scope instruction reads or writes them. -/
structure Flags where
  cf : Bool
  pf : Bool
  af : Bool
  zf : Bool
  sf : Bool
  tf : Bool
  /-- IF. -/
  ifl : Bool
  df : Bool
  /-- OF. -/
  ofl : Bool
  nt : Bool
  rf : Bool
  deriving DecidableEq, Repr

/-- What the hidden access rights of a segment register say, as far as the segment check of R50 reads
them. -/
inductive SegKind where
  /-- A null selector, or a descriptor that is not a valid data or code segment. -/
  | unusable
  /-- A code segment; execute-only when not readable. -/
  | code (readable : Bool)
  /-- A data segment; `big` is the B bit, read for an expand-down segment only. -/
  | data (writable expandDown big : Bool)
  deriving DecidableEq, Repr

/-- What SegCheck answers (R48). -/
inductive SegResult where
  | ok | illegal | nonWritable
  deriving DecidableEq, Repr

/-- What one rule of a segment's SegCheck answers, and to which kind of access: `nonWritable` is an answer to
a write only (R48). -/
inductive SegVerdict where
  | read (allowed : Bool)
  | write (r : SegResult)
  deriving DecidableEq, Repr

/-- One rule of the SegCheck a launch gives a segment (R5, R48): the verdict on `bytes`-byte operands at the
offsets `first` to `last`, both included. -/
structure SegRule where
  first : Nat
  last : Nat
  bytes : Nat
  verdict : SegVerdict
  deriving DecidableEq, Repr

/-- A segment register: its selector and its hidden attributes (R21, R47): the base, and what SegCheck reads
in Protected Mode, its own rules, and the limit and access rights of the default of R50 (log entry 6). -/
structure SegReg where
  selector : Word
  base : DWord
  limit : DWord
  kind : SegKind
  rules : List SegRule
  deriving DecidableEq, Repr

/-- The six segment registers (R21). -/
structure SegRegs where
  es : SegReg
  cs : SegReg
  ss : SegReg
  ds : SegReg
  fs : SegReg
  gs : SegReg
  deriving DecidableEq, Repr

/-- A 48-bit BASE/LIMIT register: GDTR, IDTR (R22). -/
structure TableReg where
  limit : Word
  base : DWord
  deriving DecidableEq, Repr

/-- LDTR and TR: a selector with a hidden base and limit (R23, R24). -/
structure SysSegReg where
  selector : Word
  base : DWord
  limit : DWord
  deriving DecidableEq, Repr

/-- The operating modes (R26, R240). -/
inductive Mode where
  | real | prot | v86
  deriving DecidableEq, Repr

/-- The two kinds of access (R48, R52). -/
inductive Access where
  | read | write
  deriving DecidableEq, Repr

/-- The exceptions of the source (R220). -/
inductive Exc where
  /-- `#UD`, "Interrupt 6". -/
  | ud
  /-- "Interrupt 13" of Real Address Mode and Virtual 8086 Mode. -/
  | int13
  /-- `#GP(0)`. -/
  | gp0
  /-- `#SS(0)`. -/
  | ss0
  /-- `#PF(code)`; the code is opaque (R53, D34). -/
  | pf (code : DWord)
  deriving DecidableEq, Repr

/-- The mark `Faulted(X, EIP)` of R232. -/
structure FaultMark where
  exc : Exc
  eip : DWord
  deriving DecidableEq, Repr

/-- The physical memory: the bytes listed, and what an unlisted byte holds (R44: a byte or no value). -/
structure Memory where
  cells : List Host.Cell
  fill : Option Byte
  deriving DecidableEq, Repr

/-- The addresses `first` to `last`, both included. -/
structure AddrRange where
  first : Nat
  last : Nat
  deriving DecidableEq, Repr

/-- What PageXlate answers for a linear byte address (R52). -/
inductive Xlate where
  /-- The physical address of the range's first byte. -/
  | phys (base : DWord)
  /-- A page fault with this code. -/
  | fault (code : DWord)
  deriving DecidableEq, Repr

/-- One entry of the table that holds PageXlate (R52): the linear addresses `first` to `last` accessed
as `kind` at privilege level `cpl`. -/
structure XlateEntry where
  first : DWord
  last : DWord
  kind : Access
  cpl : BitVec 2
  result : Xlate
  deriving DecidableEq, Repr

/-- The parameter SGDT16_TOP (R5, R172): a byte value, or `draw`. -/
inductive Sgdt16Top where
  | byte (b : Byte)
  | draw
  deriving DecidableEq, Repr

/-- The state: the registers and memory the rules name (R10), the launch fields that stay as they are
for the run (R5, R260), and the model's own two: whether EIP has wrapped, and the counter of draws. -/
structure State where
  /-- EAX to EDI (R11). -/
  regs : Regs
  /-- EIP (R14). -/
  eip : DWord
  /-- The flags (R15, R16). -/
  flags : Flags
  /-- IOPL (R16, R26). -/
  iopl : BitVec 2
  /-- CS, DS, ES, FS, GS, SS (R21). -/
  segs : SegRegs
  /-- GDTR (R22). -/
  gdtr : TableReg
  /-- IDTR (R22). -/
  idtr : TableReg
  /-- LDTR (R23). -/
  ldtr : SysSegReg
  /-- TR (R24). -/
  tr : SysSegReg
  /-- CR0, whose low half is the MSW (R25); unconstrained, Mode is not derived from it (log entry 33). -/
  cr0 : DWord
  /-- CPL (R26); a launch field of its own, not derived from the CS selector (log entry 34). -/
  cpl : BitVec 2
  /-- Mode (R26, R240). -/
  mode : Mode
  /-- IntInhibit (R27, R196). -/
  intInhibit : Bool
  /-- The mark Faulted(X, EIP) (R232). -/
  faulted : Option FaultMark
  /-- Physical memory (R40, R44). -/
  mem : Memory
  /-- The physical addresses that hold memory (R44). -/
  allocated : List AddrRange
  /-- DefaultSize (R5, R75). -/
  defaultSize : Size
  /-- PageXlate, as a table; the first entry that applies decides, and with none it is the identity
  (R52). -/
  pages : List XlateEntry
  /-- SGDT16_TOP (R5, R172). -/
  sgdt16Top : Sgdt16Top
  /-- CodeRegion as the refusal of stores reads it: the physical addresses of the program's bytes (R61). A
  launch makes it agree with Start and End (log entry 31). -/
  codeRegion : List AddrRange
  /-- Start: the CS offset of the program's first byte (R264, log entry 31). -/
  codeStart : Nat
  /-- End: the CS offset after the program's last byte (R264, log entry 31). -/
  codeEnd : Nat
  /-- The model's own: whether EIP has wrapped past the end of the offset range (R14), which the end of a run
  reads so that EIP only ever moves forward (R264, R266; log entry 15). -/
  wrapped : Bool
  /-- The model's own: how many draws have been taken (R7, log entry 11). -/
  draws : Nat
  deriving DecidableEq, Repr

/-- Why the machine stops. -/
inductive Fault where
  /-- Raised by `step` in a state that carries the mark Faulted(X, EIP): no further step is taken
  (R232). Safe. -/
  | afterException (x : Exc) (eip : DWord)
  /-- Raised by `step` when EIP = End, or has wrapped to it: the run has ended, in a final state (R264). Not an error. Safe. -/
  | endOfRun
  /-- Raised by an access to a physical byte that holds no memory: the agent is stuck (R44). Safe. -/
  | unallocated (addr : Nat)
  /-- Raised by a read of a memory byte that holds no value (R30). Safe. -/
  | noValue (addr : Nat)
  deriving DecidableEq, Repr

/-- Why a step has no meaning. -/
inductive Refusal where
  /-- Raised by an arm of `exec` whose instruction has no meaning yet. Safe. -/
  | notModelled (mnemonic : String)
  /-- Raised by the fetch: the bytes are no instruction of this spec (R73, R74, R76, R77, R83, R93).
  Safe. -/
  | undecoded (e : DecodeError)
  /-- Raised by the fetch: a byte of the instruction lies beyond the offset range (R14, D25), or EIP has wrapped
  and the run is not at End (R266, log entry 15). Safe. -/
  | pastOffsetRange
  /-- Raised by the fetch: the instruction does not lie wholly inside CodeRegion (R264, D36). Safe. -/
  | outsideCodeRegion
  /-- Raised by a store one of whose bytes lies in CodeRegion (R61, R273, D8). Safe. -/
  | storeIntoCode (addr : Nat)
  /-- Raised by STI in Virtual 8086 Mode with IOPL below 3 (R197, D27). Safe. -/
  | stiV86Iopl
  deriving DecidableEq, Repr

/-- A segment register at reset: R261's values, and R50's simplest access rights with no rule of its own (log
entries 1, 2). -/
def SegReg.atReset (selector : Word) (base : DWord) : SegReg :=
  ⟨selector, base, 0x0000FFFF#32, .data true false false, []⟩

/-- The machine right after reset. The spec states no reset value (R29, R262) but IntInhibit = 0 and no
fault mark (R260); the others are the family's values that R261 lists (log entry 1, PRESUMED) and,
where it lists none, 0 (log entries 2, 3, 4, 7, 8, 11, 15, DESIGN CHOICE). -/
def State.reset : State where
  regs := ⟨0#32, 0#32, 0x00000300#32, 0#32, 0#32, 0#32, 0#32, 0#32⟩
  eip := 0x0000FFF0#32
  flags := ⟨false, false, false, false, false, false, false, false, false, false, false⟩
  iopl := 0#2
  segs := {
    es := SegReg.atReset 0#16 0#32
    cs := SegReg.atReset 0xF000#16 0xFFFF0000#32
    ss := SegReg.atReset 0#16 0#32
    ds := SegReg.atReset 0#16 0#32
    fs := SegReg.atReset 0#16 0#32
    gs := SegReg.atReset 0#16 0#32 }
  gdtr := ⟨0#16, 0#32⟩
  idtr := ⟨0x03FF#16, 0#32⟩
  ldtr := ⟨0#16, 0#32, 0#32⟩
  tr := ⟨0#16, 0#32, 0#32⟩
  cr0 := 0#32
  cpl := 0#2
  mode := .real
  intInhibit := false
  faulted := none
  mem := ⟨[], some 0#8⟩
  allocated := [⟨0, 0xFFFFFFFF⟩]
  defaultSize := .s16
  pages := []
  sgdt16Top := .byte 0#8
  codeRegion := []
  codeStart := 0xFFF0
  codeEnd := 0xFFF0
  wrapped := false
  draws := 0

end Sys2Proof.Machine
end

