-- ==== Sys2Proof/Machine/Flags.lean ====
section
/-! DEFINITION. Every flag computation of the rules: result flags, subtraction flags, the shifts' result,
carry and overflow, the sixteen conditions. -/

namespace Sys2Proof.Machine

/-- Parity8 (R17): the low eight bits hold an even number of 1 bits. -/
def parity8 {n : Nat} (v : BitVec n) : Bool :=
  ((v.getLsbD 0).toNat + (v.getLsbD 1).toNat + (v.getLsbD 2).toNat + (v.getLsbD 3).toNat
    + (v.getLsbD 4).toNat + (v.getLsbD 5).toNat + (v.getLsbD 6).toNat + (v.getLsbD 7).toNat) % 2 == 0

/-- SetSZP (R17). -/
def Flags.setSZP {n : Nat} (f : Flags) (r : BitVec n) : Flags :=
  { f with sf := r.msb, zf := r == 0#n, pf := parity8 r }

/-- `(a - b - c) mod 2^N` (R18). -/
def subResult {n : Nat} (a b : BitVec n) (c : Bool) : BitVec n :=
  a - b - BitVec.ofNat n c.toNat

/-- SubFlags (R18): the six flags of `a - b - c`. -/
def Flags.setSub {n : Nat} (f : Flags) (a b : BitVec n) (c : Bool) : Flags :=
  { f.setSZP (subResult a b c) with
    cf := decide (a.toNat < b.toNat + c.toNat)
    ofl := ((a ^^^ b) &&& (a ^^^ subResult a b c)).msb
    af := (a ^^^ b ^^^ subResult a b c).getLsbD 4 }

/-- SAHF's load (R110, R16): SF, ZF, AF, PF, CF from bits 7, 6, 4, 2, 0. -/
def Flags.loadAH (f : Flags) (ah : Byte) : Flags :=
  { f with
    sf := ah.getLsbD 7
    zf := ah.getLsbD 6
    af := ah.getLsbD 4
    pf := ah.getLsbD 2
    cf := ah.getLsbD 0 }

/-- The three shift operations; SAL is SHL (R117 to R119). -/
inductive ShiftOp where
  | shl | shr | sar
  deriving DecidableEq, Repr

/-- The result of a shift by COUNT (R117, R118, R119). -/
def ShiftOp.result {n : Nat} (op : ShiftOp) (v : BitVec n) (count : Nat) : BitVec n :=
  match op with
  | .shl => v <<< count
  | .shr => v >>> count
  | .sar => v.sshiftRight count

/-- The last bit shifted out by a shift by COUNT of at least 1 (R117, R118, R119, D33). -/
def ShiftOp.carry {n : Nat} (op : ShiftOp) (v : BitVec n) (count : Nat) : Bool :=
  match op with
  | .shl => if count ≤ n then v.getLsbD (n - count) else false
  | .shr => if count ≤ n then v.getLsbD (count - 1) else false
  | .sar => v.getLsbD (min count n - 1)

/-- OF of a shift by 1 (R116). -/
def ShiftOp.overflow {n : Nat} (op : ShiftOp) (v : BitVec n) : Bool :=
  match op with
  | .shl => (op.result v 1).msb ^^ op.carry v 1
  | .shr => v.msb
  | .sar => false

/-- The two double precision shifts (R179, R182). -/
inductive DShiftOp where
  | shld | shrd
  deriving DecidableEq, Repr

/-- The result of a double shift by s, 0 < s < N (R180, R183). -/
def DShiftOp.result {n : Nat} (op : DShiftOp) (v inBits : BitVec n) (s : Nat) : BitVec n :=
  match op with
  | .shld => (v <<< s) ||| (inBits >>> (n - s))
  | .shrd => (v >>> s) ||| (inBits <<< (n - s))

/-- The last bit shifted out of a double shift by s, 0 < s < N (R179, R182). -/
def DShiftOp.carry {n : Nat} (op : DShiftOp) (v : BitVec n) (s : Nat) : Bool :=
  match op with
  | .shld => v.getLsbD (n - s)
  | .shrd => v.getLsbD (s - 1)

/-- The sixteen conditions of SETcc, under their canonical names (R151, R97). -/
inductive Cond where
  | o | no | b | ae | e | ne | be | a | s | ns | p | np | l | ge | le | g
  deriving DecidableEq, Repr

/-- Whether a condition holds on the flags (R151, C2). -/
def Cond.holds (f : Flags) : Cond → Bool
  | .o => f.ofl
  | .no => !f.ofl
  | .b => f.cf
  | .ae => !f.cf
  | .e => f.zf
  | .ne => !f.zf
  | .be => f.cf || f.zf
  | .a => !f.cf && !f.zf
  | .s => f.sf
  | .ns => !f.sf
  | .p => f.pf
  | .np => !f.pf
  | .l => f.sf != f.ofl
  | .ge => f.sf == f.ofl
  | .le => f.zf || (f.sf != f.ofl)
  | .g => !f.zf && (f.sf == f.ofl)

end Sys2Proof.Machine
end

