-- ==== Sys2Proof/Machine/Ops.lean ====
section
/-! DEFINITION. The operations over registers and memory that every meaning is built from: register
aliasing, physical memory, segment and page checks, the checked access primitives, completing an
instruction, and taking an exception. -/

namespace Sys2Proof.Machine

/-! ### Outcomes of an operation -/

/-- Why an operation of an instruction does not go on: an exception (R7 `raise`), a stop of the model, or
`refuse` (R7). -/
inductive Stop where
  | exc (x : Exc)
  | fault (f : Fault)
  | refuse (r : Refusal)
  deriving DecidableEq, Repr

/-- What an operation answers. -/
abbrev Res (α : Type) := Except Stop α

/-! ### General registers (R11, R12) -/

/-- `reg32[n]`. -/
def Regs.get32 (r : Regs) : RegNo → DWord
  | .n0 => r.eax | .n1 => r.ecx | .n2 => r.edx | .n3 => r.ebx
  | .n4 => r.esp | .n5 => r.ebp | .n6 => r.esi | .n7 => r.edi

/-- `reg32[n] <- v`. -/
def Regs.set32 (r : Regs) (n : RegNo) (v : DWord) : Regs :=
  match n with
  | .n0 => { r with eax := v } | .n1 => { r with ecx := v }
  | .n2 => { r with edx := v } | .n3 => { r with ebx := v }
  | .n4 => { r with esp := v } | .n5 => { r with ebp := v }
  | .n6 => { r with esi := v } | .n7 => { r with edi := v }

/-- The 32-bit register that holds `reg8[n]`: AL, CL, DL, BL, AH, CH, DH, BH lie in EAX to EBX. -/
def byteHome : RegNo → RegNo
  | .n0 => .n0 | .n1 => .n1 | .n2 => .n2 | .n3 => .n3
  | .n4 => .n0 | .n5 => .n1 | .n6 => .n2 | .n7 => .n3

/-- Whether `reg8[n]` is bits 15:8 of its register (AH, CH, DH, BH). -/
def isHighByte : RegNo → Bool
  | .n0 | .n1 | .n2 | .n3 => false
  | .n4 | .n5 | .n6 | .n7 => true

/-- The 32-bit register that `regN[n]` is part of. -/
def regHome (w : Width) (n : RegNo) : RegNo :=
  match w with
  | .w8 => byteHome n
  | .w16 => n
  | .w32 => n

/-- `regN[n]` (R12). -/
def Regs.get (w : Width) (r : Regs) (n : RegNo) : BitVec w.bits :=
  match w with
  | .w8 => (r.get32 (byteHome n)).extractLsb' (if isHighByte n then 8 else 0) 8
  | .w16 => (r.get32 n).extractLsb' 0 16
  | .w32 => r.get32 n

/-- A doubleword with its byte at bits 15:8 or 7:0 replaced (R11). -/
def replaceByte (high : Bool) (x : DWord) (v : Byte) : DWord :=
  if high then x.extractLsb' 16 16 ++ v ++ x.extractLsb' 0 8 else x.extractLsb' 8 24 ++ v

/-- A doubleword with bits 15:0 replaced (R11). -/
def replaceWord (x : DWord) (v : Word) : DWord := x.extractLsb' 16 16 ++ v

/-- `regN[n] <- v`: the other bits of the containing register stay (R11). -/
def Regs.put (w : Width) (r : Regs) (n : RegNo) (v : BitVec w.bits) : Regs :=
  match w, v with
  | .w8, v => r.set32 (byteHome n) (replaceByte (isHighByte n) (r.get32 (byteHome n)) v)
  | .w16, v => r.set32 n (replaceWord (r.get32 n) v)
  | .w32, v => r.set32 n v

/-! ### Physical memory (R44, R45) -/

/-- The byte listed for an address. -/
def findCell : List Host.Cell → Nat → Option Byte
  | [], _ => none
  | (k, b) :: t, a => if k = a then some b else findCell t a

/-- The list with `a` holding `b`, kept in rising order. -/
def insertCell : List Host.Cell → Nat → Byte → List Host.Cell
  | [], a, b => [(a, b)]
  | (k, c) :: t, a, b =>
    if a < k then (a, b) :: (k, c) :: t
    else if a = k then (a, b) :: t
    else (k, c) :: insertCell t a b

/-- The list without an entry for `a`. -/
def eraseCell (m : List Host.Cell) (a : Nat) : List Host.Cell := m.filter fun c => decide (c.1 ≠ a)

/-- What an unlisted address reads as: the launch memory's fill, a byte or no value (R44, log entry 4). -/
def Memory.unlisted (m : Memory) : Option Byte := m.fill

/-- The byte at a physical address, or none where it holds no value (R30, R44). -/
def Memory.read (m : Memory) (a : Nat) : Option Byte :=
  match findCell m.cells a with
  | some b => some b
  | none => m.unlisted

/-- One byte written, keeping the canonical form. -/
def Memory.write (m : Memory) (a : Nat) (b : Byte) : Memory :=
  if m.unlisted = some b then { m with cells := eraseCell m.cells a }
  else { m with cells := insertCell m.cells a b }

/-- The bytes written one after the other. -/
def Memory.writeBytes (m : Memory) : List Nat → List Byte → Memory
  | a :: as, b :: bs => (m.write a b).writeBytes as bs
  | _, _ => m

/-- The canonical form: addresses strictly rising and physical (32 bits, R40), no entry equal to what an
unlisted address reads as. -/
abbrev Memory.wf (m : Memory) : Prop :=
  m.cells.Pairwise (fun x y => x.1 < y.1)
    ∧ (∀ c ∈ m.cells, m.unlisted ≠ some c.2) ∧ ∀ c ∈ m.cells, c.1 < 2 ^ 32

/-- The value of bytes at rising addresses, least significant first (R45 `MemRead`). -/
def leNat : List Byte → Nat
  | [] => 0
  | b :: bs => b.toNat + 256 * leNat bs

/-- Whether an address lies in one of the ranges. -/
def inRanges (rs : List AddrRange) (a : Nat) : Bool :=
  rs.any fun r => decide (r.first ≤ a ∧ a ≤ r.last)

/-! ### Segments (R47 to R50) -/

/-- The segment register of a name (R21). -/
def SegRegs.get (g : SegRegs) : SegName → SegReg
  | .es => g.es | .cs => g.cs | .ss => g.ss | .ds => g.ds | .fs => g.fs | .gs => g.gs

/-- What a verdict says of an access. -/
def SegVerdict.answer (v : SegVerdict) (k : Access) : Option SegResult :=
  match v, k with
  | .read true, .read => some .ok
  | .read false, .read => some .illegal
  | .write r, .write => some r
  | _, _ => none

/-- What a rule says of an access of `n` bytes at `off`; none where the rule is not about it, and where it
would let an operand run past 2^32, which is illegal in every SegCheck (R51). -/
def SegRule.answer (e : SegRule) (off n : Nat) (k : Access) : Option SegResult :=
  if e.first ≤ off ∧ off ≤ e.last ∧ e.bytes = n then
    match e.verdict.answer k with
    | some .ok => if off + n ≤ 2 ^ 32 then some .ok else none
    | r => r
  else none

/-- What the segment's own rules say of an access: the first rule about it decides. -/
def SegReg.ruled (r : SegReg) (off n : Nat) (k : Access) : Option SegResult :=
  r.rules.findSome? fun e => e.answer off n k

/-- The limit lines of R50: the bytes `off` to `off + n - 1` lie inside the segment. A code segment is taken
as expand-up (DEDUCED, log entry 6: R50's limit lines do not name code segments). -/
def SegReg.inLimit (r : SegReg) (off n : Nat) : Bool :=
  match r.kind with
  | .data _ true big =>
    decide (r.limit.toNat < off ∧ off + n - 1 ≤ (if big then 0xFFFFFFFF else 0xFFFF))
  | _ => decide (off + n - 1 ≤ r.limit.toNat ∧ off + n - 1 < 2 ^ 32)

/-- Whether R50 lets the segment be read. -/
def SegKind.readable : SegKind → Bool
  | .unusable => false
  | .code r => r
  | .data _ _ _ => true

/-- Whether R50 lets the segment be written. -/
def SegKind.writable : SegKind → Bool
  | .unusable => false
  | .code _ => false
  | .data w _ _ => w

/-- SegCheck_default in Protected Mode: the lines of R50 in their order. -/
def SegReg.defaultCheck (r : SegReg) (off n : Nat) (k : Access) : SegResult :=
  if r.kind = .unusable then .illegal
  else if k = .read ∧ r.kind.readable = false then .illegal
  else if k = .write ∧ r.kind.writable = false then .nonWritable
  else if r.inLimit off n then .ok else .illegal

/-- SegCheck (R48): the test of R42 in Real Address Mode and Virtual 8086 Mode; in Protected Mode the rules
the launch gave the segment and, where none is about the access, the default of R50 (log entry 6). -/
def segCheck (m : Mode) (r : SegReg) (off n : Nat) (k : Access) : SegResult :=
  match m with
  | .real | .v86 => if off + n - 1 > 0xFFFF then .illegal else .ok
  | .prot => (r.ruled off n k).getD (r.defaultCheck off n k)

/-- From check result to exception (R49). -/
def segExc (m : Mode) (seg : SegName) : SegResult → Option Exc
  | .ok => none
  | .nonWritable => some .gp0
  | .illegal =>
    match m with
    | .real | .v86 => some .int13
    | .prot => if seg = .ss then some .ss0 else some .gp0

/-- The linear address of an offset in a segment (R47). -/
def SegReg.linear (r : SegReg) (off : Nat) : DWord := r.base + BitVec.ofNat 32 off

/-! ### Paging (R52, R53) -/

/-- Whether an entry of the table is about this access. -/
def XlateEntry.applies (e : XlateEntry) (lin : DWord) (k : Access) (cpl : BitVec 2) : Bool :=
  decide (e.first ≤ lin ∧ lin ≤ e.last ∧ e.kind = k ∧ e.cpl = cpl)

/-- PageXlate (R52): the identity in Real Address Mode and where no entry applies. -/
def State.pageXlate (s : State) (lin : DWord) (k : Access) : Xlate :=
  if s.mode = .real then .phys lin
  else
    match s.pages.find? (fun e => e.applies lin k s.cpl) with
    | none => .phys lin
    | some e =>
      match e.result with
      | .phys base => .phys (base + (lin - e.first))
      | .fault code => .fault code

/-- The physical address of the byte at an offset of a segment, or its page fault (R54 to R56). -/
def State.xlateByte (s : State) (seg : SegName) (off : Nat) (k : Access) : Res Nat :=
  match s.pageXlate ((s.segs.get seg).linear off) k with
  | .phys a => .ok a.toNat
  | .fault code => .error (.exc (.pf code))

/-- The physical addresses of the `n` bytes from an offset on, the lowest faulting byte first
(R54 to R56, R229). -/
def State.xlateBytes (s : State) (seg : SegName) (off : Nat) (k : Access) : Nat → Res (List Nat)
  | 0 => .ok []
  | n + 1 => do
    let a ← s.xlateByte seg off k
    let as ← s.xlateBytes seg (off + 1) k n
    .ok (a :: as)

/-! ### Checked access (R54 to R56) -/

/-- The checks of an n-byte access and the physical addresses of its bytes: the segment check, then the
page checks (R54, R56). -/
def State.operandAddrs (s : State) (seg : SegName) (off n : Nat) (k : Access) : Res (List Nat) :=
  match segExc s.mode seg (segCheck s.mode (s.segs.get seg) off n k) with
  | some x => .error (.exc x)
  | none => s.xlateBytes seg off k n

/-- CheckWrite (R56). -/
def State.checkWrite (s : State) (seg : SegName) (off n : Nat) : Res Unit :=
  match s.operandAddrs seg off n .write with
  | .ok _ => .ok ()
  | .error e => .error e

/-- The byte at a physical address: stuck where there is no memory (R44), a fault where it holds no value
(R30). -/
def State.readPhys (s : State) (a : Nat) : Res Byte :=
  if inRanges s.allocated a then
    match s.mem.read a with
    | some b => .ok b
    | none => .error (.fault (.noValue a))
  else .error (.fault (.unallocated a))

/-- The bytes at physical addresses, in order; the first byte that stops decides the stop (DESIGN CHOICE, log
entry 5: no order is given between R44 and R30). -/
def State.readAddrs (s : State) : List Nat → Res (List Byte)
  | [] => .ok []
  | a :: as => do
    let b ← s.readPhys a
    let bs ← s.readAddrs as
    .ok (b :: bs)

/-- ReadSeg (R54) at operand width `w`. -/
def State.readSeg (s : State) (w : Width) (seg : SegName) (off : Nat) : Res (BitVec w.bits) := do
  let as ← s.operandAddrs seg off w.bytes .read
  let bs ← s.readAddrs as
  .ok (BitVec.ofNat w.bits (leNat bs))

/-- Whether the bytes at physical addresses may be stored to: a byte in CodeRegion is refused (R61), a
byte where there is no memory is stuck (R44); log entries 13, 31. -/
def State.checkStore (s : State) (as : List Nat) : Res Unit :=
  match as.find? (inRanges s.codeRegion) with
  | some a => .error (.refuse (.storeIntoCode a))
  | none =>
    match as.find? (fun a => !inRanges s.allocated a) with
    | some a => .error (.fault (.unallocated a))
    | none => .ok ()

/-- The physical addresses an n-byte store goes to, after all its checks (R55, R61). -/
def State.storeAddrs (s : State) (seg : SegName) (off n : Nat) : Res (List Nat) := do
  let as ← s.operandAddrs seg off n .write
  s.checkStore as
  .ok as

/-- The low bytes of `v` stored at physical addresses, least significant first (R45 `MemWrite`). -/
def State.storeAt (s : State) (as : List Nat) (v : Nat) : State :=
  { s with mem := s.mem.writeBytes as (numBytes as.length v) }

/-- WriteSeg (R55) of `n` bytes. -/
def State.writeSeg (s : State) (seg : SegName) (off n v : Nat) : Res State := do
  let as ← s.storeAddrs seg off n
  .ok (s.storeAt as v)

/-! ### Completing an instruction (R14) -/

/-- 2^16 or 2^32: where EIP wraps under DefaultSize (R14). -/
def offsetSpan : Size → Nat
  | .s16 => 2 ^ 16
  | .s32 => 2 ^ 32

/-- `EIP + L`, mod 2^16 or 2^32 by DefaultSize (R14, D25). -/
def State.nextEip (s : State) (len : Nat) : DWord :=
  BitVec.ofNat 32 ((s.eip.toNat + len) % offsetSpan s.defaultSize)

/-- Whether moving EIP by `len` wraps it (R14). -/
def State.wraps (s : State) (len : Nat) : Bool := decide (offsetSpan s.defaultSize ≤ s.eip.toNat + len)

/-- How far the run is, as the CS offset R264 compares with End: EIP, and past the end of the offset range
once EIP has wrapped, so that it only ever moves forward (R264, R266; DEDUCED, log entry 15). -/
def State.nextOffset (s : State) : Nat :=
  s.eip.toNat + if s.wrapped then offsetSpan s.defaultSize else 0

/-- An instruction of `len` bytes completes: EIP moves past it (R14) and IntInhibit is cleared (R196). -/
def State.complete (s : State) (len : Nat) : State :=
  { s with eip := s.nextEip len, wrapped := s.wrapped || s.wraps len, intInhibit := false }

/-! ### Exceptions (R232) -/

/-- The mark of R232: every register, flag, system register, memory byte and EIP as before, the state
marked Faulted(X, EIP). -/
def State.markFaulted (s : State) (x : Exc) : State :=
  { s with faulted := some ⟨x, s.eip⟩ }

/-- Taking an exception: the mark of R232, and IntInhibit cleared because the instruction faults (R196).
There is no handler and no return (R232, R234). Log entries 9 and 10. -/
def State.takeException (s : State) (x : Exc) : State :=
  { s.markFaulted x with intInhibit := false }

/-- The outcome of an instruction executed in `s`. -/
def settle (s : State) : Res State → Host.Outcome State Fault Refusal
  | .ok t => .next t
  | .error (.exc x) => .next (s.takeException x)
  | .error (.fault f) => .fault f
  | .error (.refuse r) => .refused r

/-- The vector numbers of R221. -/
def Exc.vector : Exc → Nat
  | .ud => 6
  | .ss0 => 12
  | .gp0 => 13
  | .int13 => 13
  | .pf _ => 14

/-- The error code an exception carries (R220, R231). -/
def Exc.errorCode : Exc → Option DWord
  | .ud => none
  | .int13 => none
  | .gp0 => some 0#32
  | .ss0 => some 0#32
  | .pf code => some code

/-- R196: whether an external interrupt may be recognised at the instruction boundary before the next
fetch. The model has no agent that sends one (R236). -/
def State.mayTakeExternalInterrupt (s : State) : Bool := s.flags.ifl && !s.intInhibit

end Sys2Proof.Machine
end

