-- ==== Sys2Proof/Machine/Operands.lean ====
section
/-! DEFINITION. Every operand form: effective addresses and their segments, the r/m operand, the shift
count, the string index and count registers. -/

namespace Sys2Proof.Machine

/-! ### Effective addresses (R82 to R86) -/

/-- A register read as a 16-bit value (R84). -/
def Regs.word (r : Regs) (n : RegNo) : Word := r.get .w16 n

/-- The sum of the registers of a 16-bit form (R82, R84). -/
def base16Value (r : Regs) : Base16 → Word
  | .bxsi => r.word .n3 + r.word .n6
  | .bxdi => r.word .n3 + r.word .n7
  | .bpsi => r.word .n5 + r.word .n6
  | .bpdi => r.word .n5 + r.word .n7
  | .si => r.word .n6
  | .di => r.word .n7
  | .bp => r.word .n5
  | .bx => r.word .n3

/-- A 16-bit form's displacement, an absent one 0, disp8 sign-extended (R82). -/
def disp16Value : Disp16 → Word
  | .none => 0#16
  | .d8 v => v.signExtend 16
  | .d16 v => v

/-- A 32-bit form's displacement, an absent one 0, disp8 sign-extended (R83). -/
def disp32Value : Disp32 → DWord
  | .none => 0#32
  | .d8 v => v.signExtend 32
  | .d32 v => v

/-- The effective address of a 16-bit form, mod 2^16 (R84). -/
def ea16 (r : Regs) : Addr16 → Word
  | .based b d => base16Value r b + disp16Value d
  | .direct d => d

/-- 2^scale (R83). -/
def scaleFactor : Scale → DWord
  | .x1 => 1#32
  | .x2 => 2#32
  | .x4 => 4#32
  | .x8 => 8#32

/-- The index term of a SIB form, an absent one 0 (R85). -/
def indexValue (r : Regs) : Option (RegNo × Scale) → DWord
  | none => 0#32
  | some (n, s) => r.get32 n * scaleFactor s

/-- The effective address of a 32-bit form, mod 2^32 (R85). -/
def ea32 (r : Regs) : Addr32 → DWord
  | .based b d => r.get32 b + disp32Value d
  | .direct d => d
  | .sib b i d => r.get32 b + indexValue r i + disp32Value d
  | .sibDirect i d => indexValue r i + d

/-- The effective address as an offset (R51). -/
def eaOffset (r : Regs) : Addr → Nat
  | .a16 x => (ea16 r x).toNat
  | .a32 x => (ea32 r x).toNat

/-- The default segment of a 16-bit form: SS when the base is BP (R82). -/
def defaultSeg16 : Addr16 → SegName
  | .based .bpsi _ => .ss
  | .based .bpdi _ => .ss
  | .based .bp _ => .ss
  | .based _ _ => .ds
  | .direct _ => .ds

/-- SS when a base register is ESP or EBP, else DS (R83). -/
def baseSeg : RegNo → SegName
  | .n4 => .ss
  | .n5 => .ss
  | _ => .ds

/-- The default segment of a 32-bit form; the index never affects it (R83). -/
def defaultSeg32 : Addr32 → SegName
  | .based b _ => baseSeg b
  | .direct _ => .ds
  | .sib b _ _ => baseSeg b
  | .sibDirect _ _ => .ds

/-- The default segment of an addressing form (R82, R83). -/
def defaultSeg : Addr → SegName
  | .a16 x => defaultSeg16 x
  | .a32 x => defaultSeg32 x

/-- The segment of a ModRM memory operand: the override, else the default (R74, R86). -/
def memSegment (m : MemOp) : SegName :=
  match m.seg with
  | some g => g
  | none => defaultSeg m.addr

/-- The offset of a ModRM memory operand. -/
def memOffset (s : State) (m : MemOp) : Nat := eaOffset s.regs m.addr

/-! ### The r/m operand (R88) -/

/-- ReadRM (R88). -/
def State.readRM (s : State) (w : Width) : RM → Res (BitVec w.bits)
  | .reg n => .ok (s.regs.get w n)
  | .mem m => s.readSeg w (memSegment m) (memOffset s m)

/-- CheckWriteRM (R88): nothing for a register. -/
def State.checkWriteRM (s : State) (w : Width) : RM → Res Unit
  | .reg _ => .ok ()
  | .mem m => s.checkWrite (memSegment m) (memOffset s m) w.bytes

/-- Where a result goes: a register, or bytes at physical addresses. -/
inductive Place where
  | reg (n : RegNo)
  | bytes (as : List Nat)
  deriving DecidableEq, Repr

/-- The place WriteRM writes to (R88), after the checks of the write (R55). -/
def State.rmPlace (s : State) (w : Width) : RM → Res Place
  | .reg n => .ok (.reg n)
  | .mem m => do
    let as ← s.storeAddrs (memSegment m) (memOffset s m) w.bytes
    .ok (.bytes as)

/-- A value put into its place. -/
def State.put (s : State) (w : Width) (pl : Place) (v : BitVec w.bits) : State :=
  match pl with
  | .reg n => { s with regs := s.regs.put w n v }
  | .bytes as => s.storeAt as v.toNat

/-- WriteRM (R88). -/
def State.writeRM (s : State) (w : Width) (rm : RM) (v : BitVec w.bits) : Res State := do
  let pl ← s.rmPlace w rm
  .ok (s.put w pl v)

/-! ### Shift counts (R114, R177) -/

/-- Where a shift count comes from: the constant 1, CL, or an immediate byte. -/
inductive CountSrc where
  | one
  | cl
  | imm (v : Byte)
  deriving DecidableEq, Repr

/-- The count as an 8-bit number (R114). -/
def CountSrc.raw (s : State) : CountSrc → Byte
  | .one => 1#8
  | .cl => s.regs.get .w8 .n1
  | .imm v => v

/-- COUNT and ShiftAmt: bits 4:0 of the count, at every operand width (R114, R177). -/
def CountSrc.count (c : CountSrc) (s : State) : Nat := ((c.raw s).extractLsb' 0 5).toNat

/-! ### Sizes and string registers (R75, R141, R147) -/

/-- OperandSize of an instruction (R75). -/
def State.operandSize (s : State) (p : Pfx) : Size := s.defaultSize.select p.opSize

/-- AddressSize of an instruction (R75). -/
def State.addressSize (s : State) (p : Pfx) : Size := s.defaultSize.select p.addrSize

/-- The width of the index and count registers under an AddressSize (R141, R147). -/
@[reducible] def addrWidth : Size → Width
  | .s16 => .w16
  | .s32 => .w32

/-- AL, AX or EAX (R140, R199). -/
def State.acc (s : State) (w : Width) : BitVec w.bits := s.regs.get w .n0

/-- Index (R141): DI zero-extended, or EDI. -/
def State.index (s : State) (a : Size) : Nat := (s.regs.get (addrWidth a) .n7).toNat

/-- IndexUpdate (R141): DI or EDI moves up by `n` bytes, or down when DF = 1. -/
def Regs.stepIndex (r : Regs) (a : Size) (df : Bool) (n : Nat) : Regs :=
  r.put (addrWidth a) .n7
    (if df then r.get (addrWidth a) .n7 - BitVec.ofNat _ n else r.get (addrWidth a) .n7 + BitVec.ofNat _ n)

/-- The repeat count: CX or ECX (R147, R204). -/
def State.repCount (s : State) (a : Size) : BitVec (addrWidth a).bits := s.regs.get (addrWidth a) .n1

/-- The repeat count less one (R147, R204). -/
def State.decCount (s : State) (a : Size) : State :=
  { s with regs := s.regs.put (addrWidth a) .n1 (s.repCount a - BitVec.ofNat _ 1) }

end Sys2Proof.Machine
end

