-- ==== Sys2Proof/Machine/Arith.lean ====
section
/-! DEFINITION. SBB (R130 to R136) and SUB (R210 to R216). `borrow` is CF for SBB and 0 for SUB. -/

namespace Sys2Proof.Machine

/-- The accumulator less an immediate (R131, R211). -/
def subAcc (w : Width) (b : BitVec w.bits) (borrow : Bool) (len : Nat) (s : State) : State :=
  ({ s with
      regs := s.regs.put w .n0 (subResult (s.acc w) b borrow)
      flags := s.flags.setSub (s.acc w) b borrow } : State).complete len

/-- The r/m operand less `b`, written back (R132 to R134, R212 to R214): write check first (R56). -/
def subToRM (w : Width) (rm : RM) (b : BitVec w.bits) (borrow : Bool) (len : Nat) (s : State) :
    Res State := do
  s.checkWriteRM w rm
  let a ← s.readRM w rm
  let pl ← s.rmPlace w rm
  .ok (({ s.put w pl (subResult a b borrow) with
          flags := s.flags.setSub a b borrow } : State).complete len)

/-- A register less the r/m operand (R135, R215): read checks only. -/
def subFromRM (w : Width) (r : RegNo) (rm : RM) (borrow : Bool) (len : Nat) (s : State) :
    Res State := do
  let b ← s.readRM w rm
  .ok (({ s with
          regs := s.regs.put w r (subResult (s.regs.get w r) b borrow)
          flags := s.flags.setSub (s.regs.get w r) b borrow } : State).complete len)

/-- SBB AL,imm8 (R131). -/
def execSbbAlImm8 (p : Pfx) (imm : Byte) (s : State) : Host.Outcome State Fault Refusal :=
  .next (subAcc .w8 imm s.flags.cf (Instr.length (.sbbAlImm8 p imm)) s)

/-- SBB AX,imm16 (R131). -/
def execSbbAxImm16 (p : Pfx) (imm : Word) (s : State) : Host.Outcome State Fault Refusal :=
  .next (subAcc .w16 imm s.flags.cf (Instr.length (.sbbAxImm16 p imm)) s)

/-- SBB EAX,imm32 (R131). -/
def execSbbEaxImm32 (p : Pfx) (imm : DWord) (s : State) : Host.Outcome State Fault Refusal :=
  .next (subAcc .w32 imm s.flags.cf (Instr.length (.sbbEaxImm32 p imm)) s)

/-- SBB r/m8,imm8 (R132). -/
def execSbbRm8Imm8 (p : Pfx) (rm : RM) (imm : Byte) (s : State) : Host.Outcome State Fault Refusal :=
  settle s (subToRM .w8 rm imm s.flags.cf (Instr.length (.sbbRm8Imm8 p rm imm)) s)

/-- SBB r/m16,imm16 (R132). -/
def execSbbRm16Imm16 (p : Pfx) (rm : RM) (imm : Word) (s : State) : Host.Outcome State Fault Refusal :=
  settle s (subToRM .w16 rm imm s.flags.cf (Instr.length (.sbbRm16Imm16 p rm imm)) s)

/-- SBB r/m32,imm32 (R132). -/
def execSbbRm32Imm32 (p : Pfx) (rm : RM) (imm : DWord) (s : State) : Host.Outcome State Fault Refusal :=
  settle s (subToRM .w32 rm imm s.flags.cf (Instr.length (.sbbRm32Imm32 p rm imm)) s)

/-- SBB r/m16,imm8 (R133). -/
def execSbbRm16Imm8 (p : Pfx) (rm : RM) (imm : Byte) (s : State) : Host.Outcome State Fault Refusal :=
  settle s (subToRM .w16 rm (imm.signExtend 16) s.flags.cf (Instr.length (.sbbRm16Imm8 p rm imm)) s)

/-- SBB r/m32,imm8 (R133). -/
def execSbbRm32Imm8 (p : Pfx) (rm : RM) (imm : Byte) (s : State) : Host.Outcome State Fault Refusal :=
  settle s (subToRM .w32 rm (imm.signExtend 32) s.flags.cf (Instr.length (.sbbRm32Imm8 p rm imm)) s)

/-- SBB r/m8,r8 (R134). -/
def execSbbRm8R8 (p : Pfx) (rm : RM) (r : RegNo) (s : State) : Host.Outcome State Fault Refusal :=
  settle s (subToRM .w8 rm (s.regs.get .w8 r) s.flags.cf (Instr.length (.sbbRm8R8 p rm r)) s)

/-- SBB r/m16,r16 (R134). -/
def execSbbRm16R16 (p : Pfx) (rm : RM) (r : RegNo) (s : State) : Host.Outcome State Fault Refusal :=
  settle s (subToRM .w16 rm (s.regs.get .w16 r) s.flags.cf (Instr.length (.sbbRm16R16 p rm r)) s)

/-- SBB r/m32,r32 (R134). -/
def execSbbRm32R32 (p : Pfx) (rm : RM) (r : RegNo) (s : State) : Host.Outcome State Fault Refusal :=
  settle s (subToRM .w32 rm (s.regs.get .w32 r) s.flags.cf (Instr.length (.sbbRm32R32 p rm r)) s)

/-- SBB r8,r/m8 (R135). -/
def execSbbR8Rm8 (p : Pfx) (rm : RM) (r : RegNo) (s : State) : Host.Outcome State Fault Refusal :=
  settle s (subFromRM .w8 r rm s.flags.cf (Instr.length (.sbbR8Rm8 p rm r)) s)

/-- SBB r16,r/m16 (R135). -/
def execSbbR16Rm16 (p : Pfx) (rm : RM) (r : RegNo) (s : State) : Host.Outcome State Fault Refusal :=
  settle s (subFromRM .w16 r rm s.flags.cf (Instr.length (.sbbR16Rm16 p rm r)) s)

/-- SBB r32,r/m32 (R135). -/
def execSbbR32Rm32 (p : Pfx) (rm : RM) (r : RegNo) (s : State) : Host.Outcome State Fault Refusal :=
  settle s (subFromRM .w32 r rm s.flags.cf (Instr.length (.sbbR32Rm32 p rm r)) s)

/-- SUB AL,imm8 (R211). -/
def execSubAlImm8 (p : Pfx) (imm : Byte) (s : State) : Host.Outcome State Fault Refusal :=
  .next (subAcc .w8 imm false (Instr.length (.subAlImm8 p imm)) s)

/-- SUB AX,imm16 (R211). -/
def execSubAxImm16 (p : Pfx) (imm : Word) (s : State) : Host.Outcome State Fault Refusal :=
  .next (subAcc .w16 imm false (Instr.length (.subAxImm16 p imm)) s)

/-- SUB EAX,imm32 (R211). -/
def execSubEaxImm32 (p : Pfx) (imm : DWord) (s : State) : Host.Outcome State Fault Refusal :=
  .next (subAcc .w32 imm false (Instr.length (.subEaxImm32 p imm)) s)

/-- SUB r/m8,imm8 (R212). -/
def execSubRm8Imm8 (p : Pfx) (rm : RM) (imm : Byte) (s : State) : Host.Outcome State Fault Refusal :=
  settle s (subToRM .w8 rm imm false (Instr.length (.subRm8Imm8 p rm imm)) s)

/-- SUB r/m16,imm16 (R212). -/
def execSubRm16Imm16 (p : Pfx) (rm : RM) (imm : Word) (s : State) : Host.Outcome State Fault Refusal :=
  settle s (subToRM .w16 rm imm false (Instr.length (.subRm16Imm16 p rm imm)) s)

/-- SUB r/m32,imm32 (R212). -/
def execSubRm32Imm32 (p : Pfx) (rm : RM) (imm : DWord) (s : State) : Host.Outcome State Fault Refusal :=
  settle s (subToRM .w32 rm imm false (Instr.length (.subRm32Imm32 p rm imm)) s)

/-- SUB r/m16,imm8 (R213). -/
def execSubRm16Imm8 (p : Pfx) (rm : RM) (imm : Byte) (s : State) : Host.Outcome State Fault Refusal :=
  settle s (subToRM .w16 rm (imm.signExtend 16) false (Instr.length (.subRm16Imm8 p rm imm)) s)

/-- SUB r/m32,imm8 (R213). -/
def execSubRm32Imm8 (p : Pfx) (rm : RM) (imm : Byte) (s : State) : Host.Outcome State Fault Refusal :=
  settle s (subToRM .w32 rm (imm.signExtend 32) false (Instr.length (.subRm32Imm8 p rm imm)) s)

/-- SUB r/m8,r8 (R214). -/
def execSubRm8R8 (p : Pfx) (rm : RM) (r : RegNo) (s : State) : Host.Outcome State Fault Refusal :=
  settle s (subToRM .w8 rm (s.regs.get .w8 r) false (Instr.length (.subRm8R8 p rm r)) s)

/-- SUB r/m16,r16 (R214). -/
def execSubRm16R16 (p : Pfx) (rm : RM) (r : RegNo) (s : State) : Host.Outcome State Fault Refusal :=
  settle s (subToRM .w16 rm (s.regs.get .w16 r) false (Instr.length (.subRm16R16 p rm r)) s)

/-- SUB r/m32,r32 (R214). -/
def execSubRm32R32 (p : Pfx) (rm : RM) (r : RegNo) (s : State) : Host.Outcome State Fault Refusal :=
  settle s (subToRM .w32 rm (s.regs.get .w32 r) false (Instr.length (.subRm32R32 p rm r)) s)

/-- SUB r8,r/m8 (R215). -/
def execSubR8Rm8 (p : Pfx) (rm : RM) (r : RegNo) (s : State) : Host.Outcome State Fault Refusal :=
  settle s (subFromRM .w8 r rm false (Instr.length (.subR8Rm8 p rm r)) s)

/-- SUB r16,r/m16 (R215). -/
def execSubR16Rm16 (p : Pfx) (rm : RM) (r : RegNo) (s : State) : Host.Outcome State Fault Refusal :=
  settle s (subFromRM .w16 r rm false (Instr.length (.subR16Rm16 p rm r)) s)

/-- SUB r32,r/m32 (R215). -/
def execSubR32Rm32 (p : Pfx) (rm : RM) (r : RegNo) (s : State) : Host.Outcome State Fault Refusal :=
  settle s (subFromRM .w32 r rm false (Instr.length (.subR32Rm32 p rm r)) s)

end Sys2Proof.Machine
end

