-- ==== Sys2Proof/Machine/DoubleShift.lean ====
section
/-! DEFINITION. SHLD and SHRD (R176 to R184). -/

namespace Sys2Proof.Machine

/-- The flags after a double shift by s, 0 < s < N (R179, R182): AF and OF undefined. `k` is the number of
the first draw. -/
def dshiftFlags {n : Nat} (op : DShiftOp) (v inBits : BitVec n) (s k : Nat) (f : Flags) : Flags :=
  { f.setSZP (op.result v inBits s) with
    cf := op.carry v s
    af := Config.drawBit k
    ofl := Config.drawBit (k + 1) }

/-- The six flags drawn when ShiftAmt >= OperandSize (R181). -/
def drawnFlags (k : Nat) (f : Flags) : Flags :=
  { f with
    cf := Config.drawBit k
    ofl := Config.drawBit (k + 1)
    sf := Config.drawBit (k + 2)
    zf := Config.drawBit (k + 3)
    af := Config.drawBit (k + 4)
    pf := Config.drawBit (k + 5) }

/-- The drawn destination when ShiftAmt >= OperandSize: `draw_16()` (R181, D29). -/
def drawnResult (w : Width) (k : Nat) : BitVec w.bits := (Config.drawWord k).setWidth w.bits

/-- SHLD and SHRD: no operation but the write check for ShiftAmt 0 (R178, D19), a drawn destination and
drawn flags for ShiftAmt >= OperandSize (R181, D22), else R179 and R182. The second operand and the count
are read before the first is written (R177). -/
def dshiftRM (op : DShiftOp) (w : Width) (src : CountSrc) (rm : RM) (r : RegNo) (len : Nat) (s : State) :
    Res State := do
  s.checkWriteRM w rm
  if src.count s = 0 then .ok (s.complete len)
  else if w.bits ≤ src.count s then do
    let pl ← s.rmPlace w rm
    .ok (({ s.put w pl (drawnResult w s.draws) with
            flags := drawnFlags (s.draws + 1) s.flags
            draws := s.draws + 7 } : State).complete len)
  else do
    let v ← s.readRM w rm
    let pl ← s.rmPlace w rm
    .ok (({ s.put w pl (op.result v (s.regs.get w r) (src.count s)) with
            flags := dshiftFlags op v (s.regs.get w r) (src.count s) s.draws s.flags
            draws := s.draws + 2 } : State).complete len)

/-- SHLD r/m16,r16,imm8 (R179). -/
def execShldRm16R16Imm8 (p : Pfx) (rm : RM) (r : RegNo) (imm : Byte) (s : State) : Host.Outcome State Fault Refusal :=
  settle s (dshiftRM .shld .w16 (.imm imm) rm r (Instr.length (.shldRm16R16Imm8 p rm r imm)) s)

/-- SHLD r/m32,r32,imm8 (R179). -/
def execShldRm32R32Imm8 (p : Pfx) (rm : RM) (r : RegNo) (imm : Byte) (s : State) : Host.Outcome State Fault Refusal :=
  settle s (dshiftRM .shld .w32 (.imm imm) rm r (Instr.length (.shldRm32R32Imm8 p rm r imm)) s)

/-- SHLD r/m16,r16,CL (R179). -/
def execShldRm16R16Cl (p : Pfx) (rm : RM) (r : RegNo) (s : State) : Host.Outcome State Fault Refusal :=
  settle s (dshiftRM .shld .w16 .cl rm r (Instr.length (.shldRm16R16Cl p rm r)) s)

/-- SHLD r/m32,r32,CL (R179). -/
def execShldRm32R32Cl (p : Pfx) (rm : RM) (r : RegNo) (s : State) : Host.Outcome State Fault Refusal :=
  settle s (dshiftRM .shld .w32 .cl rm r (Instr.length (.shldRm32R32Cl p rm r)) s)

/-- SHRD r/m16,r16,imm8 (R182). -/
def execShrdRm16R16Imm8 (p : Pfx) (rm : RM) (r : RegNo) (imm : Byte) (s : State) : Host.Outcome State Fault Refusal :=
  settle s (dshiftRM .shrd .w16 (.imm imm) rm r (Instr.length (.shrdRm16R16Imm8 p rm r imm)) s)

/-- SHRD r/m32,r32,imm8 (R182). -/
def execShrdRm32R32Imm8 (p : Pfx) (rm : RM) (r : RegNo) (imm : Byte) (s : State) : Host.Outcome State Fault Refusal :=
  settle s (dshiftRM .shrd .w32 (.imm imm) rm r (Instr.length (.shrdRm32R32Imm8 p rm r imm)) s)

/-- SHRD r/m16,r16,CL (R182). -/
def execShrdRm16R16Cl (p : Pfx) (rm : RM) (r : RegNo) (s : State) : Host.Outcome State Fault Refusal :=
  settle s (dshiftRM .shrd .w16 .cl rm r (Instr.length (.shrdRm16R16Cl p rm r)) s)

/-- SHRD r/m32,r32,CL (R182). -/
def execShrdRm32R32Cl (p : Pfx) (rm : RM) (r : RegNo) (s : State) : Host.Outcome State Fault Refusal :=
  settle s (dshiftRM .shrd .w32 .cl rm r (Instr.length (.shrdRm32R32Cl p rm r)) s)

end Sys2Proof.Machine
end

