-- ==== Sys2Proof/Machine/FlagOps.lean ====
section
/-! DEFINITION. SAHF, STC, STD and STI. -/

namespace Sys2Proof.Machine

/-- STI's effect (R195, R196): IF is set, and IntInhibit when IF was 0 (D35). -/
def State.setInterruptFlag (s : State) (len : Nat) : State :=
  { s.complete len with
    flags := { s.flags with ifl := true }
    intInhibit := !s.flags.ifl }

/-- SAHF (R110). -/
def execSahf (p : Pfx) (s : State) : Host.Outcome State Fault Refusal :=
  .next (({ s with flags := s.flags.loadAH (s.regs.get .w8 .n4) } : State).complete (Instr.length (.sahf p)))

/-- STC (R192). -/
def execStc (p : Pfx) (s : State) : Host.Outcome State Fault Refusal :=
  .next (({ s with flags := { s.flags with cf := true } } : State).complete (Instr.length (.stc p)))

/-- STD (R193). -/
def execStd (p : Pfx) (s : State) : Host.Outcome State Fault Refusal :=
  .next (({ s with flags := { s.flags with df := true } } : State).complete (Instr.length (.std p)))

/-- STI (R195 to R197). Protected Mode with CPL above IOPL takes #GP(0), which leaves IF and IntInhibit as
they are; Virtual 8086 Mode with IOPL below 3 is refused (D27). -/
def execSti (p : Pfx) (s : State) : Host.Outcome State Fault Refusal :=
  match s.mode with
  | .real => .next (s.setInterruptFlag (Instr.length (.sti p)))
  | .prot =>
    if s.iopl < s.cpl then .next (s.markFaulted .gp0)
    else .next (s.setInterruptFlag (Instr.length (.sti p)))
  | .v86 =>
    if s.iopl < 3#2 then .refused .stiV86Iopl
    else .next (s.setInterruptFlag (Instr.length (.sti p)))

end Sys2Proof.Machine
end

