-- ==== Sys2Proof/Machine/Setcc.lean ====
section
/-! DEFINITION. SETcc (R150 to R168). -/

namespace Sys2Proof.Machine

/-- The byte SETcc stores (R150). -/
def condByte (c : Cond) (f : Flags) : Byte := if Cond.holds f c then 0x01#8 else 0x00#8

/-- The common form of SETcc (R150). -/
def setcc (c : Cond) (rm : RM) (len : Nat) (s : State) : Res State := do
  let t ← s.writeRM .w8 rm (condByte c s.flags)
  .ok (t.complete len)

/-- SETA r/m8 (R159). -/
def execSeta (p : Pfx) (rm : RM) (s : State) : Host.Outcome State Fault Refusal :=
  settle s (setcc .a rm (Instr.length (.seta p rm)) s)

/-- SETAE r/m8 (R155). -/
def execSetae (p : Pfx) (rm : RM) (s : State) : Host.Outcome State Fault Refusal :=
  settle s (setcc .ae rm (Instr.length (.setae p rm)) s)

/-- SETB r/m8 (R154). -/
def execSetb (p : Pfx) (rm : RM) (s : State) : Host.Outcome State Fault Refusal :=
  settle s (setcc .b rm (Instr.length (.setb p rm)) s)

/-- SETBE r/m8 (R158). -/
def execSetbe (p : Pfx) (rm : RM) (s : State) : Host.Outcome State Fault Refusal :=
  settle s (setcc .be rm (Instr.length (.setbe p rm)) s)

/-- SETC r/m8 (R154). -/
def execSetc (p : Pfx) (rm : RM) (s : State) : Host.Outcome State Fault Refusal :=
  settle s (setcc .b rm (Instr.length (.setc p rm)) s)

/-- SETE r/m8 (R156). -/
def execSete (p : Pfx) (rm : RM) (s : State) : Host.Outcome State Fault Refusal :=
  settle s (setcc .e rm (Instr.length (.sete p rm)) s)

/-- SETG r/m8 (R167). -/
def execSetg (p : Pfx) (rm : RM) (s : State) : Host.Outcome State Fault Refusal :=
  settle s (setcc .g rm (Instr.length (.setg p rm)) s)

/-- SETGE r/m8 (R165). -/
def execSetge (p : Pfx) (rm : RM) (s : State) : Host.Outcome State Fault Refusal :=
  settle s (setcc .ge rm (Instr.length (.setge p rm)) s)

/-- SETL r/m8 (R164). -/
def execSetl (p : Pfx) (rm : RM) (s : State) : Host.Outcome State Fault Refusal :=
  settle s (setcc .l rm (Instr.length (.setl p rm)) s)

/-- SETLE r/m8 (R166). -/
def execSetle (p : Pfx) (rm : RM) (s : State) : Host.Outcome State Fault Refusal :=
  settle s (setcc .le rm (Instr.length (.setle p rm)) s)

/-- SETNA r/m8 (R158). -/
def execSetna (p : Pfx) (rm : RM) (s : State) : Host.Outcome State Fault Refusal :=
  settle s (setcc .be rm (Instr.length (.setna p rm)) s)

/-- SETNAE r/m8 (R154). -/
def execSetnae (p : Pfx) (rm : RM) (s : State) : Host.Outcome State Fault Refusal :=
  settle s (setcc .b rm (Instr.length (.setnae p rm)) s)

/-- SETNB r/m8 (R155). -/
def execSetnb (p : Pfx) (rm : RM) (s : State) : Host.Outcome State Fault Refusal :=
  settle s (setcc .ae rm (Instr.length (.setnb p rm)) s)

/-- SETNBE r/m8 (R159). -/
def execSetnbe (p : Pfx) (rm : RM) (s : State) : Host.Outcome State Fault Refusal :=
  settle s (setcc .a rm (Instr.length (.setnbe p rm)) s)

/-- SETNC r/m8 (R155). -/
def execSetnc (p : Pfx) (rm : RM) (s : State) : Host.Outcome State Fault Refusal :=
  settle s (setcc .ae rm (Instr.length (.setnc p rm)) s)

/-- SETNE r/m8 (R157). -/
def execSetne (p : Pfx) (rm : RM) (s : State) : Host.Outcome State Fault Refusal :=
  settle s (setcc .ne rm (Instr.length (.setne p rm)) s)

/-- SETNG r/m8 (R166). -/
def execSetng (p : Pfx) (rm : RM) (s : State) : Host.Outcome State Fault Refusal :=
  settle s (setcc .le rm (Instr.length (.setng p rm)) s)

/-- SETNGE r/m8 (R164). -/
def execSetnge (p : Pfx) (rm : RM) (s : State) : Host.Outcome State Fault Refusal :=
  settle s (setcc .l rm (Instr.length (.setnge p rm)) s)

/-- SETNL r/m8 (R165). -/
def execSetnl (p : Pfx) (rm : RM) (s : State) : Host.Outcome State Fault Refusal :=
  settle s (setcc .ge rm (Instr.length (.setnl p rm)) s)

/-- SETNLE r/m8 (R167). -/
def execSetnle (p : Pfx) (rm : RM) (s : State) : Host.Outcome State Fault Refusal :=
  settle s (setcc .g rm (Instr.length (.setnle p rm)) s)

/-- SETNO r/m8 (R153). -/
def execSetno (p : Pfx) (rm : RM) (s : State) : Host.Outcome State Fault Refusal :=
  settle s (setcc .no rm (Instr.length (.setno p rm)) s)

/-- SETNP r/m8 (R163). -/
def execSetnp (p : Pfx) (rm : RM) (s : State) : Host.Outcome State Fault Refusal :=
  settle s (setcc .np rm (Instr.length (.setnp p rm)) s)

/-- SETNS r/m8 (R161). -/
def execSetns (p : Pfx) (rm : RM) (s : State) : Host.Outcome State Fault Refusal :=
  settle s (setcc .ns rm (Instr.length (.setns p rm)) s)

/-- SETNZ r/m8 (R157). -/
def execSetnz (p : Pfx) (rm : RM) (s : State) : Host.Outcome State Fault Refusal :=
  settle s (setcc .ne rm (Instr.length (.setnz p rm)) s)

/-- SETO r/m8 (R152). -/
def execSeto (p : Pfx) (rm : RM) (s : State) : Host.Outcome State Fault Refusal :=
  settle s (setcc .o rm (Instr.length (.seto p rm)) s)

/-- SETP r/m8 (R162). -/
def execSetp (p : Pfx) (rm : RM) (s : State) : Host.Outcome State Fault Refusal :=
  settle s (setcc .p rm (Instr.length (.setp p rm)) s)

/-- SETPE r/m8 (R162). -/
def execSetpe (p : Pfx) (rm : RM) (s : State) : Host.Outcome State Fault Refusal :=
  settle s (setcc .p rm (Instr.length (.setpe p rm)) s)

/-- SETPO r/m8 (R163). -/
def execSetpo (p : Pfx) (rm : RM) (s : State) : Host.Outcome State Fault Refusal :=
  settle s (setcc .np rm (Instr.length (.setpo p rm)) s)

/-- SETS r/m8 (R160). -/
def execSets (p : Pfx) (rm : RM) (s : State) : Host.Outcome State Fault Refusal :=
  settle s (setcc .s rm (Instr.length (.sets p rm)) s)

/-- SETZ r/m8 (R156). -/
def execSetz (p : Pfx) (rm : RM) (s : State) : Host.Outcome State Fault Refusal :=
  settle s (setcc .e rm (Instr.length (.setz p rm)) s)

end Sys2Proof.Machine
end

