-- ==== Sys2Proof/Machine/Shift.lean ====
section
/-! DEFINITION. SAL, SHL, SHR, SAR (R113 to R121). -/

namespace Sys2Proof.Machine

/-- The flags after a shift of `v` by COUNT of at least 1 (R115, R116): AF undefined, OF undefined when
COUNT is not 1 (D20, D21). `k` is the number of the first draw. -/
def shiftFlags {n : Nat} (op : ShiftOp) (v : BitVec n) (count k : Nat) (f : Flags) : Flags :=
  { f.setSZP (op.result v count) with
    cf := op.carry v count
    af := Config.drawBit k
    ofl := if count = 1 then op.overflow v else Config.drawBit (k + 1) }

/-- How many draws a shift by COUNT of at least 1 takes (R115). -/
def shiftDraws (count : Nat) : Nat := if count = 1 then 1 else 2

/-- The common shape of the shifts (R115). COUNT 0 writes the operand back unchanged and leaves the flags
(D19). -/
def shiftRM (op : ShiftOp) (w : Width) (src : CountSrc) (rm : RM) (len : Nat) (s : State) :
    Res State := do
  s.checkWriteRM w rm
  let v ← s.readRM w rm
  let pl ← s.rmPlace w rm
  if src.count s = 0 then .ok ((s.put w pl v).complete len)
  else
    .ok (({ s.put w pl (op.result v (src.count s)) with
            flags := shiftFlags op v (src.count s) s.draws s.flags
            draws := s.draws + shiftDraws (src.count s) } : State).complete len)

/-- SAL r/m8,1 (R117). -/
def execSalRm8One (p : Pfx) (rm : RM) (s : State) : Host.Outcome State Fault Refusal :=
  settle s (shiftRM .shl .w8 .one rm (Instr.length (.salRm8One p rm)) s)

/-- SAL r/m8,CL (R117). -/
def execSalRm8Cl (p : Pfx) (rm : RM) (s : State) : Host.Outcome State Fault Refusal :=
  settle s (shiftRM .shl .w8 .cl rm (Instr.length (.salRm8Cl p rm)) s)

/-- SAL r/m8,imm8 (R117). -/
def execSalRm8Imm8 (p : Pfx) (rm : RM) (imm : Byte) (s : State) : Host.Outcome State Fault Refusal :=
  settle s (shiftRM .shl .w8 (.imm imm) rm (Instr.length (.salRm8Imm8 p rm imm)) s)

/-- SAL r/m16,1 (R117). -/
def execSalRm16One (p : Pfx) (rm : RM) (s : State) : Host.Outcome State Fault Refusal :=
  settle s (shiftRM .shl .w16 .one rm (Instr.length (.salRm16One p rm)) s)

/-- SAL r/m16,CL (R117). -/
def execSalRm16Cl (p : Pfx) (rm : RM) (s : State) : Host.Outcome State Fault Refusal :=
  settle s (shiftRM .shl .w16 .cl rm (Instr.length (.salRm16Cl p rm)) s)

/-- SAL r/m16,imm8 (R117). -/
def execSalRm16Imm8 (p : Pfx) (rm : RM) (imm : Byte) (s : State) : Host.Outcome State Fault Refusal :=
  settle s (shiftRM .shl .w16 (.imm imm) rm (Instr.length (.salRm16Imm8 p rm imm)) s)

/-- SAL r/m32,1 (R117). -/
def execSalRm32One (p : Pfx) (rm : RM) (s : State) : Host.Outcome State Fault Refusal :=
  settle s (shiftRM .shl .w32 .one rm (Instr.length (.salRm32One p rm)) s)

/-- SAL r/m32,CL (R117). -/
def execSalRm32Cl (p : Pfx) (rm : RM) (s : State) : Host.Outcome State Fault Refusal :=
  settle s (shiftRM .shl .w32 .cl rm (Instr.length (.salRm32Cl p rm)) s)

/-- SAL r/m32,imm8 (R117). -/
def execSalRm32Imm8 (p : Pfx) (rm : RM) (imm : Byte) (s : State) : Host.Outcome State Fault Refusal :=
  settle s (shiftRM .shl .w32 (.imm imm) rm (Instr.length (.salRm32Imm8 p rm imm)) s)

/-- SAR r/m8,1 (R119). -/
def execSarRm8One (p : Pfx) (rm : RM) (s : State) : Host.Outcome State Fault Refusal :=
  settle s (shiftRM .sar .w8 .one rm (Instr.length (.sarRm8One p rm)) s)

/-- SAR r/m8,CL (R119). -/
def execSarRm8Cl (p : Pfx) (rm : RM) (s : State) : Host.Outcome State Fault Refusal :=
  settle s (shiftRM .sar .w8 .cl rm (Instr.length (.sarRm8Cl p rm)) s)

/-- SAR r/m8,imm8 (R119). -/
def execSarRm8Imm8 (p : Pfx) (rm : RM) (imm : Byte) (s : State) : Host.Outcome State Fault Refusal :=
  settle s (shiftRM .sar .w8 (.imm imm) rm (Instr.length (.sarRm8Imm8 p rm imm)) s)

/-- SAR r/m16,1 (R119). -/
def execSarRm16One (p : Pfx) (rm : RM) (s : State) : Host.Outcome State Fault Refusal :=
  settle s (shiftRM .sar .w16 .one rm (Instr.length (.sarRm16One p rm)) s)

/-- SAR r/m16,CL (R119). -/
def execSarRm16Cl (p : Pfx) (rm : RM) (s : State) : Host.Outcome State Fault Refusal :=
  settle s (shiftRM .sar .w16 .cl rm (Instr.length (.sarRm16Cl p rm)) s)

/-- SAR r/m16,imm8 (R119). -/
def execSarRm16Imm8 (p : Pfx) (rm : RM) (imm : Byte) (s : State) : Host.Outcome State Fault Refusal :=
  settle s (shiftRM .sar .w16 (.imm imm) rm (Instr.length (.sarRm16Imm8 p rm imm)) s)

/-- SAR r/m32,1 (R119). -/
def execSarRm32One (p : Pfx) (rm : RM) (s : State) : Host.Outcome State Fault Refusal :=
  settle s (shiftRM .sar .w32 .one rm (Instr.length (.sarRm32One p rm)) s)

/-- SAR r/m32,CL (R119). -/
def execSarRm32Cl (p : Pfx) (rm : RM) (s : State) : Host.Outcome State Fault Refusal :=
  settle s (shiftRM .sar .w32 .cl rm (Instr.length (.sarRm32Cl p rm)) s)

/-- SAR r/m32,imm8 (R119). -/
def execSarRm32Imm8 (p : Pfx) (rm : RM) (imm : Byte) (s : State) : Host.Outcome State Fault Refusal :=
  settle s (shiftRM .sar .w32 (.imm imm) rm (Instr.length (.sarRm32Imm8 p rm imm)) s)

/-- SHL r/m8,1 (R117). -/
def execShlRm8One (p : Pfx) (rm : RM) (s : State) : Host.Outcome State Fault Refusal :=
  settle s (shiftRM .shl .w8 .one rm (Instr.length (.shlRm8One p rm)) s)

/-- SHL r/m8,CL (R117). -/
def execShlRm8Cl (p : Pfx) (rm : RM) (s : State) : Host.Outcome State Fault Refusal :=
  settle s (shiftRM .shl .w8 .cl rm (Instr.length (.shlRm8Cl p rm)) s)

/-- SHL r/m8,imm8 (R117). -/
def execShlRm8Imm8 (p : Pfx) (rm : RM) (imm : Byte) (s : State) : Host.Outcome State Fault Refusal :=
  settle s (shiftRM .shl .w8 (.imm imm) rm (Instr.length (.shlRm8Imm8 p rm imm)) s)

/-- SHL r/m16,1 (R117). -/
def execShlRm16One (p : Pfx) (rm : RM) (s : State) : Host.Outcome State Fault Refusal :=
  settle s (shiftRM .shl .w16 .one rm (Instr.length (.shlRm16One p rm)) s)

/-- SHL r/m16,CL (R117). -/
def execShlRm16Cl (p : Pfx) (rm : RM) (s : State) : Host.Outcome State Fault Refusal :=
  settle s (shiftRM .shl .w16 .cl rm (Instr.length (.shlRm16Cl p rm)) s)

/-- SHL r/m16,imm8 (R117). -/
def execShlRm16Imm8 (p : Pfx) (rm : RM) (imm : Byte) (s : State) : Host.Outcome State Fault Refusal :=
  settle s (shiftRM .shl .w16 (.imm imm) rm (Instr.length (.shlRm16Imm8 p rm imm)) s)

/-- SHL r/m32,1 (R117). -/
def execShlRm32One (p : Pfx) (rm : RM) (s : State) : Host.Outcome State Fault Refusal :=
  settle s (shiftRM .shl .w32 .one rm (Instr.length (.shlRm32One p rm)) s)

/-- SHL r/m32,CL (R117). -/
def execShlRm32Cl (p : Pfx) (rm : RM) (s : State) : Host.Outcome State Fault Refusal :=
  settle s (shiftRM .shl .w32 .cl rm (Instr.length (.shlRm32Cl p rm)) s)

/-- SHL r/m32,imm8 (R117). -/
def execShlRm32Imm8 (p : Pfx) (rm : RM) (imm : Byte) (s : State) : Host.Outcome State Fault Refusal :=
  settle s (shiftRM .shl .w32 (.imm imm) rm (Instr.length (.shlRm32Imm8 p rm imm)) s)

/-- SHR r/m8,1 (R118). -/
def execShrRm8One (p : Pfx) (rm : RM) (s : State) : Host.Outcome State Fault Refusal :=
  settle s (shiftRM .shr .w8 .one rm (Instr.length (.shrRm8One p rm)) s)

/-- SHR r/m8,CL (R118). -/
def execShrRm8Cl (p : Pfx) (rm : RM) (s : State) : Host.Outcome State Fault Refusal :=
  settle s (shiftRM .shr .w8 .cl rm (Instr.length (.shrRm8Cl p rm)) s)

/-- SHR r/m8,imm8 (R118). -/
def execShrRm8Imm8 (p : Pfx) (rm : RM) (imm : Byte) (s : State) : Host.Outcome State Fault Refusal :=
  settle s (shiftRM .shr .w8 (.imm imm) rm (Instr.length (.shrRm8Imm8 p rm imm)) s)

/-- SHR r/m16,1 (R118). -/
def execShrRm16One (p : Pfx) (rm : RM) (s : State) : Host.Outcome State Fault Refusal :=
  settle s (shiftRM .shr .w16 .one rm (Instr.length (.shrRm16One p rm)) s)

/-- SHR r/m16,CL (R118). -/
def execShrRm16Cl (p : Pfx) (rm : RM) (s : State) : Host.Outcome State Fault Refusal :=
  settle s (shiftRM .shr .w16 .cl rm (Instr.length (.shrRm16Cl p rm)) s)

/-- SHR r/m16,imm8 (R118). -/
def execShrRm16Imm8 (p : Pfx) (rm : RM) (imm : Byte) (s : State) : Host.Outcome State Fault Refusal :=
  settle s (shiftRM .shr .w16 (.imm imm) rm (Instr.length (.shrRm16Imm8 p rm imm)) s)

/-- SHR r/m32,1 (R118). -/
def execShrRm32One (p : Pfx) (rm : RM) (s : State) : Host.Outcome State Fault Refusal :=
  settle s (shiftRM .shr .w32 .one rm (Instr.length (.shrRm32One p rm)) s)

/-- SHR r/m32,CL (R118). -/
def execShrRm32Cl (p : Pfx) (rm : RM) (s : State) : Host.Outcome State Fault Refusal :=
  settle s (shiftRM .shr .w32 .cl rm (Instr.length (.shrRm32Cl p rm)) s)

/-- SHR r/m32,imm8 (R118). -/
def execShrRm32Imm8 (p : Pfx) (rm : RM) (imm : Byte) (s : State) : Host.Outcome State Fault Refusal :=
  settle s (shiftRM .shr .w32 (.imm imm) rm (Instr.length (.shrRm32Imm8 p rm imm)) s)

end Sys2Proof.Machine
end

