-- ==== Sys2Proof/Machine/Strings.lean ====
section
/-! DEFINITION. SCAS (R140 to R147) and STOS (R199 to R205), with their repeat prefixes. -/

namespace Sys2Proof.Machine

/-- One comparison without its EIP update (R142 to R144): the accumulator less the operand at ES:(E)DI sets
the flags, then (E)DI moves (R141). -/
def scasBody (w : Width) (a : Size) (s : State) : Res State := do
  let m ← s.readSeg w .es (s.index a)
  .ok { s with
    flags := s.flags.setSub (s.acc w) m false
    regs := s.regs.stepIndex a s.flags.df w.bytes }

/-- Whether a repeat prefix of SCAS ends on this ZF (R147). -/
def repEnds (k : RepCond) (zf : Bool) : Bool :=
  match k with
  | .repe => !zf
  | .repne => zf

/-- SCAS, one iteration at most (R147): an unfinished repetition leaves EIP at the instruction. -/
def scas (w : Width) (a : Size) (rep : Option RepCond) (len : Nat) (s : State) : Res State :=
  match rep with
  | none => do
    let t ← scasBody w a s
    .ok (t.complete len)
  | some k =>
    if s.repCount a = 0 then .ok (s.complete len)
    else do
      let t ← scasBody w a s
      if (t.decCount a).repCount a = 0 ∨ repEnds k t.flags.zf = true then
        .ok ((t.decCount a).complete len)
      else .ok (t.decCount a)

/-- One store without its EIP update (R201 to R203): the accumulator to ES:(E)DI, then (E)DI moves
(R200). -/
def stosBody (w : Width) (a : Size) (s : State) : Res State := do
  let t ← s.writeSeg .es (s.index a) w.bytes (s.acc w).toNat
  .ok { t with regs := t.regs.stepIndex a t.flags.df w.bytes }

/-- STOS, one iteration at most (R204): an unfinished repetition leaves EIP at the instruction. -/
def stos (w : Width) (a : Size) (rep : Bool) (len : Nat) (s : State) : Res State :=
  if rep then
    if s.repCount a = 0 then .ok (s.complete len)
    else do
      let t ← stosBody w a s
      if (t.decCount a).repCount a = 0 then .ok ((t.decCount a).complete len)
      else .ok (t.decCount a)
  else do
    let t ← stosBody w a s
    .ok (t.complete len)

/-- SCAS m8 (R142). -/
def execScasM8 (p : Pfx) (rep : Option RepCond) (s : State) : Host.Outcome State Fault Refusal :=
  settle s (scas .w8 (s.addressSize p) rep (Instr.length (.scasM8 p rep)) s)

/-- SCAS m16 (R143). -/
def execScasM16 (p : Pfx) (rep : Option RepCond) (s : State) : Host.Outcome State Fault Refusal :=
  settle s (scas .w16 (s.addressSize p) rep (Instr.length (.scasM16 p rep)) s)

/-- SCAS m32 (R144). -/
def execScasM32 (p : Pfx) (rep : Option RepCond) (s : State) : Host.Outcome State Fault Refusal :=
  settle s (scas .w32 (s.addressSize p) rep (Instr.length (.scasM32 p rep)) s)

/-- SCASB (R142). -/
def execScasb (p : Pfx) (rep : Option RepCond) (s : State) : Host.Outcome State Fault Refusal :=
  settle s (scas .w8 (s.addressSize p) rep (Instr.length (.scasb p rep)) s)

/-- SCASW (R143). -/
def execScasw (p : Pfx) (rep : Option RepCond) (s : State) : Host.Outcome State Fault Refusal :=
  settle s (scas .w16 (s.addressSize p) rep (Instr.length (.scasw p rep)) s)

/-- SCASD (R144). -/
def execScasd (p : Pfx) (rep : Option RepCond) (s : State) : Host.Outcome State Fault Refusal :=
  settle s (scas .w32 (s.addressSize p) rep (Instr.length (.scasd p rep)) s)

/-- STOS m8 (R201). -/
def execStosM8 (p : Pfx) (rep : Bool) (s : State) : Host.Outcome State Fault Refusal :=
  settle s (stos .w8 (s.addressSize p) rep (Instr.length (.stosM8 p rep)) s)

/-- STOS m16 (R202). -/
def execStosM16 (p : Pfx) (rep : Bool) (s : State) : Host.Outcome State Fault Refusal :=
  settle s (stos .w16 (s.addressSize p) rep (Instr.length (.stosM16 p rep)) s)

/-- STOS m32 (R203). -/
def execStosM32 (p : Pfx) (rep : Bool) (s : State) : Host.Outcome State Fault Refusal :=
  settle s (stos .w32 (s.addressSize p) rep (Instr.length (.stosM32 p rep)) s)

/-- STOSB (R201). -/
def execStosb (p : Pfx) (rep : Bool) (s : State) : Host.Outcome State Fault Refusal :=
  settle s (stos .w8 (s.addressSize p) rep (Instr.length (.stosb p rep)) s)

/-- STOSW (R202). -/
def execStosw (p : Pfx) (rep : Bool) (s : State) : Host.Outcome State Fault Refusal :=
  settle s (stos .w16 (s.addressSize p) rep (Instr.length (.stosw p rep)) s)

/-- STOSD (R203). -/
def execStosd (p : Pfx) (rep : Bool) (s : State) : Host.Outcome State Fault Refusal :=
  settle s (stos .w32 (s.addressSize p) rep (Instr.length (.stosd p rep)) s)

end Sys2Proof.Machine
end

