-- ==== Sys2Proof/Machine/SystemStore.lean ====
section
/-! DEFINITION. SGDT, SIDT (R170 to R174), SLDT, SMSW (R186 to R190) and STR (R207, R208). -/

namespace Sys2Proof.Machine

/-- Bytes 2 to 5 that StoreDT writes (R172): all of BASE with operand size 32; BASE[23:0] under SGDT16_TOP
with operand size 16 (C5, D10). -/
def tableBaseImage (z : Size) (top : Sgdt16Top) (base : DWord) (draws : Nat) : DWord :=
  match z, top with
  | .s32, _ => base
  | .s16, .byte b => b ++ base.extractLsb' 0 24
  | .s16, .draw => Config.drawByte draws ++ base.extractLsb' 0 24

/-- How many draws StoreDT takes (R172). -/
def tableDraws (z : Size) (top : Sgdt16Top) : Nat :=
  match z, top with
  | .s16, .draw => 1
  | _, _ => 0

/-- The six bytes of StoreDT as a number: LIMIT, then BASE (R172). -/
def tableImage (z : Size) (top : Sgdt16Top) (t : TableReg) (draws : Nat) : BitVec 48 :=
  tableBaseImage z top t.base draws ++ t.limit

/-- StoreDT (R172): the checks are those of R49 and R56 over all six bytes (R173), and all precede the
store; a register operand takes #UD (R173). Log entry 32. -/
def storeTable (t : TableReg) (p : Pfx) (rm : RM) (len : Nat) (s : State) : Res State :=
  match rm with
  | .reg _ => .error (.exc .ud)
  | .mem m => do
    let as ← s.storeAddrs (memSegment m) (memOffset s m) 6
    .ok (({ s.storeAt as (tableImage (s.operandSize p) s.sgdt16Top t s.draws).toNat with
            draws := s.draws + tableDraws (s.operandSize p) s.sgdt16Top } : State).complete len)

/-- A 16-bit system value to the r/m16 operand, at every operand size (D28). -/
def storeWord16 (v : Word) (rm : RM) (len : Nat) (s : State) : Res State := do
  let t ← s.writeRM .w16 rm v
  .ok (t.complete len)

/-- The same in Protected Mode; elsewhere the instruction is not recognized and takes #UD before any
operand is touched (R187, R208, R228). -/
def storeSelector (v : Word) (rm : RM) (len : Nat) (s : State) : Res State :=
  if s.mode = .prot then storeWord16 v rm len s else .error (.exc .ud)

/-- The MSW: CR0[15:0] (R25, R189). -/
def State.msw (s : State) : Word := s.cr0.extractLsb' 0 16

/-- SGDT m (R170). -/
def execSgdt (p : Pfx) (rm : RM) (s : State) : Host.Outcome State Fault Refusal :=
  settle s (storeTable s.gdtr p rm (Instr.length (.sgdt p rm)) s)

/-- SIDT m (R171). -/
def execSidt (p : Pfx) (rm : RM) (s : State) : Host.Outcome State Fault Refusal :=
  settle s (storeTable s.idtr p rm (Instr.length (.sidt p rm)) s)

/-- SLDT r/m16 (R186). -/
def execSldt (p : Pfx) (rm : RM) (s : State) : Host.Outcome State Fault Refusal :=
  settle s (storeSelector s.ldtr.selector rm (Instr.length (.sldt p rm)) s)

/-- SMSW r/m16 (R189). -/
def execSmsw (p : Pfx) (rm : RM) (s : State) : Host.Outcome State Fault Refusal :=
  settle s (storeWord16 s.msw rm (Instr.length (.smsw p rm)) s)

/-- STR r/m16 (R207). -/
def execStr (p : Pfx) (rm : RM) (s : State) : Host.Outcome State Fault Refusal :=
  settle s (storeSelector s.tr.selector rm (Instr.length (.str p rm)) s)

end Sys2Proof.Machine
end

