-- ==== Sys2Proof/Machine/Fetch.lean ====
section
/-! DEFINITION. Fetching the instruction at CS:EIP (R99, R14, R264). -/

namespace Sys2Proof.Machine

/-- The instruction byte at a CS offset: inside the offset range (R14) and CodeRegion (R264), read through
CS as data is read (R99). CodeRegion stands here as offsets, log entry 31. -/
def State.fetchByte (s : State) (off : Nat) : Res Byte :=
  if offsetSpan s.defaultSize ≤ off then .error (.refuse .pastOffsetRange)
  else if off < s.codeStart ∨ s.codeEnd ≤ off then .error (.refuse .outsideCodeRegion)
  else s.readSeg .w8 .cs off

/-- The bytes from an offset on, up to `n`, and what stops the fetch before that. -/
def State.fetchBytes (s : State) : Nat → Nat → List Byte × Option Stop
  | 0, _ => ([], none)
  | n + 1, off =>
    match s.fetchByte off with
    | .ok b => (b :: (s.fetchBytes n (off + 1)).1, (s.fetchBytes n (off + 1)).2)
    | .error e => ([], some e)

/-- The bytes the fetch offers the decoder: those from EIP on, and none once EIP has wrapped (log entry 15). -/
def State.window (s : State) : List Byte × Option Stop := s.fetchBytes maxInstrBytes s.nextOffset

/-- The decoder's verdict on the bytes at CS:EIP. A byte that cannot be fetched counts only when the
decoder needs it (log entry 14). -/
def State.fetchInstr (s : State) : Res Instr :=
  match decode s.defaultSize s.window.1 with
  | .ok (i, _) => .ok i
  | .error .short =>
    match s.window.2 with
    | some e => .error e
    | none => .error (.refuse (.undecoded .short))
  | .error e => .error (.refuse (.undecoded e))

/-- The physical addresses the fetch reads from an offset on, up to the first page fault. -/
def State.fetchAddrs (s : State) : Nat → Nat → List Nat
  | 0, _ => []
  | n + 1, off =>
    match s.xlateByte .cs off .read with
    | .ok a => a :: s.fetchAddrs n (off + 1)
    | .error _ => []

end Sys2Proof.Machine
end

