-- ==== Sys2Proof/Machine/Step.lean ====
section
/-! DEFINITION. One step of the machine. -/

namespace Sys2Proof.Machine

/-- One step: none after an exception (R232), none at the end of the run (R264), else the instruction at
CS:EIP. Each instruction moves EIP past itself (R14). -/
def step (s : State) : Host.Outcome State Fault Refusal :=
  match s.faulted with
  | some m => .fault (.afterException m.exc m.eip)
  | none =>
    if s.nextOffset = s.codeEnd then .fault .endOfRun
    else
      match s.fetchInstr with
      | .ok i => exec i s
      | .error e => settle s (.error e)

/-- `s` with the instruction whose bits are `w` placed at CS:EIP as its program (R260, R264; log entry 16):
its bytes at the addresses the fetch reads, those addresses allocated and CodeRegion, Start at EIP, End
after the bytes, EIP not wrapped, and no fault mark. -/
def State.withFetchWord (s : State) (nbits w : Nat) : State :=
  let as := s.fetchAddrs maxInstrBytes s.eip.toNat
  { s with
    mem := s.mem.writeBytes as (tableBytes nbits w)
    allocated := s.allocated ++ (as.filter fun a => !inRanges s.allocated a).map fun a => ⟨a, a⟩
    codeRegion := as.map fun a => ⟨a, a⟩
    codeStart := s.eip.toNat
    codeEnd := s.eip.toNat + maxInstrBytes
    wrapped := false
    faulted := none }

end Sys2Proof.Machine
end

