-- ==== Sys2Proof/Safety.lean ====
section
/-! DEFINITION. The terms of claims about runs: the invariant of the machine, the part of a state that no
instruction writes, runs, and their ends. -/

namespace Sys2Proof.Machine

/-- What every state of a run keeps: the memory's canonical form, EIP inside the offset range (R14), a fault
mark that names EIP (R232), DefaultSize 16 outside Protected Mode (R75, R260), CPL 3 in Virtual 8086 Mode
(R26). No clause ties CPL to the CS selector (log entry 34), CR0 to Mode (log entry 33) or
CodeRegion to Start and End (log entry 31). -/
structure State.Inv (s : State) : Prop where
  memory : s.mem.wf
  eipRange : s.eip.toNat < offsetSpan s.defaultSize
  markEip : ∀ m ∈ s.faulted, m.eip = s.eip
  sizeOfMode : s.mode ≠ .prot → s.defaultSize = .s16
  v86Level : s.mode = .v86 → s.cpl = 3#2

/-- The fields that no in-scope instruction writes (R5, R21 to R26, R28, R52, R240, R241, R244). -/
structure LaunchPart where
  mode : Mode
  cpl : BitVec 2
  iopl : BitVec 2
  defaultSize : Size
  segs : SegRegs
  gdtr : TableReg
  idtr : TableReg
  ldtr : SysSegReg
  tr : SysSegReg
  cr0 : DWord
  pages : List XlateEntry
  allocated : List AddrRange
  fill : Option Byte
  sgdt16Top : Sgdt16Top
  codeRegion : List AddrRange
  codeStart : Nat
  codeEnd : Nat
  tf : Bool
  nt : Bool
  rf : Bool
  deriving DecidableEq, Repr

/-- The launch part of a state. -/
def State.launchPart (s : State) : LaunchPart where
  mode := s.mode
  cpl := s.cpl
  iopl := s.iopl
  defaultSize := s.defaultSize
  segs := s.segs
  gdtr := s.gdtr
  idtr := s.idtr
  ldtr := s.ldtr
  tr := s.tr
  cr0 := s.cr0
  pages := s.pages
  allocated := s.allocated
  fill := s.mem.fill
  sgdt16Top := s.sgdt16Top
  codeRegion := s.codeRegion
  codeStart := s.codeStart
  codeEnd := s.codeEnd
  tf := s.flags.tf
  nt := s.flags.nt
  rf := s.flags.rf

/-- A final state: EIP = End, or wrapped to an End at the end of the offset range, and no exception (R264,
R266; log entry 15). -/
def State.Final (s : State) : Prop := s.faulted = none ∧ s.nextOffset = s.codeEnd

/-- `t` is reached from `s` by steps that all answer a next state. -/
def State.Reaches (s t : State) : Prop := ∃ k, Host.Core.run core k s = .next t

/-- A run from `s` that ends as R264 says, with no exception, fault or refusal on the way. -/
def State.EndsWell (s : State) : Prop := ∃ t, s.Reaches t ∧ t.Final

end Sys2Proof.Machine
end

