-- ==== Sys2Proof/Certificates/Slice0/Vocabulary.lean ====
section
/-! DEFINITION. The terms of the statements: the rows of the opcode table by operation and operands, and
the rules' own arithmetic on numbers (R14, R17, R18, R114 to R119, R151, R172, R180, R183). -/

namespace Sys2Proof.Machine.Spec

/-! ### The rows of the opcode table -/

/-- The second operand of a subtraction with an r/m destination. -/
inductive SubSrc (w : Width) where
  | imm (v : BitVec w.bits)
  | reg (r : RegNo)

/-- The descriptor-table registers (R170, R171). -/
inductive TableName where
  | gdtr | idtr
  deriving DecidableEq

/-- The sixteen-bit system values (R186, R189, R207). -/
inductive WordName where
  | ldtr | tr | msw
  deriving DecidableEq

/-- What a row of the opcode table does, and to what. -/
inductive Row where
  | sahf | stc | std | sti
  | shift (op : ShiftOp) (w : Width) (src : CountSrc) (rm : RM)
  | subAcc (w : Width) (borrow : Bool) (imm : BitVec w.bits)
  | subToRM (w : Width) (borrow : Bool) (rm : RM) (src : SubSrc w)
  | subFromRM (w : Width) (borrow : Bool) (r : RegNo) (rm : RM)
  | scas (w : Width) (p : Pfx) (rep : Option RepCond)
  | stos (w : Width) (p : Pfx) (rep : Bool)
  | setcc (c : Cond) (rm : RM)
  | table (t : TableName) (p : Pfx) (rm : RM)
  | word (v : WordName) (rm : RM)
  | dshift (op : DShiftOp) (w : Width) (src : CountSrc) (rm : RM) (r : RegNo)

/-- The row of every constructor: SAL is SHL (R117), an imm8 against a word or dword is sign-extended
(R133, R213), the SETcc mnemonics name sixteen conditions (R151). -/
def row : Instr → Row
  | .sahf _ => .sahf
  | .salRm8One _ rm => .shift .shl .w8 .one rm
  | .salRm8Cl _ rm => .shift .shl .w8 .cl rm
  | .salRm8Imm8 _ rm imm => .shift .shl .w8 (.imm imm) rm
  | .salRm16One _ rm => .shift .shl .w16 .one rm
  | .salRm16Cl _ rm => .shift .shl .w16 .cl rm
  | .salRm16Imm8 _ rm imm => .shift .shl .w16 (.imm imm) rm
  | .salRm32One _ rm => .shift .shl .w32 .one rm
  | .salRm32Cl _ rm => .shift .shl .w32 .cl rm
  | .salRm32Imm8 _ rm imm => .shift .shl .w32 (.imm imm) rm
  | .sarRm8One _ rm => .shift .sar .w8 .one rm
  | .sarRm8Cl _ rm => .shift .sar .w8 .cl rm
  | .sarRm8Imm8 _ rm imm => .shift .sar .w8 (.imm imm) rm
  | .sarRm16One _ rm => .shift .sar .w16 .one rm
  | .sarRm16Cl _ rm => .shift .sar .w16 .cl rm
  | .sarRm16Imm8 _ rm imm => .shift .sar .w16 (.imm imm) rm
  | .sarRm32One _ rm => .shift .sar .w32 .one rm
  | .sarRm32Cl _ rm => .shift .sar .w32 .cl rm
  | .sarRm32Imm8 _ rm imm => .shift .sar .w32 (.imm imm) rm
  | .shlRm8One _ rm => .shift .shl .w8 .one rm
  | .shlRm8Cl _ rm => .shift .shl .w8 .cl rm
  | .shlRm8Imm8 _ rm imm => .shift .shl .w8 (.imm imm) rm
  | .shlRm16One _ rm => .shift .shl .w16 .one rm
  | .shlRm16Cl _ rm => .shift .shl .w16 .cl rm
  | .shlRm16Imm8 _ rm imm => .shift .shl .w16 (.imm imm) rm
  | .shlRm32One _ rm => .shift .shl .w32 .one rm
  | .shlRm32Cl _ rm => .shift .shl .w32 .cl rm
  | .shlRm32Imm8 _ rm imm => .shift .shl .w32 (.imm imm) rm
  | .shrRm8One _ rm => .shift .shr .w8 .one rm
  | .shrRm8Cl _ rm => .shift .shr .w8 .cl rm
  | .shrRm8Imm8 _ rm imm => .shift .shr .w8 (.imm imm) rm
  | .shrRm16One _ rm => .shift .shr .w16 .one rm
  | .shrRm16Cl _ rm => .shift .shr .w16 .cl rm
  | .shrRm16Imm8 _ rm imm => .shift .shr .w16 (.imm imm) rm
  | .shrRm32One _ rm => .shift .shr .w32 .one rm
  | .shrRm32Cl _ rm => .shift .shr .w32 .cl rm
  | .shrRm32Imm8 _ rm imm => .shift .shr .w32 (.imm imm) rm
  | .sbbAlImm8 _ imm => .subAcc .w8 true imm
  | .sbbAxImm16 _ imm => .subAcc .w16 true imm
  | .sbbEaxImm32 _ imm => .subAcc .w32 true imm
  | .sbbRm8Imm8 _ rm imm => .subToRM .w8 true rm (.imm imm)
  | .sbbRm16Imm16 _ rm imm => .subToRM .w16 true rm (.imm imm)
  | .sbbRm32Imm32 _ rm imm => .subToRM .w32 true rm (.imm imm)
  | .sbbRm16Imm8 _ rm imm => .subToRM .w16 true rm (.imm (imm.signExtend 16))
  | .sbbRm32Imm8 _ rm imm => .subToRM .w32 true rm (.imm (imm.signExtend 32))
  | .sbbRm8R8 _ rm r => .subToRM .w8 true rm (.reg r)
  | .sbbRm16R16 _ rm r => .subToRM .w16 true rm (.reg r)
  | .sbbRm32R32 _ rm r => .subToRM .w32 true rm (.reg r)
  | .sbbR8Rm8 _ rm r => .subFromRM .w8 true r rm
  | .sbbR16Rm16 _ rm r => .subFromRM .w16 true r rm
  | .sbbR32Rm32 _ rm r => .subFromRM .w32 true r rm
  | .scasM8 p rep => .scas .w8 p rep
  | .scasM16 p rep => .scas .w16 p rep
  | .scasM32 p rep => .scas .w32 p rep
  | .scasb p rep => .scas .w8 p rep
  | .scasw p rep => .scas .w16 p rep
  | .scasd p rep => .scas .w32 p rep
  | .seta _ rm => .setcc .a rm
  | .setae _ rm => .setcc .ae rm
  | .setb _ rm => .setcc .b rm
  | .setbe _ rm => .setcc .be rm
  | .setc _ rm => .setcc .b rm
  | .sete _ rm => .setcc .e rm
  | .setg _ rm => .setcc .g rm
  | .setge _ rm => .setcc .ge rm
  | .setl _ rm => .setcc .l rm
  | .setle _ rm => .setcc .le rm
  | .setna _ rm => .setcc .be rm
  | .setnae _ rm => .setcc .b rm
  | .setnb _ rm => .setcc .ae rm
  | .setnbe _ rm => .setcc .a rm
  | .setnc _ rm => .setcc .ae rm
  | .setne _ rm => .setcc .ne rm
  | .setng _ rm => .setcc .le rm
  | .setnge _ rm => .setcc .l rm
  | .setnl _ rm => .setcc .ge rm
  | .setnle _ rm => .setcc .g rm
  | .setno _ rm => .setcc .no rm
  | .setnp _ rm => .setcc .np rm
  | .setns _ rm => .setcc .ns rm
  | .setnz _ rm => .setcc .ne rm
  | .seto _ rm => .setcc .o rm
  | .setp _ rm => .setcc .p rm
  | .setpe _ rm => .setcc .p rm
  | .setpo _ rm => .setcc .np rm
  | .sets _ rm => .setcc .s rm
  | .setz _ rm => .setcc .e rm
  | .sgdt p rm => .table .gdtr p rm
  | .sidt p rm => .table .idtr p rm
  | .shldRm16R16Imm8 _ rm r imm => .dshift .shld .w16 (.imm imm) rm r
  | .shldRm32R32Imm8 _ rm r imm => .dshift .shld .w32 (.imm imm) rm r
  | .shldRm16R16Cl _ rm r => .dshift .shld .w16 .cl rm r
  | .shldRm32R32Cl _ rm r => .dshift .shld .w32 .cl rm r
  | .shrdRm16R16Imm8 _ rm r imm => .dshift .shrd .w16 (.imm imm) rm r
  | .shrdRm32R32Imm8 _ rm r imm => .dshift .shrd .w32 (.imm imm) rm r
  | .shrdRm16R16Cl _ rm r => .dshift .shrd .w16 .cl rm r
  | .shrdRm32R32Cl _ rm r => .dshift .shrd .w32 .cl rm r
  | .sldt _ rm => .word .ldtr rm
  | .smsw _ rm => .word .msw rm
  | .stc _ => .stc
  | .std _ => .std
  | .sti _ => .sti
  | .stosM8 p rep => .stos .w8 p rep
  | .stosM16 p rep => .stos .w16 p rep
  | .stosM32 p rep => .stos .w32 p rep
  | .stosb p rep => .stos .w8 p rep
  | .stosw p rep => .stos .w16 p rep
  | .stosd p rep => .stos .w32 p rep
  | .str _ rm => .word .tr rm
  | .subAlImm8 _ imm => .subAcc .w8 false imm
  | .subAxImm16 _ imm => .subAcc .w16 false imm
  | .subEaxImm32 _ imm => .subAcc .w32 false imm
  | .subRm8Imm8 _ rm imm => .subToRM .w8 false rm (.imm imm)
  | .subRm16Imm16 _ rm imm => .subToRM .w16 false rm (.imm imm)
  | .subRm32Imm32 _ rm imm => .subToRM .w32 false rm (.imm imm)
  | .subRm16Imm8 _ rm imm => .subToRM .w16 false rm (.imm (imm.signExtend 16))
  | .subRm32Imm8 _ rm imm => .subToRM .w32 false rm (.imm (imm.signExtend 32))
  | .subRm8R8 _ rm r => .subToRM .w8 false rm (.reg r)
  | .subRm16R16 _ rm r => .subToRM .w16 false rm (.reg r)
  | .subRm32R32 _ rm r => .subToRM .w32 false rm (.reg r)
  | .subR8Rm8 _ rm r => .subFromRM .w8 false r rm
  | .subR16Rm16 _ rm r => .subFromRM .w16 false r rm
  | .subR32Rm32 _ rm r => .subFromRM .w32 false r rm

/-! ### EIP, flags, values -/

/-- Where EIP wraps: 2^16 or 2^32 (R14). -/
def offsetLimit (s : State) : Nat :=
  match s.defaultSize with
  | .s16 => 65536
  | .s32 => 4294967296

/-- `EIP <- EIP + L` mod 2^16 or 2^32 (R14), whether it has wrapped (log entry 15), and IntInhibit cleared by
a completed instruction (R196). -/
def advanced (i : Instr) (s : State) : State :=
  { s with
    eip := BitVec.ofNat 32 ((s.eip.toNat + i.length) % offsetLimit s)
    wrapped := s.wrapped || decide (offsetLimit s ≤ s.eip.toNat + i.length)
    intInhibit := false }

/-- The state as an exception leaves it (R232): unchanged but for the mark and IntInhibit (R196). -/
def excepted (x : Exc) (s : State) : State :=
  { s with faulted := some ⟨x, s.eip⟩, intInhibit := false }

/-- The number of 1 bits among bits 7:0 is even (R17). -/
def parityEven (r : Nat) : Bool := (List.range 8).countP (fun k => r.testBit k) % 2 == 0

/-- SetSZP_N(r) on the number r (R17). -/
def szp (w : Width) (r : Nat) (f : Flags) : Flags :=
  { f with
    sf := decide (2 ^ (w.bits - 1) ≤ r % 2 ^ w.bits)
    zf := decide (r % 2 ^ w.bits = 0)
    pf := parityEven r }

/-- The borrow a row reads: CF for SBB, 0 for SUB (R130, R210). -/
def borrowIn (borrow : Bool) (s : State) : Nat := if borrow then s.flags.cf.toNat else 0

/-- `(a - b - c) mod 2^N` (R18). -/
def subValue {w : Width} (a b : BitVec w.bits) (c : Nat) : BitVec w.bits :=
  BitVec.ofInt w.bits ((a.toNat : Int) - b.toNat - c)

/-- The six flags of `a - b - c` in the words of R18: the borrow out, the signed difference outside its
range, the borrow out of bit 3, and the result's SF, ZF, PF. -/
def subFlags {w : Width} (a b : BitVec w.bits) (c : Nat) (f : Flags) : Flags :=
  { szp w (subValue a b c).toNat f with
    cf := decide (a.toNat < b.toNat + c)
    ofl := decide (a.toInt - b.toInt - c < -(2 : Int) ^ (w.bits - 1)
      ∨ (2 : Int) ^ (w.bits - 1) ≤ a.toInt - b.toInt - c)
    af := decide (a.toNat % 16 < b.toNat % 16 + c) }

/-- The result of a shift by COUNT (R117, R118, R119), floor division for SAR. -/
def shiftValue {w : Width} (op : ShiftOp) (v : BitVec w.bits) (count : Nat) : BitVec w.bits :=
  match op with
  | .shl => BitVec.ofNat w.bits (v.toNat * 2 ^ count)
  | .shr => BitVec.ofNat w.bits (v.toNat / 2 ^ count)
  | .sar => BitVec.ofInt w.bits (v.toInt / 2 ^ count)

/-- The carry of a shift by COUNT of at least 1 (R117, R118, R119). -/
def shiftCarry {w : Width} (op : ShiftOp) (v : BitVec w.bits) (count : Nat) : Bool :=
  match op with
  | .shl => decide (count ≤ w.bits) && v.toNat.testBit (w.bits - count)
  | .shr => decide (count ≤ w.bits) && v.toNat.testBit (count - 1)
  | .sar => v.toNat.testBit (min count w.bits - 1)

/-- OF of a shift by 1 (R116). -/
def shiftOverflow {w : Width} (op : ShiftOp) (v : BitVec w.bits) : Bool :=
  match op with
  | .shl => v.toNat.testBit (w.bits - 2) != v.toNat.testBit (w.bits - 1)
  | .shr => v.toNat.testBit (w.bits - 1)
  | .sar => false

/-- One pass of the source's loop (R115) over the operand and CF. -/
def shiftStep {w : Width} (op : ShiftOp) (x : BitVec w.bits × Bool) : BitVec w.bits × Bool :=
  match op with
  | .shl => (BitVec.ofNat w.bits (x.1.toNat * 2), x.1.msb)
  | .shr => (BitVec.ofNat w.bits (x.1.toNat / 2), x.1.getLsbD 0)
  | .sar => (BitVec.ofInt w.bits (x.1.toInt / 2), x.1.getLsbD 0)

/-- The result of SHLD and SHRD as a slice of the concatenation (R180, R183), 0 < s < N. -/
def dshiftValue {w : Width} (op : DShiftOp) (v inBits : BitVec w.bits) (s : Nat) : BitVec w.bits :=
  match op with
  | .shld => BitVec.ofNat w.bits ((v.toNat * 2 ^ w.bits + inBits.toNat) / 2 ^ (w.bits - s))
  | .shrd => BitVec.ofNat w.bits ((inBits.toNat * 2 ^ w.bits + v.toNat) / 2 ^ s)

/-- The last bit shifted out of SHLD and SHRD (R179, R182). -/
def dshiftCarry {w : Width} (op : DShiftOp) (v : BitVec w.bits) (s : Nat) : Bool :=
  match op with
  | .shld => v.toNat.testBit (w.bits - s)
  | .shrd => v.toNat.testBit (s - 1)

/-- Whether a condition holds (R151). -/
def condTrue (f : Flags) : Cond → Prop
  | .o => f.ofl = true
  | .no => f.ofl = false
  | .b => f.cf = true
  | .ae => f.cf = false
  | .e => f.zf = true
  | .ne => f.zf = false
  | .be => f.cf = true ∨ f.zf = true
  | .a => f.cf = false ∧ f.zf = false
  | .s => f.sf = true
  | .ns => f.sf = false
  | .p => f.pf = true
  | .np => f.pf = false
  | .l => f.sf ≠ f.ofl
  | .ge => f.sf = f.ofl
  | .le => f.zf = true ∨ f.sf ≠ f.ofl
  | .g => f.zf = false ∧ f.sf = f.ofl

/-- The negation that pairs the conditions (R151). -/
def condNot : Cond → Cond
  | .o => .no | .no => .o | .b => .ae | .ae => .b | .e => .ne | .ne => .e | .be => .a | .a => .be
  | .s => .ns | .ns => .s | .p => .np | .np => .p | .l => .ge | .ge => .l | .le => .g | .g => .le

/-! ### Registers and addresses -/

/-- Where `regN[n]` lies (R11, R12): its 32-bit register and its lowest bit. -/
def field (w : Width) (n : RegNo) : RegNo × Nat :=
  match w, n with
  | .w8, .n0 => (.n0, 0) | .w8, .n1 => (.n1, 0) | .w8, .n2 => (.n2, 0) | .w8, .n3 => (.n3, 0)
  | .w8, .n4 => (.n0, 8) | .w8, .n5 => (.n1, 8) | .w8, .n6 => (.n2, 8) | .w8, .n7 => (.n3, 8)
  | .w16, n => (n, 0)
  | .w32, n => (n, 0)

/-- The registers of a 16-bit addressing form (R82). -/
def baseRegs : Base16 → List RegNo
  | .bxsi => [.n3, .n6] | .bxdi => [.n3, .n7] | .bpsi => [.n5, .n6] | .bpdi => [.n5, .n7]
  | .si => [.n6] | .di => [.n7] | .bp => [.n5] | .bx => [.n3]

/-- The displacement of a 16-bit form as a signed number (R82). -/
def disp16Int : Disp16 → Int
  | .none => 0
  | .d8 v => v.toInt
  | .d16 v => v.toNat

/-- The displacement of a 32-bit form as a signed number (R83). -/
def disp32Int : Disp32 → Int
  | .none => 0
  | .d8 v => v.toInt
  | .d32 v => v.toNat

/-- `index_value * 2^scale`, 0 for no index (R85). -/
def indexNat (r : Regs) : Option (RegNo × Scale) → Nat
  | none => 0
  | some (n, s) => (r.get32 n).toNat * 2 ^ s.toBits.toNat

/-- (E)DI moved by one element of `n` bytes, up or down as DF says, wrapping at its width (R141). -/
def movedIndex (a : Size) (df : Bool) (n : Nat) (r : Regs) : Regs :=
  match a with
  | .s16 => r.put .w16 .n7
      (BitVec.ofInt 16 ((r.get .w16 .n7).toNat + (if df then -(n : Int) else n)))
  | .s32 => r.put .w32 .n7
      (BitVec.ofInt 32 ((r.get .w32 .n7).toNat + (if df then -(n : Int) else n)))

/-- CX or ECX (R147, R204). -/
def countOf (a : Size) (r : Regs) : Nat :=
  match a with
  | .s16 => r.ecx.toNat % 65536
  | .s32 => r.ecx.toNat

/-- CX or ECX replaced; a 16-bit count leaves bits 31:16 of ECX (R11, R147). -/
def withCount (a : Size) (n : Nat) (r : Regs) : Regs :=
  match a with
  | .s16 => r.put .w16 .n1 (BitVec.ofNat 16 n)
  | .s32 => r.put .w32 .n1 (BitVec.ofNat 32 n)

/-- The sixteen-bit system value (R186, R189, R207). -/
def wordValue (s : State) : WordName → Word
  | .ldtr => s.ldtr.selector
  | .tr => s.tr.selector
  | .msw => BitVec.ofNat 16 (s.cr0.toNat % 65536)

/-- The descriptor-table register (R170, R171). -/
def tableValue (s : State) : TableName → TableReg
  | .gdtr => s.gdtr
  | .idtr => s.idtr

/-- The value of the second operand of a subtraction. -/
def subSrcValue {w : Width} (s : State) : SubSrc w → BitVec w.bits
  | .imm v => v
  | .reg r => s.regs.get w r

/-- The first five bytes SGDT and SIDT store: LIMIT, then BASE[23:0] (R172). -/
def tableBytes5 (t : TableReg) : List Byte :=
  [t.limit.extractLsb' 0 8, t.limit.extractLsb' 8 8, t.base.extractLsb' 0 8, t.base.extractLsb' 8 8,
    t.base.extractLsb' 16 8]

/-! ### What an instruction reads, writes and checks -/

/-- A register destination, or the segment, offset and size in bytes of a memory destination. -/
inductive Dest where
  | reg (w : Width) (n : RegNo)
  | mem (seg : SegName) (off n : Nat)

/-- The r/m operand as a destination of `n` bytes. -/
def rmDest (s : State) (w : Width) : RM → Dest
  | .reg n => .reg w n
  | .mem m => .mem (memSegment m) (memOffset s m) w.bytes

/-- The explicit destination of an instruction that writes one (R57): none for SAHF, STC, STD, STI, SCAS,
for a repeated STOS with count 0, for SHLD and SHRD by 0, and where the instruction is not recognized. -/
def dest (s : State) : Row → Option Dest
  | .sahf | .stc | .std | .sti => none
  | .shift _ w _ rm => some (rmDest s w rm)
  | .subAcc w _ _ => some (.reg w .n0)
  | .subToRM w _ rm _ => some (rmDest s w rm)
  | .subFromRM w _ r _ => some (.reg w r)
  | .scas _ _ _ => none
  | .stos w p rep =>
    if rep = true ∧ countOf (s.addressSize p) s.regs = 0 then none
    else some (.mem .es (s.index (s.addressSize p)) w.bytes)
  | .setcc _ rm => some (rmDest s .w8 rm)
  | .table _ _ (.reg _) => none
  | .table _ _ (.mem m) => some (.mem (memSegment m) (memOffset s m) 6)
  | .word v rm => if v = .msw ∨ s.mode = .prot then some (rmDest s .w16 rm) else none
  | .dshift _ w src rm _ => if src.count s = 0 then none else some (rmDest s w rm)

/-- The physical addresses of a memory destination that passes its checks; none for any other. -/
def storedAddrs (s : State) (r : Row) : List Nat :=
  match dest s r with
  | some (.mem seg off n) =>
    match s.storeAddrs seg off n with
    | .ok as => as
    | .error _ => []
  | _ => []

/-- The memory operand whose checks an instruction makes (R54 to R56, R178), as a read or as a write. -/
def checked (s : State) : Row → Option (Access × SegName × Nat × Nat)
  | .sahf | .stc | .std | .sti => none
  | .subAcc _ _ _ => none
  | .shift _ w _ (.mem m) => some (.write, memSegment m, memOffset s m, w.bytes)
  | .shift _ _ _ (.reg _) => none
  | .subToRM w _ (.mem m) _ => some (.write, memSegment m, memOffset s m, w.bytes)
  | .subToRM _ _ (.reg _) _ => none
  | .subFromRM w _ _ (.mem m) => some (.read, memSegment m, memOffset s m, w.bytes)
  | .subFromRM _ _ _ (.reg _) => none
  | .scas w p rep =>
    if rep.isSome = true ∧ countOf (s.addressSize p) s.regs = 0 then none
    else some (.read, .es, s.index (s.addressSize p), w.bytes)
  | .stos w p rep =>
    if rep = true ∧ countOf (s.addressSize p) s.regs = 0 then none
    else some (.write, .es, s.index (s.addressSize p), w.bytes)
  | .setcc _ (.mem m) => some (.write, memSegment m, memOffset s m, 1)
  | .setcc _ (.reg _) => none
  | .table _ _ (.mem m) => some (.write, memSegment m, memOffset s m, 6)
  | .table _ _ (.reg _) => none
  | .word v (.mem m) =>
    if v = .msw ∨ s.mode = .prot then some (.write, memSegment m, memOffset s m, 2) else none
  | .word _ (.reg _) => none
  | .dshift _ w _ (.mem m) _ => some (.write, memSegment m, memOffset s m, w.bytes)
  | .dshift _ _ _ (.reg _) _ => none

/-- Whether an instruction also reads the memory operand it writes (R57), after the write check (R56). -/
def readsBack (s : State) : Row → Bool
  | .shift _ _ _ _ | .subToRM _ _ _ _ => true
  | .dshift _ w src _ _ => decide (src.count s ≠ 0 ∧ src.count s < w.bits)
  | _ => false

/-- The causes of `#UD` (R222). -/
def udCause (s : State) : Row → Prop
  | .table _ _ (.reg _) => True
  | .word .ldtr _ => s.mode ≠ .prot
  | .word .tr _ => s.mode ≠ .prot
  | _ => False

/-- The implicit register destinations: (E)DI of SCAS and STOS, (E)CX under a repeat prefix (R13). -/
def implicitRegs : Row → List RegNo
  | .scas _ _ rep => if rep.isSome then [.n7, .n1] else [.n7]
  | .stos _ _ rep => if rep then [.n7, .n1] else [.n7]
  | _ => []

/-- The 32-bit registers an instruction may change. -/
def writtenRegs (s : State) (r : Row) : List RegNo :=
  implicitRegs r ++
    (match dest s r with
      | some (.reg w n) => [(field w n).1]
      | _ => [])

/-- The eight flags of R19. -/
inductive FlagName where
  | of | sf | zf | af | pf | cf | df | if_
  deriving DecidableEq

/-- A flag's value. -/
def flag (f : Flags) : FlagName → Bool
  | .of => f.ofl | .sf => f.sf | .zf => f.zf | .af => f.af
  | .pf => f.pf | .cf => f.cf | .df => f.df | .if_ => f.ifl

/-- The flags an instruction writes, the rows of R19. -/
def writtenFlags (s : State) : Row → List FlagName
  | .sahf => [.sf, .zf, .af, .pf, .cf]
  | .shift _ _ src _ => if src.count s = 0 then [] else [.of, .sf, .zf, .af, .pf, .cf]
  | .subAcc _ _ _ | .subToRM _ _ _ _ | .subFromRM _ _ _ _ | .scas _ _ _ => [.of, .sf, .zf, .af, .pf, .cf]
  | .setcc _ _ | .table _ _ _ | .word _ _ | .stos _ _ _ => []
  | .dshift _ _ src _ _ => if src.count s = 0 then [] else [.of, .sf, .zf, .af, .pf, .cf]
  | .stc => [.cf]
  | .std => [.df]
  | .sti => [.if_]

/-- Two outcomes that differ at most in EIP, with whether it wrapped, and in AF. -/
def sameButEipAndAf : Host.Outcome State Fault Refusal → Host.Outcome State Fault Refusal → Prop
  | .next t, .next u => { t with eip := u.eip, wrapped := u.wrapped, flags := { t.flags with af := u.flags.af } } = u
  | .fault f, .fault g => f = g
  | .refused r, .refused q => r = q
  | _, _ => False

/-- An outcome that is stuck at the byte `a`: it holds no memory (R44), or no value (R30). -/
def stuckAt (s : State) (o : Host.Outcome State Fault Refusal) (a : Nat) : Prop :=
  (inRanges s.allocated a = false ∧ o = .fault (.unallocated a))
    ∨ (s.mem.read a = none ∧ o = .fault (.noValue a))

/-! ### Prefixes -/

/-- The group of a prefix byte (R73): 66, 67, the overrides, F2 and F3. -/
def prefixGroup (b : Byte) : Option Nat :=
  if b = 0x66#8 then some 0
  else if b = 0x67#8 then some 1
  else if b ∈ [0x26#8, 0x2E#8, 0x36#8, 0x3E#8, 0x64#8, 0x65#8] then some 2
  else if b ∈ [0xF2#8, 0xF3#8] then some 3
  else none

end Sys2Proof.Machine.Spec
end

