-- ==== Sys2Proof/Certificates/Slice0/Obligations.lean ====
section
/-! DEFINITION. The statements for the provers. Each docstring names the rule of spec/ it formalises. -/

open Sys2Proof Sys2Proof.Machine

/-! ### Fetch, decode, encode -/

/-- R99: when the bytes at CS:EIP (none, once EIP has wrapped: log entry 15), fetched one by one, are exactly the bytes of an instruction, a step is
`exec` of it. The step adds nothing around `exec`. -/
def Obligations.StepRunsDecodedInstruction : Prop :=
  ∀ (s : State) (bs : List Byte) (i : Instr),
    s.faulted = none → s.nextOffset ≠ s.codeEnd → decode s.defaultSize bs = .ok (i, []) →
    (∀ k (h : k < bs.length), s.fetchByte (s.nextOffset + k) = .ok bs[k]) →
    step s = exec i s

/-- A few words of the spec's test vectors, one per family, decode to their instructions. -/
def Obligations.SampleWordsDecode : Prop :=
  decode .s16 [0x9E#8] = .ok (.sahf ⟨false, false⟩, [])
    ∧ decode .s32 [0xC1#8, 0xE8#8, 0x1F#8] = .ok (.shrRm32Imm8 ⟨false, false⟩ (.reg .n0) 0x1F#8, [])
    ∧ decode .s16 [0x83#8, 0x68#8, 0x10#8, 0x05#8]
        = .ok (.subRm16Imm8 ⟨false, false⟩ (.mem ⟨none, .a16 (.based .bxsi (.d8 0x10#8))⟩) 0x05#8, [])
    ∧ decode .s32 [0x83#8, 0xDB#8, 0xFF#8] = .ok (.sbbRm32Imm8 ⟨false, false⟩ (.reg .n3) 0xFF#8, [])
    ∧ decode .s16 [0xF2#8, 0xAE#8] = .ok (.scasb ⟨false, false⟩ (some .repne), [])
    ∧ decode .s32 [0x0F#8, 0x9F#8, 0xC0#8] = .ok (.setg ⟨false, false⟩ (.reg .n0), [])
    ∧ decode .s16 [0x0F#8, 0x01#8, 0x0E#8, 0x00#8, 0x20#8]
        = .ok (.sidt ⟨false, false⟩ (.mem ⟨none, .a16 (.direct 0x2000#16)⟩), [])
    ∧ decode .s32 [0x0F#8, 0xA4#8, 0xD8#8, 0x04#8]
        = .ok (.shldRm32R32Imm8 ⟨false, false⟩ (.reg .n0) .n3 0x04#8, [])
    ∧ decode .s16 [0x0F#8, 0x00#8, 0xC9#8] = .ok (.str ⟨false, false⟩ (.reg .n1), [])
    ∧ decode .s32 [0x66#8, 0xF3#8, 0xAB#8] = .ok (.stosw ⟨true, false⟩ true, [])
    ∧ decode .s32 [0x28#8, 0x84#8, 0x8D#8, 0x78#8, 0x56#8, 0x34#8, 0x12#8]
        = .ok (.subRm8R8 ⟨false, false⟩
            (.mem ⟨none, .a32 (.sib .n5 (some (.n1, .x4)) (.d32 0x12345678#32))⟩) .n0, [])

/-- R70 to R91, R97: decoding the encoding of any well-formed instruction, whatever follows, gives that
instruction, under its canonical name. -/
def Obligations.DecodeOfEncode : Prop :=
  ∀ (d : Size) (i : Instr) (rest : List Byte), i.wf d = true →
    decode d (encode i ++ rest) = .ok (i.canonical, rest)

/-- R71, R95, R98: whatever the decoder accepts is well-formed, carries its canonical name, and has the
length of the bytes consumed. -/
def Obligations.DecodedIsWellFormedAndMeasured : Prop :=
  ∀ (d : Size) (bs rest : List Byte) (i : Instr), decode d bs = .ok (i, rest) →
    i.wf d = true ∧ i.canonical = i ∧ bs.length = i.length + rest.length

/-- R77: a LOCK prefix anywhere among the prefixes makes the decoder refuse. -/
def Obligations.LockIsRefused : Prop :=
  ∀ (d : Size) (ps rest : List Byte), (∀ b ∈ ps, Spec.prefixGroup b ≠ none ∨ b = 0xF0#8) → 0xF0#8 ∈ ps →
    ∃ e, decode d (ps ++ rest) = .error e

/-- R73: prefixes of different groups are accepted in any order with the same result, and any string with
two prefixes of one group is refused. -/
def Obligations.OnePrefixOfEachGroup : Prop :=
  (∀ (d : Size) (ps qs rest : List Byte), (∀ b ∈ ps, Spec.prefixGroup b ≠ none) →
      (ps.map Spec.prefixGroup).Nodup → ps.Perm qs → decode d (ps ++ rest) = decode d (qs ++ rest))
    ∧ ∀ (d : Size) (ps rest : List Byte), (∀ b ∈ ps, Spec.prefixGroup b ≠ none) →
      ¬ (ps.map Spec.prefixGroup).Nodup → decode d (ps ++ rest) = .error .repeatedPrefix

/-- R74, R76: an accepted instruction carries exactly the prefixes that stand before it: an override only on a
memory operand, F2 and F3 only where the instruction has a repeat prefix. -/
def Obligations.AcceptedPrefixesAreTheInstructions : Prop :=
  ∀ (d : Size) (bs tail rest : List Byte) (x : Prefixes) (i : Instr),
    readPrefixes Prefixes.empty bs = .ok (x, tail) → decode d bs = .ok (i, rest) →
    i.encoding.pfx = x.pfx ∧ i.encoding.rep = x.rep ∧ i.encoding.modrm.bind (·.2.override) = x.seg

/-- R80, R93: a `/digit` that no row has is refused as out of scope, whatever the rest of the bytes. -/
def Obligations.UnlistedDigitsAreOutOfScope : Prop :=
  ∀ (d : Size) (m : Byte) (rest : List Byte),
    (∀ op ∈ [0xC0#8, 0xC1#8, 0xD0#8, 0xD1#8, 0xD2#8, 0xD3#8], midField m ∉ [4#3, 5#3, 7#3] →
        decode d (op :: m :: rest) = .error .outOfScope)
      ∧ (∀ op ∈ [0x80#8, 0x81#8, 0x83#8], midField m ∉ [3#3, 5#3] →
        decode d (op :: m :: rest) = .error .outOfScope)
      ∧ (midField m ∉ [0#3, 1#3] → decode d (0x0F#8 :: 0x00#8 :: m :: rest) = .error .outOfScope)
      ∧ (midField m ∉ [0#3, 1#3, 4#3] → decode d (0x0F#8 :: 0x01#8 :: m :: rest) = .error .outOfScope)

/-- R97: a mnemonic that shares an encoding has the same bytes and the same meaning in every state. The two
names run one instruction, so they take the same draws (log entry 11). -/
def Obligations.SynonymsAgree : Prop :=
  ∀ (i : Instr) (s : State), encode i.canonical = encode i ∧ exec i.canonical s = exec i s

/-! ### Registers, addresses, memory -/

/-- R11, R12: bit by bit, what a register of any width and number reads and what a write to it changes. -/
def Obligations.RegisterAliasing : Prop :=
  ∀ (w : Width) (r : Regs) (n : RegNo) (v : BitVec w.bits),
    (∀ k, k < w.bits →
        (r.get w n).getLsbD k = (r.get32 (Spec.field w n).1).getLsbD ((Spec.field w n).2 + k))
      ∧ ∀ (m : RegNo) (k : Nat), k < 32 →
        ((r.put w n v).get32 m).getLsbD k =
          if m = (Spec.field w n).1 ∧ (Spec.field w n).2 ≤ k ∧ k < (Spec.field w n).2 + w.bits then
            v.getLsbD (k - (Spec.field w n).2)
          else (r.get32 m).getLsbD k

/-- R84: the 16-bit effective address. -/
def Obligations.EffectiveAddress16 : Prop :=
  ∀ (r : Regs) (b : Base16) (x : Disp16),
    ((ea16 r (.based b x)).toNat : Int) =
        (((Spec.baseRegs b).map fun n => (r.get32 n).toNat % 65536).sum + Spec.disp16Int x) % 65536
      ∧ ∀ v : Word, ea16 r (.direct v) = v

/-- R85: the 32-bit effective address, for every form. -/
def Obligations.EffectiveAddress32 : Prop :=
  ∀ (r : Regs) (b : RegNo) (i : Option (RegNo × Scale)) (x : Disp32) (v : DWord),
    ((ea32 r (.based b x)).toNat : Int) = ((r.get32 b).toNat + Spec.disp32Int x) % 4294967296
      ∧ ((ea32 r (.sib b i x)).toNat : Int)
          = ((r.get32 b).toNat + Spec.indexNat r i + Spec.disp32Int x) % 4294967296
      ∧ (ea32 r (.sibDirect i v)).toNat = (Spec.indexNat r i + v.toNat) % 4294967296
      ∧ ea32 r (.direct v) = v

/-- R82, R83, R86: the override names the segment; without one it is SS exactly when the base register is
BP, EBP or ESP, else DS, and a SIB index never matters. -/
def Obligations.SegmentOfMemoryOperand : Prop :=
  (∀ (g : SegName) (a : Addr), memSegment ⟨some g, a⟩ = g)
    ∧ (∀ (b : Base16) (x : Disp16),
        memSegment ⟨none, .a16 (.based b x)⟩ = if RegNo.n5 ∈ Spec.baseRegs b then .ss else .ds)
    ∧ (∀ (b : RegNo) (x : Disp32),
        memSegment ⟨none, .a32 (.based b x)⟩ = if b = .n4 ∨ b = .n5 then .ss else .ds)
    ∧ (∀ (b : RegNo) (i : Option (RegNo × Scale)) (x : Disp32),
        memSegment ⟨none, .a32 (.sib b i x)⟩ = if b = .n4 ∨ b = .n5 then .ss else .ds)
    ∧ (∀ (i : Option (RegNo × Scale)) (v : DWord) (u : Word),
        memSegment ⟨none, .a32 (.sibDirect i v)⟩ = .ds ∧ memSegment ⟨none, .a32 (.direct v)⟩ = .ds
          ∧ memSegment ⟨none, .a16 (.direct u)⟩ = .ds)

/-- R42: outside Protected Mode an operand takes Interrupt 13 exactly when one of its bytes lies beyond offset
0xFFFF. -/
def Obligations.RealModeOffsetTest : Prop :=
  ∀ (s : State) (seg : SegName) (off n : Nat) (k : Access), s.mode ≠ .prot → 0 < n →
    (s.operandAddrs seg off n k = .error (.exc .int13) ↔ ∃ j, j < n ∧ 0xFFFF < off + j)

/-- R48 to R51: in Protected Mode, what the segment check of an operand raises: by the rules the launch gave the
segment where one is about the access, else by R50's default over the hidden attributes (log entry 6); an
operand that passes goes on to its page checks. -/
def Obligations.ProtectedModeSegmentTest : Prop :=
  ∀ (s : State) (seg : SegName) (off n : Nat) (k : Access), s.mode = .prot → 0 < n →
    let illegal : Stop := .exc (if seg = .ss then .ss0 else .gp0)
    let g := s.segs.get seg
    (∀ r, g.ruled off n k = some r →
        s.operandAddrs seg off n k =
            (match r with
              | .ok => s.xlateBytes seg off k n
              | .illegal => .error illegal
              | .nonWritable => .error (.exc .gp0))
          ∧ (r = .nonWritable → k = .write) ∧ (r = .ok → off + n ≤ 4294967296))
      ∧ (g.ruled off n k = none →
        (g.kind = .unusable → s.operandAddrs seg off n k = .error illegal)
        ∧ (g.kind = .code false → k = .read → s.operandAddrs seg off n k = .error illegal)
        ∧ (∀ b, g.kind = .code b → k = .write → s.operandAddrs seg off n k = .error (.exc .gp0))
        ∧ (∀ e b, g.kind = .data false e b → k = .write → s.operandAddrs seg off n k = .error (.exc .gp0))
        ∧ (∀ w b, g.kind = .data w false b → (k = .write → w = true) →
            s.operandAddrs seg off n k =
              if off + (n - 1) ≤ g.limit.toNat then s.xlateBytes seg off k n else .error illegal)
        ∧ (∀ w b, g.kind = .data w true b → (k = .write → w = true) →
            s.operandAddrs seg off n k =
              if g.limit.toNat < off ∧ off + (n - 1) ≤ (if b then 0xFFFFFFFF else 0xFFFF) then
                s.xlateBytes seg off k n
              else .error illegal)
        ∧ (g.kind = .code true → k = .read →
            s.operandAddrs seg off n k =
              if off + (n - 1) ≤ g.limit.toNat then s.xlateBytes seg off k n else .error illegal))

/-- R47, R54 to R56, R229: after the segment check each byte is translated at (base + offset) mod 2^32; the
lowest byte that faults decides, and without one the bytes lie where the translation says. -/
def Obligations.PageFaultOfLowestByte : Prop :=
  ∀ (s : State) (seg : SegName) (off n : Nat) (k : Access),
    segExc s.mode seg (segCheck s.mode (s.segs.get seg) off n k) = none →
    let lin := fun j : Nat => BitVec.ofNat 32 (((s.segs.get seg).base.toNat + (off + j)) % 4294967296)
    (∀ j, j < n → (∀ i, i < j → ∃ a, s.pageXlate (lin i) k = .phys a) → ∀ code,
        s.pageXlate (lin j) k = .fault code → s.operandAddrs seg off n k = .error (.exc (.pf code)))
      ∧ ∀ p : Nat → DWord, (∀ j, j < n → s.pageXlate (lin j) k = .phys (p j)) →
        s.operandAddrs seg off n k = .ok ((List.range n).map fun j => (p j).toNat)

/-- R45: little-endian everywhere: what a store of v leaves at each of its addresses and elsewhere, what
bytes read as a number, and how the decoder assembles a word and a doubleword. -/
def Obligations.LittleEndian : Prop :=
  (∀ (s : State) (as : List Nat) (v k : Nat) (h : k < as.length), as.Nodup →
      (s.storeAt as v).mem.read as[k] = some (BitVec.ofNat 8 (v / 2 ^ (8 * k))))
    ∧ (∀ (s : State) (as : List Nat) (v a : Nat), a ∉ as → (s.storeAt as v).mem.read a = s.mem.read a)
    ∧ (∀ (s : State) (w : Width) (seg : SegName) (off : Nat) (as : List Nat) (bs : List Byte),
        s.operandAddrs seg off w.bytes .read = .ok as → s.readAddrs as = .ok bs →
        s.readSeg w seg off =
          .ok (BitVec.ofNat w.bits (∑ k : Fin bs.length, bs[k].toNat * 2 ^ (8 * k.val))))
    ∧ (∀ (b0 b1 : Byte) (rest : List Byte), ∃ v, takeWord (b0 :: b1 :: rest) = .ok (v, rest)
        ∧ v.toNat = b0.toNat + 2 ^ 8 * b1.toNat)
    ∧ ∀ (b0 b1 b2 b3 : Byte) (rest : List Byte), ∃ v, takeDWord (b0 :: b1 :: b2 :: b3 :: rest) = .ok (v, rest)
        ∧ v.toNat = b0.toNat + 2 ^ 8 * b1.toNat + 2 ^ 16 * b2.toNat + 2 ^ 24 * b3.toNat

/-- R58, R44: a checked read of an operand returns the value of the last store to its bytes. -/
def Obligations.LoadReturnsLastStore : Prop :=
  ∀ (s : State) (w : Width) (seg : SegName) (off : Nat) (as : List Nat) (v : BitVec w.bits),
    s.storeAddrs seg off w.bytes = .ok as → s.operandAddrs seg off w.bytes .read = .ok as → as.Nodup →
    (s.storeAt as v.toNat).readSeg w seg off = .ok v

/-- R44: the canonical form makes equal memories equal data: what every address reads decides the memory. -/
def Obligations.CanonicalMemoryIsItsBytes : Prop :=
  ∀ m m' : Memory, m.wf → m'.wf → m.fill = m'.fill → (∀ a, m.read a = m'.read a) → m = m'

/-- R44, R30: an instruction whose checks pass is stuck at a byte that holds no memory, or (the model's fault,
log entries 5 and 27) at a byte it reads that holds no value: the instructions that only read their operand,
the ones that read it before they write it, and every store. -/
def Obligations.StuckWithoutMemory : Prop :=
  (∀ (i : Instr) (s : State) (seg : SegName) (off n : Nat) (as : List Nat),
      Spec.checked s (Spec.row i) = some (.read, seg, off, n) → s.operandAddrs seg off n .read = .ok as →
      (∃ a ∈ as, inRanges s.allocated a = false ∨ s.mem.read a = none) →
      ∃ a ∈ as, Spec.stuckAt s (exec i s) a)
    ∧ (∀ (i : Instr) (s : State) (seg : SegName) (off n : Nat) (as rs : List Nat),
      Spec.checked s (Spec.row i) = some (.write, seg, off, n) → Spec.readsBack s (Spec.row i) = true →
      s.operandAddrs seg off n .write = .ok as → s.operandAddrs seg off n .read = .ok rs →
      (∃ a ∈ rs, inRanges s.allocated a = false ∨ s.mem.read a = none) →
      ∃ a ∈ rs, Spec.stuckAt s (exec i s) a)
    ∧ ∀ (i : Instr) (s : State) (seg : SegName) (off n : Nat) (as : List Nat),
      Spec.checked s (Spec.row i) = some (.write, seg, off, n) → Spec.dest s (Spec.row i) ≠ none →
      (Spec.readsBack s (Spec.row i) = true →
        ∃ rs bs, s.operandAddrs seg off n .read = .ok rs ∧ s.readAddrs rs = .ok bs) →
      s.operandAddrs seg off n .write = .ok as →
      (∀ a ∈ as, inRanges s.codeRegion a = false) → (∃ a ∈ as, inRanges s.allocated a = false) →
      ∃ a ∈ as, inRanges s.allocated a = false ∧ exec i s = .fault (.unallocated a)

/-- R273, R61: a store one of whose bytes lies in CodeRegion is refused, after the exception checks and after
the read of an instruction that reads its destination (log entry 13). -/
def Obligations.StoreIntoCodeIsRefused : Prop :=
  ∀ (i : Instr) (s : State) (seg : SegName) (off n : Nat) (as : List Nat),
    Spec.checked s (Spec.row i) = some (.write, seg, off, n) → Spec.dest s (Spec.row i) ≠ none →
    s.operandAddrs seg off n .write = .ok as → (∃ a ∈ as, inRanges s.codeRegion a = true) →
    (∀ a ∈ as, inRanges s.allocated a = true) →
    (Spec.readsBack s (Spec.row i) = true →
      ∃ rs bs, s.operandAddrs seg off n .read = .ok rs ∧ s.readAddrs rs = .ok bs) →
    ∃ a ∈ as, inRanges s.codeRegion a = true ∧ exec i s = .refused (.storeIntoCode a)

/-! ### Flags and arithmetic -/

/-- R17: SetSZP. -/
def Obligations.ResultFlags : Prop :=
  ∀ (w : Width) (f : Flags) (r : BitVec w.bits), f.setSZP r = Spec.szp w r.toNat f

/-- R18: the result and the six flags of a subtraction with borrow, as numbers. -/
def Obligations.SubtractionFlags : Prop :=
  ∀ (w : Width) (f : Flags) (a b : BitVec w.bits) (c : Bool),
    subResult a b c = Spec.subValue a b c.toNat ∧ f.setSub a b c = Spec.subFlags a b c.toNat f

/-- R151: the sixteen conditions, their pairing by negation, and what they say after `a - b`. -/
def Obligations.ConditionsCompare : Prop :=
  (∀ (f : Flags) (c : Cond), (c.holds f = true ↔ Spec.condTrue f c)
      ∧ c.holds f = !(Spec.condNot c).holds f)
    ∧ ∀ (w : Width) (f : Flags) (a b : BitVec w.bits),
      let g := f.setSub a b false
      (Cond.b.holds g = true ↔ a.toNat < b.toNat) ∧ (Cond.a.holds g = true ↔ b.toNat < a.toNat)
        ∧ (Cond.be.holds g = true ↔ a.toNat ≤ b.toNat) ∧ (Cond.ae.holds g = true ↔ b.toNat ≤ a.toNat)
        ∧ (Cond.e.holds g = true ↔ a = b) ∧ (Cond.ne.holds g = true ↔ a ≠ b)
        ∧ (Cond.l.holds g = true ↔ a.toInt < b.toInt) ∧ (Cond.g.holds g = true ↔ b.toInt < a.toInt)
        ∧ (Cond.le.holds g = true ↔ a.toInt ≤ b.toInt) ∧ (Cond.ge.holds g = true ↔ b.toInt ≤ a.toInt)

/-- R114: COUNT is bits 4:0 of the constant 1, of CL, or of the immediate byte, at every width. -/
def Obligations.CountIsFiveBits : Prop :=
  ∀ (s : State) (v : Byte), CountSrc.count .one s = 1
    ∧ CountSrc.count .cl s = s.regs.ecx.toNat % 32 ∧ CountSrc.count (.imm v) s = v.toNat % 32

/-- R121: (a) the closed forms are the source's loop run COUNT times; (b) the forms by 1, by CL and by imm8
agree whenever the masked count is 1, in the result and every flag but AF, which each draws for itself (R115,
log entry 11); EIP may differ by the instruction's length; (c) a shift by COUNT is COUNT shifts by 1, in result and carry. -/
def Obligations.ShiftEquivalences : Prop :=
  (∀ (w : Width) (op : ShiftOp) (v : BitVec w.bits) (c : Bool) (k : Nat),
      (Spec.shiftStep op)^[0] (v, c) = (op.result v 0, c)
        ∧ (Spec.shiftStep op)^[k + 1] (v, c) = (op.result v (k + 1), op.carry v (k + 1))
        ∧ op.result v (k + 1) = op.result (op.result v k) 1
        ∧ op.carry v (k + 1) = op.carry (op.result v k) 1)
    ∧ ∀ (i j : Instr) (s : State) (op : ShiftOp) (w : Width) (src : CountSrc) (rm : RM),
      Spec.row i = .shift op w .one rm → Spec.row j = .shift op w src rm → src.count s = 1 →
      Spec.sameButEipAndAf (exec i s) (exec j s)

/-- R180: the closed form of SHLD, its bits by the source's loops, and its carry. -/
def Obligations.ShldClosedForm : Prop :=
  ∀ (w : Width) (v x : BitVec w.bits) (s : Nat), 0 < s → s < w.bits →
    DShiftOp.shld.result v x s = Spec.dshiftValue .shld v x s
      ∧ (DShiftOp.shld.result v x s).toNat = (v.toNat * 2 ^ s) % 2 ^ w.bits ||| x.toNat / 2 ^ (w.bits - s)
      ∧ (∀ k, s ≤ k → k < w.bits → (DShiftOp.shld.result v x s).getLsbD k = v.getLsbD (k - s))
      ∧ (∀ k, k < s → (DShiftOp.shld.result v x s).getLsbD k = x.getLsbD (k + w.bits - s))
      ∧ DShiftOp.shld.carry v s = v.getLsbD (w.bits - s)

/-- R183: the closed form of SHRD, its bits by the source's loops, and its carry. -/
def Obligations.ShrdClosedForm : Prop :=
  ∀ (w : Width) (v x : BitVec w.bits) (s : Nat), 0 < s → s < w.bits →
    DShiftOp.shrd.result v x s = Spec.dshiftValue .shrd v x s
      ∧ (DShiftOp.shrd.result v x s).toNat = v.toNat / 2 ^ s ||| (x.toNat * 2 ^ (w.bits - s)) % 2 ^ w.bits
      ∧ (∀ k, k < w.bits - s → (DShiftOp.shrd.result v x s).getLsbD k = v.getLsbD (k + s))
      ∧ (∀ k, w.bits - s ≤ k → k < w.bits →
          (DShiftOp.shrd.result v x s).getLsbD k = x.getLsbD (k + s - w.bits))
      ∧ DShiftOp.shrd.carry v s = v.getLsbD (s - 1)

/-! ### What each instruction does -/

/-- R110: SAHF, in every state: five flags from AH, nothing else; its one byte decodes to it. -/
def Obligations.SahfLoadsFlags : Prop :=
  (∀ (p : Pfx) (s : State), exec (.sahf p) s = .next (Spec.advanced (.sahf p) { s with
      flags := { s.flags with
        sf := s.regs.eax.getLsbD 15
        zf := s.regs.eax.getLsbD 14
        af := s.regs.eax.getLsbD 12
        pf := s.regs.eax.getLsbD 10
        cf := s.regs.eax.getLsbD 8 } }))
    ∧ ∀ (d : Size) (rest : List Byte), decode d (0x9E#8 :: rest) = .ok (.sahf ⟨false, false⟩, rest)

/-- R192: STC, in every state: CF is 1, nothing else changes; its one byte decodes to it. -/
def Obligations.StcSetsCarry : Prop :=
  (∀ (p : Pfx) (s : State),
      exec (.stc p) s = .next (Spec.advanced (.stc p) { s with flags := { s.flags with cf := true } }))
    ∧ ∀ (d : Size) (rest : List Byte), decode d (0xF9#8 :: rest) = .ok (.stc ⟨false, false⟩, rest)

/-- R193: STD, in every state: DF is 1, nothing else changes; its one byte decodes to it; and no instruction
clears DF. -/
def Obligations.StdSetsDirection : Prop :=
  (∀ (p : Pfx) (s : State),
      exec (.std p) s = .next (Spec.advanced (.std p) { s with flags := { s.flags with df := true } }))
    ∧ (∀ (d : Size) (rest : List Byte), decode d (0xFD#8 :: rest) = .ok (.std ⟨false, false⟩, rest))
    ∧ ∀ (i : Instr) (s t : State), exec i s = .next t → s.flags.df = true → t.flags.df = true

/-- R195, R197: STI in every mode and level: where it executes IF is 1 and IntInhibit is set when IF was 0;
in Protected Mode with CPL above IOPL it takes #GP(0) with IF and IntInhibit unchanged; in Virtual 8086 Mode
with IOPL below 3 it is refused. -/
def Obligations.StiInEveryMode : Prop :=
  (∀ (p : Pfx) (s : State),
      (s.mode = .real ∨ (s.mode = .prot ∧ s.cpl.toNat ≤ s.iopl.toNat) ∨ (s.mode = .v86 ∧ s.iopl = 3#2)) →
      exec (.sti p) s = .next { Spec.advanced (.sti p) s with
        flags := { s.flags with ifl := true }
        intInhibit := if s.flags.ifl then false else true })
    ∧ (∀ (p : Pfx) (s : State), s.mode = .prot → s.iopl.toNat < s.cpl.toNat →
      exec (.sti p) s = .next { s with faulted := some ⟨.gp0, s.eip⟩ })
    ∧ (∀ (p : Pfx) (s : State), s.mode = .v86 → s.iopl.toNat < 3 → exec (.sti p) s = .refused .stiV86Iopl)
    ∧ ∀ (d : Size) (rest : List Byte), decode d (0xFB#8 :: rest) = .ok (.sti ⟨false, false⟩, rest)

/-- R196: an instruction other than STI leaves IntInhibit 0 when it completes or faults; an unfinished
repetition, which has done neither, leaves it (log entry 10); an interrupt may be recognized exactly when IF
is 1 and IntInhibit is 0. -/
def Obligations.InterruptInhibitLastsOneInstruction : Prop :=
  (∀ (i : Instr) (s t : State), exec i s = .next t → Spec.row i ≠ .sti →
      t.intInhibit = false
        ∨ (t.intInhibit = s.intInhibit ∧ t.eip = s.eip ∧ t.faulted = s.faulted ∧ i.encoding.rep ≠ none))
    ∧ ∀ s : State, s.mayTakeExternalInterrupt = true ↔ s.flags.ifl = true ∧ s.intInhibit = false

/-- R115 to R119: SAL, SHL, SHR, SAR by a COUNT of at least 1, every form whose operand can be read and
written: the result, CF, SF, ZF, PF by the rules, OF by the rule when COUNT is 1; AF, and OF for other
counts, are free. -/
def Obligations.ShiftResult : Prop :=
  ∀ (i : Instr) (s : State) (op : ShiftOp) (w : Width) (src : CountSrc) (rm : RM) (v : BitVec w.bits)
    (pl : Place), Spec.row i = .shift op w src rm → s.readRM w rm = .ok v → s.rmPlace w rm = .ok pl →
    src.count s ≠ 0 →
    ∃ af ofl d, exec i s = .next (Spec.advanced i { s.put w pl (Spec.shiftValue op v (src.count s)) with
      flags := { Spec.szp w (Spec.shiftValue op v (src.count s)).toNat s.flags with
        cf := Spec.shiftCarry op v (src.count s)
        af := af
        ofl := if src.count s = 1 then Spec.shiftOverflow op v else ofl }
      draws := d })

/-- R115: a shift by a masked COUNT of 0 writes the operand back unchanged and changes no flag. -/
def Obligations.ShiftByZero : Prop :=
  ∀ (i : Instr) (s : State) (op : ShiftOp) (w : Width) (src : CountSrc) (rm : RM) (v : BitVec w.bits)
    (pl : Place), Spec.row i = .shift op w src rm → s.readRM w rm = .ok v → s.rmPlace w rm = .ok pl →
    src.count s = 0 → exec i s = .next (Spec.advanced i (s.put w pl v))

/-- R116: OF after any form of shift with a masked COUNT of 1, also by the source's second reading for left
shifts: the result's high bit against the new CF. -/
def Obligations.OverflowOfSingleShift : Prop :=
  ∀ (i : Instr) (s : State) (op : ShiftOp) (w : Width) (src : CountSrc) (rm : RM) (v : BitVec w.bits)
    (pl : Place), Spec.row i = .shift op w src rm → s.readRM w rm = .ok v → s.rmPlace w rm = .ok pl →
    src.count s = 1 →
    ∃ t, exec i s = .next t ∧ t.flags.ofl = Spec.shiftOverflow op v
      ∧ (op = .shl → t.flags.ofl = (t.flags.sf != t.flags.cf))
      ∧ (op = .shr → t.flags.ofl = v.msb) ∧ (op = .sar → t.flags.ofl = false)

/-- R130, R131, R210, R211: SBB and SUB of an immediate from the accumulator, in every state. -/
def Obligations.SubtractFromAccumulator : Prop :=
  ∀ (i : Instr) (s : State) (w : Width) (c : Bool) (imm : BitVec w.bits), Spec.row i = .subAcc w c imm →
    exec i s = .next (Spec.advanced i { s with
      regs := s.regs.put w .n0 (Spec.subValue (s.regs.get w .n0) imm (Spec.borrowIn c s))
      flags := Spec.subFlags (s.regs.get w .n0) imm (Spec.borrowIn c s) s.flags })

/-- R132 to R134, R212 to R214: SBB and SUB of an immediate or a register from an r/m operand that can be read
and written. -/
def Obligations.SubtractFromRM : Prop :=
  ∀ (i : Instr) (s : State) (w : Width) (c : Bool) (rm : RM) (src : Spec.SubSrc w) (a : BitVec w.bits)
    (pl : Place), Spec.row i = .subToRM w c rm src → s.readRM w rm = .ok a → s.rmPlace w rm = .ok pl →
    exec i s = .next (Spec.advanced i
      { s.put w pl (Spec.subValue a (Spec.subSrcValue s src) (Spec.borrowIn c s)) with
        flags := Spec.subFlags a (Spec.subSrcValue s src) (Spec.borrowIn c s) s.flags })

/-- R135, R215: SBB and SUB of an r/m operand that can be read from a register: the register is the
minuend and receives the result (C4). -/
def Obligations.SubtractRMFromRegister : Prop :=
  ∀ (i : Instr) (s : State) (w : Width) (c : Bool) (r : RegNo) (rm : RM) (b : BitVec w.bits),
    Spec.row i = .subFromRM w c r rm → s.readRM w rm = .ok b →
    exec i s = .next (Spec.advanced i { s with
      regs := s.regs.put w r (Spec.subValue (s.regs.get w r) b (Spec.borrowIn c s))
      flags := Spec.subFlags (s.regs.get w r) b (Spec.borrowIn c s) s.flags })

/-- R140 to R144: SCAS without a repeat prefix, when ES:(E)DI can be read: the flags of accumulator minus
memory, and (E)DI moved. -/
def Obligations.ScasOnce : Prop :=
  ∀ (i : Instr) (s : State) (w : Width) (p : Pfx) (m : BitVec w.bits), Spec.row i = .scas w p none →
    s.readSeg w .es (s.index (s.addressSize p)) = .ok m →
    exec i s = .next (Spec.advanced i { s with
      flags := Spec.subFlags (s.regs.get w .n0) m 0 s.flags
      regs := Spec.movedIndex (s.addressSize p) s.flags.df w.bytes s.regs })

/-- R147: one step of a repeated SCAS: with count 0 it only completes; else one comparison, the count down by
one, and EIP moves on exactly when the count is now 0 or ZF ends the search. That an unfinished iteration keeps
IntInhibit is the model's reading, log entry 10. -/
def Obligations.ScasRepeated : Prop :=
  ∀ (i : Instr) (s : State) (w : Width) (p : Pfx) (k : RepCond), Spec.row i = .scas w p (some k) →
    (Spec.countOf (s.addressSize p) s.regs = 0 → exec i s = .next (Spec.advanced i s))
      ∧ ∀ m : BitVec w.bits, Spec.countOf (s.addressSize p) s.regs ≠ 0 →
        s.readSeg w .es (s.index (s.addressSize p)) = .ok m →
        let n := Spec.countOf (s.addressSize p) s.regs - 1
        let f := Spec.subFlags (s.regs.get w .n0) m 0 s.flags
        let t : State := { s with
          flags := f
          regs := Spec.withCount (s.addressSize p) n
            (Spec.movedIndex (s.addressSize p) s.flags.df w.bytes s.regs) }
        exec i s = .next
          (if n = 0 ∨ (k = .repe ∧ f.zf = false) ∨ (k = .repne ∧ f.zf = true) then Spec.advanced i t else t)

/-- R199 to R203: STOS without a repeat prefix, when ES:(E)DI can be written: the accumulator's bytes at the
addresses of ES:(E)DI, and (E)DI moved. -/
def Obligations.StosOnce : Prop :=
  ∀ (i : Instr) (s : State) (w : Width) (p : Pfx) (as : List Nat), Spec.row i = .stos w p false →
    s.storeAddrs .es (s.index (s.addressSize p)) w.bytes = .ok as →
    exec i s = .next (Spec.advanced i { s.storeAt as (s.regs.get w .n0).toNat with
      regs := Spec.movedIndex (s.addressSize p) s.flags.df w.bytes s.regs })

/-- R204: one step of a repeated STOS: with count 0 it only completes; else one store, the count down by one,
and EIP moves on exactly when the count is now 0. That an unfinished iteration keeps IntInhibit is the model's
reading, log entry 10. -/
def Obligations.StosRepeated : Prop :=
  ∀ (i : Instr) (s : State) (w : Width) (p : Pfx), Spec.row i = .stos w p true →
    (Spec.countOf (s.addressSize p) s.regs = 0 → exec i s = .next (Spec.advanced i s))
      ∧ ∀ as : List Nat, Spec.countOf (s.addressSize p) s.regs ≠ 0 →
        s.storeAddrs .es (s.index (s.addressSize p)) w.bytes = .ok as →
        let n := Spec.countOf (s.addressSize p) s.regs - 1
        let t : State := { s.storeAt as (s.regs.get w .n0).toNat with
          regs := Spec.withCount (s.addressSize p) n
            (Spec.movedIndex (s.addressSize p) s.flags.df w.bytes s.regs) }
        exec i s = .next (if n = 0 then Spec.advanced i t else t)

/-- R150 to R167: SETcc, every mnemonic, when its destination can be written: the byte is 0x01 when the
condition holds, else 0x00, and no flag changes. -/
def Obligations.SetccStoresCondition : Prop :=
  ∀ (i : Instr) (s : State) (c : Cond) (rm : RM) (pl : Place), Spec.row i = .setcc c rm →
    s.rmPlace .w8 rm = .ok pl →
    ∃ b : Byte, exec i s = .next (Spec.advanced i (s.put .w8 pl b))
      ∧ (Spec.condTrue s.flags c → b = 0x01#8) ∧ (¬ Spec.condTrue s.flags c → b = 0x00#8)

/-- R170 to R173, R229: SGDT and SIDT of a memory operand that passes the one check of its six bytes: LIMIT,
BASE[23:0], and in byte 5 BASE[31:24] with operand size 32, SGDT16_TOP or a free byte with operand size 16.
That nothing can fault after that one check is the model's choice, log entry 32. -/
def Obligations.TableStoreLayout : Prop :=
  ∀ (i : Instr) (s : State) (tn : Spec.TableName) (p : Pfx) (m : MemOp) (as : List Nat),
    Spec.row i = .table tn p (.mem m) → s.storeAddrs (memSegment m) (memOffset s m) 6 = .ok as →
    ∃ (top : Byte) (d : Nat), exec i s = .next (Spec.advanced i { s with
        mem := s.mem.writeBytes as (Spec.tableBytes5 (Spec.tableValue s tn) ++ [top])
        draws := d })
      ∧ (s.operandSize p = .s32 → top = (Spec.tableValue s tn).base.extractLsb' 24 8)
      ∧ ∀ b, s.operandSize p = .s16 → s.sgdt16Top = .byte b → top = b

/-- R186, R189, R207: SLDT and STR in Protected Mode and SMSW in every mode, when the destination can be
written: sixteen bits of LDTR, TR or CR0, at every operand size, and nothing else. -/
def Obligations.SystemWordStore : Prop :=
  ∀ (i : Instr) (s : State) (v : Spec.WordName) (rm : RM) (pl : Place), Spec.row i = .word v rm →
    (v = .msw ∨ s.mode = .prot) → s.rmPlace .w16 rm = .ok pl →
    exec i s = .next (Spec.advanced i (s.put .w16 pl (Spec.wordValue s v)))

/-- R178: SHLD and SHRD with ShiftAmt 0: no operation but the write check of a memory operand. -/
def Obligations.DoubleShiftByZero : Prop :=
  ∀ (i : Instr) (s : State) (op : DShiftOp) (w : Width) (src : CountSrc) (rm : RM) (r : RegNo),
    Spec.row i = .dshift op w src rm r → src.count s = 0 →
    (s.checkWriteRM w rm = .ok () → exec i s = .next (Spec.advanced i s))
      ∧ ∀ x, s.checkWriteRM w rm = .error (.exc x) → exec i s = .next (Spec.excepted x s)

/-- R177, R179, R182: SHLD and SHRD with 0 < ShiftAmt < N: the result and CF, SF, ZF, PF by the rules; AF and
OF are free. The second operand and the count are those of the state before. -/
def Obligations.DoubleShiftResult : Prop :=
  ∀ (i : Instr) (s : State) (op : DShiftOp) (w : Width) (src : CountSrc) (rm : RM) (r : RegNo)
    (v : BitVec w.bits) (pl : Place), Spec.row i = .dshift op w src rm r → s.readRM w rm = .ok v →
    s.rmPlace w rm = .ok pl → src.count s ≠ 0 → src.count s < w.bits →
    ∃ af ofl d, exec i s = .next (Spec.advanced i
      { s.put w pl (Spec.dshiftValue op v (s.regs.get w r) (src.count s)) with
        flags := { Spec.szp w (Spec.dshiftValue op v (s.regs.get w r) (src.count s)).toNat s.flags with
          cf := Spec.dshiftCarry op v (src.count s)
          af := af
          ofl := ofl }
        draws := d })

/-- R181: SHLD and SHRD with ShiftAmt at or above N (N = 16): after the write check the destination and the six
flags are free, everything else is as before. -/
def Obligations.DoubleShiftBadParameters : Prop :=
  ∀ (i : Instr) (s : State) (op : DShiftOp) (w : Width) (src : CountSrc) (rm : RM) (r : RegNo),
    Spec.row i = .dshift op w src rm r → w.bits ≤ src.count s →
    w = .w16
      ∧ (∀ x, s.checkWriteRM w rm = .error (.exc x) → exec i s = .next (Spec.excepted x s))
      ∧ ∀ pl, s.rmPlace w rm = .ok pl → ∃ v cf pf af zf sf ofl d,
        exec i s = .next (Spec.advanced i { s.put w pl v with
          flags := { s.flags with cf := cf, pf := pf, af := af, zf := zf, sf := sf, ofl := ofl }
          draws := d })

/-! ### Exceptions -/

/-- R232: an exception changes no register, flag, system register, memory byte or EIP, and marks the state
with its name and EIP (IntInhibit is R196's); and in a marked state no further step is taken. -/
def Obligations.ExceptionMarksAndEnds : Prop :=
  (∀ s t : State, step s = .next t → ∀ m, t.faulted = some m →
      m.eip = s.eip ∧ t = { s with faulted := some m, intInhibit := t.intInhibit })
    ∧ ∀ (s : State) (m : FaultMark), s.faulted = some m → step s = .fault (.afterException m.exc m.eip)

/-- R120, R136, R145, R168, R173, R184, R187, R190, R205, R208, R56: when the first check of its memory operand
raises an exception, the instruction takes it, whatever its other operands; and an instruction that reads the
operand it writes takes what the read check raises after a write check that passed. -/
def Obligations.OperandCheckIsTaken : Prop :=
  (∀ (i : Instr) (s : State) (k : Access) (seg : SegName) (off n : Nat) (x : Exc),
      Spec.checked s (Spec.row i) = some (k, seg, off, n) → s.operandAddrs seg off n k = .error (.exc x) →
      exec i s = .next (Spec.excepted x s))
    ∧ ∀ (i : Instr) (s : State) (seg : SegName) (off n : Nat) (as : List Nat) (x : Exc),
      Spec.checked s (Spec.row i) = some (.write, seg, off, n) → Spec.readsBack s (Spec.row i) = true →
      s.operandAddrs seg off n .write = .ok as → s.operandAddrs seg off n .read = .error (.exc x) →
      exec i s = .next (Spec.excepted x s)

/-- R222 to R227: an instruction takes an exception only for the causes listed: `#UD` for its listed forms,
`#GP(0)` for STI above IOPL, else what the checks of its memory operand raise, the write check first and,
where it also reads the operand, the read check after. -/
def Obligations.ExceptionsHaveListedCauses : Prop :=
  ∀ (i : Instr) (s t : State) (m : FaultMark), s.faulted = none → exec i s = .next t → t.faulted = some m →
    (m.exc = .ud ∧ Spec.udCause s (Spec.row i))
      ∨ (m.exc = .gp0 ∧ Spec.row i = .sti ∧ s.mode = .prot ∧ s.iopl.toNat < s.cpl.toNat)
      ∨ ∃ k seg off n, Spec.checked s (Spec.row i) = some (k, seg, off, n)
          ∧ (s.operandAddrs seg off n k = .error (.exc m.exc)
            ∨ (Spec.readsBack s (Spec.row i) = true ∧ (∃ as, s.operandAddrs seg off n k = .ok as)
              ∧ s.operandAddrs seg off n .read = .error (.exc m.exc)))

/-- R222, R228: `#UD` is taken exactly by SGDT and SIDT of a register, and by SLDT and STR outside Protected
Mode, before any operand is touched. -/
def Obligations.UndefinedOpcodeExactly : Prop :=
  (∀ (i : Instr) (s : State), Spec.udCause s (Spec.row i) → exec i s = .next (Spec.excepted .ud s))
    ∧ ∀ (i : Instr) (s t : State) (m : FaultMark), s.faulted = none → exec i s = .next t →
      t.faulted = some m → m.exc = .ud → Spec.udCause s (Spec.row i)

/-- R223 to R226: which exceptions exist in which mode: INT13 never in Protected Mode, #GP(0) and #SS(0) only
there, #PF never in Real Address Mode, #SS(0) only for a checked operand in SS. -/
def Obligations.ExceptionsOfTheMode : Prop :=
  ∀ (s : State) (seg : SegName) (off n : Nat) (k : Access) (x : Exc),
    s.operandAddrs seg off n k = .error (.exc x) →
    x ≠ .ud ∧ (x = .int13 → s.mode ≠ .prot) ∧ (x = .gp0 → s.mode = .prot)
      ∧ (x = .ss0 → s.mode = .prot ∧ seg = .ss) ∧ ∀ code, x = .pf code → s.mode ≠ .real

/-! ### The whole machine -/

/-- R57, R19, R13, R87: the frame of every instruction: registers, flags, memory and system state that its row
does not write are as before. -/
def Obligations.FrameOfEveryInstruction : Prop :=
  ∀ (i : Instr) (s t : State), exec i s = .next t →
    (∀ n, n ∉ Spec.writtenRegs s (Spec.row i) → t.regs.get32 n = s.regs.get32 n)
      ∧ (∀ f, f ∉ Spec.writtenFlags s (Spec.row i) → Spec.flag t.flags f = Spec.flag s.flags f)
      ∧ (∀ a, a ∉ Spec.storedAddrs s (Spec.row i) → t.mem.read a = s.mem.read a)
      ∧ t.launchPart = s.launchPart

/-- The model's choices for reset (log entries 1 to 4, 8, 15) meet the invariant. -/
def Obligations.ResetMeetsInvariant : Prop := State.reset.Inv

/-- R14, R44, R75, R232: every step keeps the memory's canonical form, EIP inside the offset range, the fault
mark's EIP, and DefaultSize and CPL as the mode has them. -/
def Obligations.StepKeepsInvariant : Prop :=
  ∀ s t : State, s.Inv → step s = .next t → t.Inv

/-- R5, R21 to R26, R240, R241, R244: no step changes the mode, the levels, a segment or system register, the
translation, the allocation or CodeRegion. -/
def Obligations.StepKeepsLaunchPart : Prop :=
  ∀ s t : State, step s = .next t → t.launchPart = s.launchPart

/-- R264, R14: a run ends as finished exactly when no exception is recorded and EIP = End, where an EIP that
has wrapped stands past the end of the offset range (log entry 15): a program whose End is that end ends
when its last instruction has wrapped EIP to 0, and a wrapped EIP runs nothing more. -/
def Obligations.EndOfRunExactlyAtEnd : Prop :=
  (∀ s : State, step s = .fault .endOfRun ↔ s.faulted = none
      ∧ s.codeEnd = if s.wrapped then s.eip.toNat + Spec.offsetLimit s else s.eip.toNat)
    ∧ (∀ (i : Instr) (s : State), s.faulted = none → s.eip.toNat + i.length = Spec.offsetLimit s →
        s.codeEnd = Spec.offsetLimit s → (Spec.advanced i s).eip = 0#32
          ∧ step (Spec.advanced i s) = .fault .endOfRun)
    ∧ ∀ s : State, s.faulted = none → s.wrapped = true → step s ≠ .fault .endOfRun →
        step s = .refused .pastOffsetRange

/-- R266, R264: every run ends, from every state: after some number of steps there is no next state. That a
wrapped EIP moves on past the end of the offset range is log entry 15. -/
def Obligations.EveryRunEnds : Prop :=
  ∀ s : State, ∃ k, ∀ t, Host.Core.run core k s ≠ .next t
end

