-- ==== Sys2Proof/Laws/State.lean ====
section
/-! SUPPORT. What each named update of State does to each field: one lemma per field per update. -/

namespace Sys2Proof.Machine

/-! ### State.complete -/

@[simp] theorem State.complete_regs (s : State) (len : Nat) : (s.complete len).regs = s.regs := rfl
@[simp] theorem State.complete_eip (s : State) (len : Nat) : (s.complete len).eip = s.nextEip len := rfl
@[simp] theorem State.complete_flags (s : State) (len : Nat) : (s.complete len).flags = s.flags := rfl
@[simp] theorem State.complete_iopl (s : State) (len : Nat) : (s.complete len).iopl = s.iopl := rfl
@[simp] theorem State.complete_segs (s : State) (len : Nat) : (s.complete len).segs = s.segs := rfl
@[simp] theorem State.complete_gdtr (s : State) (len : Nat) : (s.complete len).gdtr = s.gdtr := rfl
@[simp] theorem State.complete_idtr (s : State) (len : Nat) : (s.complete len).idtr = s.idtr := rfl
@[simp] theorem State.complete_ldtr (s : State) (len : Nat) : (s.complete len).ldtr = s.ldtr := rfl
@[simp] theorem State.complete_tr (s : State) (len : Nat) : (s.complete len).tr = s.tr := rfl
@[simp] theorem State.complete_cr0 (s : State) (len : Nat) : (s.complete len).cr0 = s.cr0 := rfl
@[simp] theorem State.complete_cpl (s : State) (len : Nat) : (s.complete len).cpl = s.cpl := rfl
@[simp] theorem State.complete_mode (s : State) (len : Nat) : (s.complete len).mode = s.mode := rfl
@[simp] theorem State.complete_intInhibit (s : State) (len : Nat) : (s.complete len).intInhibit = false := rfl
@[simp] theorem State.complete_faulted (s : State) (len : Nat) : (s.complete len).faulted = s.faulted := rfl
@[simp] theorem State.complete_mem (s : State) (len : Nat) : (s.complete len).mem = s.mem := rfl
@[simp] theorem State.complete_allocated (s : State) (len : Nat) : (s.complete len).allocated = s.allocated := rfl
@[simp] theorem State.complete_defaultSize (s : State) (len : Nat) : (s.complete len).defaultSize = s.defaultSize := rfl
@[simp] theorem State.complete_pages (s : State) (len : Nat) : (s.complete len).pages = s.pages := rfl
@[simp] theorem State.complete_sgdt16Top (s : State) (len : Nat) : (s.complete len).sgdt16Top = s.sgdt16Top := rfl
@[simp] theorem State.complete_codeRegion (s : State) (len : Nat) : (s.complete len).codeRegion = s.codeRegion := rfl
@[simp] theorem State.complete_codeStart (s : State) (len : Nat) : (s.complete len).codeStart = s.codeStart := rfl
@[simp] theorem State.complete_codeEnd (s : State) (len : Nat) : (s.complete len).codeEnd = s.codeEnd := rfl
@[simp] theorem State.complete_wrapped (s : State) (len : Nat) : (s.complete len).wrapped = (s.wrapped || s.wraps len) := rfl
@[simp] theorem State.complete_draws (s : State) (len : Nat) : (s.complete len).draws = s.draws := rfl

/-! ### State.markFaulted -/

@[simp] theorem State.markFaulted_regs (s : State) (x : Exc) : (s.markFaulted x).regs = s.regs := rfl
@[simp] theorem State.markFaulted_eip (s : State) (x : Exc) : (s.markFaulted x).eip = s.eip := rfl
@[simp] theorem State.markFaulted_flags (s : State) (x : Exc) : (s.markFaulted x).flags = s.flags := rfl
@[simp] theorem State.markFaulted_iopl (s : State) (x : Exc) : (s.markFaulted x).iopl = s.iopl := rfl
@[simp] theorem State.markFaulted_segs (s : State) (x : Exc) : (s.markFaulted x).segs = s.segs := rfl
@[simp] theorem State.markFaulted_gdtr (s : State) (x : Exc) : (s.markFaulted x).gdtr = s.gdtr := rfl
@[simp] theorem State.markFaulted_idtr (s : State) (x : Exc) : (s.markFaulted x).idtr = s.idtr := rfl
@[simp] theorem State.markFaulted_ldtr (s : State) (x : Exc) : (s.markFaulted x).ldtr = s.ldtr := rfl
@[simp] theorem State.markFaulted_tr (s : State) (x : Exc) : (s.markFaulted x).tr = s.tr := rfl
@[simp] theorem State.markFaulted_cr0 (s : State) (x : Exc) : (s.markFaulted x).cr0 = s.cr0 := rfl
@[simp] theorem State.markFaulted_cpl (s : State) (x : Exc) : (s.markFaulted x).cpl = s.cpl := rfl
@[simp] theorem State.markFaulted_mode (s : State) (x : Exc) : (s.markFaulted x).mode = s.mode := rfl
@[simp] theorem State.markFaulted_intInhibit (s : State) (x : Exc) : (s.markFaulted x).intInhibit = s.intInhibit := rfl
@[simp] theorem State.markFaulted_faulted (s : State) (x : Exc) : (s.markFaulted x).faulted = some ⟨x, s.eip⟩ := rfl
@[simp] theorem State.markFaulted_mem (s : State) (x : Exc) : (s.markFaulted x).mem = s.mem := rfl
@[simp] theorem State.markFaulted_allocated (s : State) (x : Exc) : (s.markFaulted x).allocated = s.allocated := rfl
@[simp] theorem State.markFaulted_defaultSize (s : State) (x : Exc) : (s.markFaulted x).defaultSize = s.defaultSize := rfl
@[simp] theorem State.markFaulted_pages (s : State) (x : Exc) : (s.markFaulted x).pages = s.pages := rfl
@[simp] theorem State.markFaulted_sgdt16Top (s : State) (x : Exc) : (s.markFaulted x).sgdt16Top = s.sgdt16Top := rfl
@[simp] theorem State.markFaulted_codeRegion (s : State) (x : Exc) : (s.markFaulted x).codeRegion = s.codeRegion := rfl
@[simp] theorem State.markFaulted_codeStart (s : State) (x : Exc) : (s.markFaulted x).codeStart = s.codeStart := rfl
@[simp] theorem State.markFaulted_codeEnd (s : State) (x : Exc) : (s.markFaulted x).codeEnd = s.codeEnd := rfl
@[simp] theorem State.markFaulted_wrapped (s : State) (x : Exc) : (s.markFaulted x).wrapped = s.wrapped := rfl
@[simp] theorem State.markFaulted_draws (s : State) (x : Exc) : (s.markFaulted x).draws = s.draws := rfl

/-! ### State.takeException -/

@[simp] theorem State.takeException_regs (s : State) (x : Exc) : (s.takeException x).regs = s.regs := rfl
@[simp] theorem State.takeException_eip (s : State) (x : Exc) : (s.takeException x).eip = s.eip := rfl
@[simp] theorem State.takeException_flags (s : State) (x : Exc) : (s.takeException x).flags = s.flags := rfl
@[simp] theorem State.takeException_iopl (s : State) (x : Exc) : (s.takeException x).iopl = s.iopl := rfl
@[simp] theorem State.takeException_segs (s : State) (x : Exc) : (s.takeException x).segs = s.segs := rfl
@[simp] theorem State.takeException_gdtr (s : State) (x : Exc) : (s.takeException x).gdtr = s.gdtr := rfl
@[simp] theorem State.takeException_idtr (s : State) (x : Exc) : (s.takeException x).idtr = s.idtr := rfl
@[simp] theorem State.takeException_ldtr (s : State) (x : Exc) : (s.takeException x).ldtr = s.ldtr := rfl
@[simp] theorem State.takeException_tr (s : State) (x : Exc) : (s.takeException x).tr = s.tr := rfl
@[simp] theorem State.takeException_cr0 (s : State) (x : Exc) : (s.takeException x).cr0 = s.cr0 := rfl
@[simp] theorem State.takeException_cpl (s : State) (x : Exc) : (s.takeException x).cpl = s.cpl := rfl
@[simp] theorem State.takeException_mode (s : State) (x : Exc) : (s.takeException x).mode = s.mode := rfl
@[simp] theorem State.takeException_intInhibit (s : State) (x : Exc) : (s.takeException x).intInhibit = false := rfl
@[simp] theorem State.takeException_faulted (s : State) (x : Exc) : (s.takeException x).faulted = some ⟨x, s.eip⟩ := rfl
@[simp] theorem State.takeException_mem (s : State) (x : Exc) : (s.takeException x).mem = s.mem := rfl
@[simp] theorem State.takeException_allocated (s : State) (x : Exc) : (s.takeException x).allocated = s.allocated := rfl
@[simp] theorem State.takeException_defaultSize (s : State) (x : Exc) : (s.takeException x).defaultSize = s.defaultSize := rfl
@[simp] theorem State.takeException_pages (s : State) (x : Exc) : (s.takeException x).pages = s.pages := rfl
@[simp] theorem State.takeException_sgdt16Top (s : State) (x : Exc) : (s.takeException x).sgdt16Top = s.sgdt16Top := rfl
@[simp] theorem State.takeException_codeRegion (s : State) (x : Exc) : (s.takeException x).codeRegion = s.codeRegion := rfl
@[simp] theorem State.takeException_codeStart (s : State) (x : Exc) : (s.takeException x).codeStart = s.codeStart := rfl
@[simp] theorem State.takeException_codeEnd (s : State) (x : Exc) : (s.takeException x).codeEnd = s.codeEnd := rfl
@[simp] theorem State.takeException_wrapped (s : State) (x : Exc) : (s.takeException x).wrapped = s.wrapped := rfl
@[simp] theorem State.takeException_draws (s : State) (x : Exc) : (s.takeException x).draws = s.draws := rfl

/-! ### State.storeAt -/

@[simp] theorem State.storeAt_regs (s : State) (as : List Nat) (v : Nat) : (s.storeAt as v).regs = s.regs := rfl
@[simp] theorem State.storeAt_eip (s : State) (as : List Nat) (v : Nat) : (s.storeAt as v).eip = s.eip := rfl
@[simp] theorem State.storeAt_flags (s : State) (as : List Nat) (v : Nat) : (s.storeAt as v).flags = s.flags := rfl
@[simp] theorem State.storeAt_iopl (s : State) (as : List Nat) (v : Nat) : (s.storeAt as v).iopl = s.iopl := rfl
@[simp] theorem State.storeAt_segs (s : State) (as : List Nat) (v : Nat) : (s.storeAt as v).segs = s.segs := rfl
@[simp] theorem State.storeAt_gdtr (s : State) (as : List Nat) (v : Nat) : (s.storeAt as v).gdtr = s.gdtr := rfl
@[simp] theorem State.storeAt_idtr (s : State) (as : List Nat) (v : Nat) : (s.storeAt as v).idtr = s.idtr := rfl
@[simp] theorem State.storeAt_ldtr (s : State) (as : List Nat) (v : Nat) : (s.storeAt as v).ldtr = s.ldtr := rfl
@[simp] theorem State.storeAt_tr (s : State) (as : List Nat) (v : Nat) : (s.storeAt as v).tr = s.tr := rfl
@[simp] theorem State.storeAt_cr0 (s : State) (as : List Nat) (v : Nat) : (s.storeAt as v).cr0 = s.cr0 := rfl
@[simp] theorem State.storeAt_cpl (s : State) (as : List Nat) (v : Nat) : (s.storeAt as v).cpl = s.cpl := rfl
@[simp] theorem State.storeAt_mode (s : State) (as : List Nat) (v : Nat) : (s.storeAt as v).mode = s.mode := rfl
@[simp] theorem State.storeAt_intInhibit (s : State) (as : List Nat) (v : Nat) : (s.storeAt as v).intInhibit = s.intInhibit := rfl
@[simp] theorem State.storeAt_faulted (s : State) (as : List Nat) (v : Nat) : (s.storeAt as v).faulted = s.faulted := rfl
@[simp] theorem State.storeAt_mem (s : State) (as : List Nat) (v : Nat) : (s.storeAt as v).mem = s.mem.writeBytes as (numBytes as.length v) := rfl
@[simp] theorem State.storeAt_allocated (s : State) (as : List Nat) (v : Nat) : (s.storeAt as v).allocated = s.allocated := rfl
@[simp] theorem State.storeAt_defaultSize (s : State) (as : List Nat) (v : Nat) : (s.storeAt as v).defaultSize = s.defaultSize := rfl
@[simp] theorem State.storeAt_pages (s : State) (as : List Nat) (v : Nat) : (s.storeAt as v).pages = s.pages := rfl
@[simp] theorem State.storeAt_sgdt16Top (s : State) (as : List Nat) (v : Nat) : (s.storeAt as v).sgdt16Top = s.sgdt16Top := rfl
@[simp] theorem State.storeAt_codeRegion (s : State) (as : List Nat) (v : Nat) : (s.storeAt as v).codeRegion = s.codeRegion := rfl
@[simp] theorem State.storeAt_codeStart (s : State) (as : List Nat) (v : Nat) : (s.storeAt as v).codeStart = s.codeStart := rfl
@[simp] theorem State.storeAt_codeEnd (s : State) (as : List Nat) (v : Nat) : (s.storeAt as v).codeEnd = s.codeEnd := rfl
@[simp] theorem State.storeAt_wrapped (s : State) (as : List Nat) (v : Nat) : (s.storeAt as v).wrapped = s.wrapped := rfl
@[simp] theorem State.storeAt_draws (s : State) (as : List Nat) (v : Nat) : (s.storeAt as v).draws = s.draws := rfl

/-! ### State.decCount -/

@[simp] theorem State.decCount_regs (s : State) (a : Size) : (s.decCount a).regs = s.regs.put (addrWidth a) .n1 (s.repCount a - BitVec.ofNat _ 1) := rfl
@[simp] theorem State.decCount_eip (s : State) (a : Size) : (s.decCount a).eip = s.eip := rfl
@[simp] theorem State.decCount_flags (s : State) (a : Size) : (s.decCount a).flags = s.flags := rfl
@[simp] theorem State.decCount_iopl (s : State) (a : Size) : (s.decCount a).iopl = s.iopl := rfl
@[simp] theorem State.decCount_segs (s : State) (a : Size) : (s.decCount a).segs = s.segs := rfl
@[simp] theorem State.decCount_gdtr (s : State) (a : Size) : (s.decCount a).gdtr = s.gdtr := rfl
@[simp] theorem State.decCount_idtr (s : State) (a : Size) : (s.decCount a).idtr = s.idtr := rfl
@[simp] theorem State.decCount_ldtr (s : State) (a : Size) : (s.decCount a).ldtr = s.ldtr := rfl
@[simp] theorem State.decCount_tr (s : State) (a : Size) : (s.decCount a).tr = s.tr := rfl
@[simp] theorem State.decCount_cr0 (s : State) (a : Size) : (s.decCount a).cr0 = s.cr0 := rfl
@[simp] theorem State.decCount_cpl (s : State) (a : Size) : (s.decCount a).cpl = s.cpl := rfl
@[simp] theorem State.decCount_mode (s : State) (a : Size) : (s.decCount a).mode = s.mode := rfl
@[simp] theorem State.decCount_intInhibit (s : State) (a : Size) : (s.decCount a).intInhibit = s.intInhibit := rfl
@[simp] theorem State.decCount_faulted (s : State) (a : Size) : (s.decCount a).faulted = s.faulted := rfl
@[simp] theorem State.decCount_mem (s : State) (a : Size) : (s.decCount a).mem = s.mem := rfl
@[simp] theorem State.decCount_allocated (s : State) (a : Size) : (s.decCount a).allocated = s.allocated := rfl
@[simp] theorem State.decCount_defaultSize (s : State) (a : Size) : (s.decCount a).defaultSize = s.defaultSize := rfl
@[simp] theorem State.decCount_pages (s : State) (a : Size) : (s.decCount a).pages = s.pages := rfl
@[simp] theorem State.decCount_sgdt16Top (s : State) (a : Size) : (s.decCount a).sgdt16Top = s.sgdt16Top := rfl
@[simp] theorem State.decCount_codeRegion (s : State) (a : Size) : (s.decCount a).codeRegion = s.codeRegion := rfl
@[simp] theorem State.decCount_codeStart (s : State) (a : Size) : (s.decCount a).codeStart = s.codeStart := rfl
@[simp] theorem State.decCount_codeEnd (s : State) (a : Size) : (s.decCount a).codeEnd = s.codeEnd := rfl
@[simp] theorem State.decCount_wrapped (s : State) (a : Size) : (s.decCount a).wrapped = s.wrapped := rfl
@[simp] theorem State.decCount_draws (s : State) (a : Size) : (s.decCount a).draws = s.draws := rfl

/-! ### State.setInterruptFlag -/

@[simp] theorem State.setInterruptFlag_regs (s : State) (len : Nat) : (s.setInterruptFlag len).regs = s.regs := rfl
@[simp] theorem State.setInterruptFlag_eip (s : State) (len : Nat) : (s.setInterruptFlag len).eip = s.nextEip len := rfl
@[simp] theorem State.setInterruptFlag_flags (s : State) (len : Nat) : (s.setInterruptFlag len).flags = { s.flags with ifl := true } := rfl
@[simp] theorem State.setInterruptFlag_iopl (s : State) (len : Nat) : (s.setInterruptFlag len).iopl = s.iopl := rfl
@[simp] theorem State.setInterruptFlag_segs (s : State) (len : Nat) : (s.setInterruptFlag len).segs = s.segs := rfl
@[simp] theorem State.setInterruptFlag_gdtr (s : State) (len : Nat) : (s.setInterruptFlag len).gdtr = s.gdtr := rfl
@[simp] theorem State.setInterruptFlag_idtr (s : State) (len : Nat) : (s.setInterruptFlag len).idtr = s.idtr := rfl
@[simp] theorem State.setInterruptFlag_ldtr (s : State) (len : Nat) : (s.setInterruptFlag len).ldtr = s.ldtr := rfl
@[simp] theorem State.setInterruptFlag_tr (s : State) (len : Nat) : (s.setInterruptFlag len).tr = s.tr := rfl
@[simp] theorem State.setInterruptFlag_cr0 (s : State) (len : Nat) : (s.setInterruptFlag len).cr0 = s.cr0 := rfl
@[simp] theorem State.setInterruptFlag_cpl (s : State) (len : Nat) : (s.setInterruptFlag len).cpl = s.cpl := rfl
@[simp] theorem State.setInterruptFlag_mode (s : State) (len : Nat) : (s.setInterruptFlag len).mode = s.mode := rfl
@[simp] theorem State.setInterruptFlag_intInhibit (s : State) (len : Nat) : (s.setInterruptFlag len).intInhibit = !s.flags.ifl := rfl
@[simp] theorem State.setInterruptFlag_faulted (s : State) (len : Nat) : (s.setInterruptFlag len).faulted = s.faulted := rfl
@[simp] theorem State.setInterruptFlag_mem (s : State) (len : Nat) : (s.setInterruptFlag len).mem = s.mem := rfl
@[simp] theorem State.setInterruptFlag_allocated (s : State) (len : Nat) : (s.setInterruptFlag len).allocated = s.allocated := rfl
@[simp] theorem State.setInterruptFlag_defaultSize (s : State) (len : Nat) : (s.setInterruptFlag len).defaultSize = s.defaultSize := rfl
@[simp] theorem State.setInterruptFlag_pages (s : State) (len : Nat) : (s.setInterruptFlag len).pages = s.pages := rfl
@[simp] theorem State.setInterruptFlag_sgdt16Top (s : State) (len : Nat) : (s.setInterruptFlag len).sgdt16Top = s.sgdt16Top := rfl
@[simp] theorem State.setInterruptFlag_codeRegion (s : State) (len : Nat) : (s.setInterruptFlag len).codeRegion = s.codeRegion := rfl
@[simp] theorem State.setInterruptFlag_codeStart (s : State) (len : Nat) : (s.setInterruptFlag len).codeStart = s.codeStart := rfl
@[simp] theorem State.setInterruptFlag_codeEnd (s : State) (len : Nat) : (s.setInterruptFlag len).codeEnd = s.codeEnd := rfl
@[simp] theorem State.setInterruptFlag_wrapped (s : State) (len : Nat) : (s.setInterruptFlag len).wrapped = (s.wrapped || s.wraps len) := rfl
@[simp] theorem State.setInterruptFlag_draws (s : State) (len : Nat) : (s.setInterruptFlag len).draws = s.draws := rfl

/-! ### State.put -/

@[simp] theorem State.put_eip (s : State) (w : Width) (pl : Place) (v : BitVec w.bits) :
    (s.put w pl v).eip = s.eip := by cases pl <;> rfl
@[simp] theorem State.put_flags (s : State) (w : Width) (pl : Place) (v : BitVec w.bits) :
    (s.put w pl v).flags = s.flags := by cases pl <;> rfl
@[simp] theorem State.put_iopl (s : State) (w : Width) (pl : Place) (v : BitVec w.bits) :
    (s.put w pl v).iopl = s.iopl := by cases pl <;> rfl
@[simp] theorem State.put_segs (s : State) (w : Width) (pl : Place) (v : BitVec w.bits) :
    (s.put w pl v).segs = s.segs := by cases pl <;> rfl
@[simp] theorem State.put_gdtr (s : State) (w : Width) (pl : Place) (v : BitVec w.bits) :
    (s.put w pl v).gdtr = s.gdtr := by cases pl <;> rfl
@[simp] theorem State.put_idtr (s : State) (w : Width) (pl : Place) (v : BitVec w.bits) :
    (s.put w pl v).idtr = s.idtr := by cases pl <;> rfl
@[simp] theorem State.put_ldtr (s : State) (w : Width) (pl : Place) (v : BitVec w.bits) :
    (s.put w pl v).ldtr = s.ldtr := by cases pl <;> rfl
@[simp] theorem State.put_tr (s : State) (w : Width) (pl : Place) (v : BitVec w.bits) :
    (s.put w pl v).tr = s.tr := by cases pl <;> rfl
@[simp] theorem State.put_cr0 (s : State) (w : Width) (pl : Place) (v : BitVec w.bits) :
    (s.put w pl v).cr0 = s.cr0 := by cases pl <;> rfl
@[simp] theorem State.put_cpl (s : State) (w : Width) (pl : Place) (v : BitVec w.bits) :
    (s.put w pl v).cpl = s.cpl := by cases pl <;> rfl
@[simp] theorem State.put_mode (s : State) (w : Width) (pl : Place) (v : BitVec w.bits) :
    (s.put w pl v).mode = s.mode := by cases pl <;> rfl
@[simp] theorem State.put_intInhibit (s : State) (w : Width) (pl : Place) (v : BitVec w.bits) :
    (s.put w pl v).intInhibit = s.intInhibit := by cases pl <;> rfl
@[simp] theorem State.put_faulted (s : State) (w : Width) (pl : Place) (v : BitVec w.bits) :
    (s.put w pl v).faulted = s.faulted := by cases pl <;> rfl
@[simp] theorem State.put_allocated (s : State) (w : Width) (pl : Place) (v : BitVec w.bits) :
    (s.put w pl v).allocated = s.allocated := by cases pl <;> rfl
@[simp] theorem State.put_defaultSize (s : State) (w : Width) (pl : Place) (v : BitVec w.bits) :
    (s.put w pl v).defaultSize = s.defaultSize := by cases pl <;> rfl
@[simp] theorem State.put_pages (s : State) (w : Width) (pl : Place) (v : BitVec w.bits) :
    (s.put w pl v).pages = s.pages := by cases pl <;> rfl
@[simp] theorem State.put_sgdt16Top (s : State) (w : Width) (pl : Place) (v : BitVec w.bits) :
    (s.put w pl v).sgdt16Top = s.sgdt16Top := by cases pl <;> rfl
@[simp] theorem State.put_codeRegion (s : State) (w : Width) (pl : Place) (v : BitVec w.bits) :
    (s.put w pl v).codeRegion = s.codeRegion := by cases pl <;> rfl
@[simp] theorem State.put_codeStart (s : State) (w : Width) (pl : Place) (v : BitVec w.bits) :
    (s.put w pl v).codeStart = s.codeStart := by cases pl <;> rfl
@[simp] theorem State.put_codeEnd (s : State) (w : Width) (pl : Place) (v : BitVec w.bits) :
    (s.put w pl v).codeEnd = s.codeEnd := by cases pl <;> rfl
@[simp] theorem State.put_wrapped (s : State) (w : Width) (pl : Place) (v : BitVec w.bits) :
    (s.put w pl v).wrapped = s.wrapped := by cases pl <;> rfl
@[simp] theorem State.put_draws (s : State) (w : Width) (pl : Place) (v : BitVec w.bits) :
    (s.put w pl v).draws = s.draws := by cases pl <;> rfl

@[simp] theorem State.put_reg_regs (s : State) (w : Width) (n : RegNo) (v : BitVec w.bits) :
    (s.put w (.reg n) v).regs = s.regs.put w n v := rfl
@[simp] theorem State.put_reg_mem (s : State) (w : Width) (n : RegNo) (v : BitVec w.bits) :
    (s.put w (.reg n) v).mem = s.mem := rfl
@[simp] theorem State.put_bytes_regs (s : State) (w : Width) (as : List Nat) (v : BitVec w.bits) :
    (s.put w (.bytes as) v).regs = s.regs := rfl
@[simp] theorem State.put_bytes_mem (s : State) (w : Width) (as : List Nat) (v : BitVec w.bits) :
    (s.put w (.bytes as) v).mem = s.mem.writeBytes as (numBytes as.length v.toNat) := rfl

/-! ### Flags -/

@[simp] theorem Flags.setSZP_cf {n : Nat} (f : Flags) (r : BitVec n) : (f.setSZP r).cf = f.cf := rfl
@[simp] theorem Flags.setSZP_pf {n : Nat} (f : Flags) (r : BitVec n) : (f.setSZP r).pf = parity8 r := rfl
@[simp] theorem Flags.setSZP_af {n : Nat} (f : Flags) (r : BitVec n) : (f.setSZP r).af = f.af := rfl
@[simp] theorem Flags.setSZP_zf {n : Nat} (f : Flags) (r : BitVec n) : (f.setSZP r).zf = (r == 0#n) := rfl
@[simp] theorem Flags.setSZP_sf {n : Nat} (f : Flags) (r : BitVec n) : (f.setSZP r).sf = r.msb := rfl
@[simp] theorem Flags.setSZP_tf {n : Nat} (f : Flags) (r : BitVec n) : (f.setSZP r).tf = f.tf := rfl
@[simp] theorem Flags.setSZP_ifl {n : Nat} (f : Flags) (r : BitVec n) : (f.setSZP r).ifl = f.ifl := rfl
@[simp] theorem Flags.setSZP_df {n : Nat} (f : Flags) (r : BitVec n) : (f.setSZP r).df = f.df := rfl
@[simp] theorem Flags.setSZP_ofl {n : Nat} (f : Flags) (r : BitVec n) : (f.setSZP r).ofl = f.ofl := rfl
@[simp] theorem Flags.setSZP_nt {n : Nat} (f : Flags) (r : BitVec n) : (f.setSZP r).nt = f.nt := rfl
@[simp] theorem Flags.setSZP_rf {n : Nat} (f : Flags) (r : BitVec n) : (f.setSZP r).rf = f.rf := rfl

@[simp] theorem Flags.setSub_cf {n : Nat} (f : Flags) (a b : BitVec n) (c : Bool) : (f.setSub a b c).cf = decide (a.toNat < b.toNat + c.toNat) := rfl
@[simp] theorem Flags.setSub_pf {n : Nat} (f : Flags) (a b : BitVec n) (c : Bool) : (f.setSub a b c).pf = parity8 (subResult a b c) := rfl
@[simp] theorem Flags.setSub_af {n : Nat} (f : Flags) (a b : BitVec n) (c : Bool) : (f.setSub a b c).af = (a ^^^ b ^^^ subResult a b c).getLsbD 4 := rfl
@[simp] theorem Flags.setSub_zf {n : Nat} (f : Flags) (a b : BitVec n) (c : Bool) : (f.setSub a b c).zf = (subResult a b c == 0#n) := rfl
@[simp] theorem Flags.setSub_sf {n : Nat} (f : Flags) (a b : BitVec n) (c : Bool) : (f.setSub a b c).sf = (subResult a b c).msb := rfl
@[simp] theorem Flags.setSub_tf {n : Nat} (f : Flags) (a b : BitVec n) (c : Bool) : (f.setSub a b c).tf = f.tf := rfl
@[simp] theorem Flags.setSub_ifl {n : Nat} (f : Flags) (a b : BitVec n) (c : Bool) : (f.setSub a b c).ifl = f.ifl := rfl
@[simp] theorem Flags.setSub_df {n : Nat} (f : Flags) (a b : BitVec n) (c : Bool) : (f.setSub a b c).df = f.df := rfl
@[simp] theorem Flags.setSub_ofl {n : Nat} (f : Flags) (a b : BitVec n) (c : Bool) : (f.setSub a b c).ofl = ((a ^^^ b) &&& (a ^^^ subResult a b c)).msb := rfl
@[simp] theorem Flags.setSub_nt {n : Nat} (f : Flags) (a b : BitVec n) (c : Bool) : (f.setSub a b c).nt = f.nt := rfl
@[simp] theorem Flags.setSub_rf {n : Nat} (f : Flags) (a b : BitVec n) (c : Bool) : (f.setSub a b c).rf = f.rf := rfl

@[simp] theorem Flags.loadAH_cf (f : Flags) (ah : Byte) : (f.loadAH ah).cf = ah.getLsbD 0 := rfl
@[simp] theorem Flags.loadAH_pf (f : Flags) (ah : Byte) : (f.loadAH ah).pf = ah.getLsbD 2 := rfl
@[simp] theorem Flags.loadAH_af (f : Flags) (ah : Byte) : (f.loadAH ah).af = ah.getLsbD 4 := rfl
@[simp] theorem Flags.loadAH_zf (f : Flags) (ah : Byte) : (f.loadAH ah).zf = ah.getLsbD 6 := rfl
@[simp] theorem Flags.loadAH_sf (f : Flags) (ah : Byte) : (f.loadAH ah).sf = ah.getLsbD 7 := rfl
@[simp] theorem Flags.loadAH_tf (f : Flags) (ah : Byte) : (f.loadAH ah).tf = f.tf := rfl
@[simp] theorem Flags.loadAH_ifl (f : Flags) (ah : Byte) : (f.loadAH ah).ifl = f.ifl := rfl
@[simp] theorem Flags.loadAH_df (f : Flags) (ah : Byte) : (f.loadAH ah).df = f.df := rfl
@[simp] theorem Flags.loadAH_ofl (f : Flags) (ah : Byte) : (f.loadAH ah).ofl = f.ofl := rfl
@[simp] theorem Flags.loadAH_nt (f : Flags) (ah : Byte) : (f.loadAH ah).nt = f.nt := rfl
@[simp] theorem Flags.loadAH_rf (f : Flags) (ah : Byte) : (f.loadAH ah).rf = f.rf := rfl

end Sys2Proof.Machine
end

