-- ==== Sys2Proof/Laws/Basic.lean ====
section
/-! SUPPORT. Sequencing of operations, and the outcome of an instruction. -/

namespace Sys2Proof.Machine

@[simp] theorem Res.ok_bind {α β : Type} (a : α) (f : α → Res β) : ((Except.ok a : Res α) >>= f) = f a := rfl

@[simp] theorem Res.error_bind {α β : Type} (e : Stop) (f : α → Res β) :
    ((Except.error e : Res α) >>= f) = .error e := rfl

/-- A sequence succeeds exactly when both parts do. -/
theorem Res.bind_eq_ok {α β : Type} {x : Res α} {f : α → Res β} {b : β} :
    (x >>= f) = .ok b ↔ ∃ a, x = .ok a ∧ f a = .ok b := by
  cases x <;> simp

/-- A sequence that ends in a value. -/
theorem Res.map_eq_ok {α β : Type} {x : Res α} {f : α → β} {b : β} :
    (x >>= fun a => (Except.ok (f a) : Res β)) = .ok b ↔ ∃ a, x = .ok a ∧ b = f a := by
  cases x <;> simp [eq_comm]

/-- A sequence stops in its first part, or in its second. -/
theorem Res.bind_eq_error {α β : Type} {x : Res α} {f : α → Res β} {e : Stop} :
    (x >>= f) = .error e ↔ x = .error e ∨ ∃ a, x = .ok a ∧ f a = .error e := by
  cases x <;> simp

@[simp] theorem settle_ok (s t : State) : settle s (.ok t) = .next t := rfl

@[simp] theorem settle_exc (s : State) (x : Exc) : settle s (.error (.exc x)) = .next (s.takeException x) := rfl

@[simp] theorem settle_fault (s : State) (f : Fault) : settle s (.error (.fault f)) = .fault f := rfl

@[simp] theorem settle_refuse (s : State) (r : Refusal) : settle s (.error (.refuse r)) = .refused r := rfl

/-- Everything `settle` can do when it answers a next state. -/
theorem settle_eq_next {s t : State} {r : Res State} :
    settle s r = .next t ↔ r = .ok t ∨ ∃ x, r = .error (.exc x) ∧ t = s.takeException x := by
  rcases r with (x | f | r) | u
  · simp [eq_comm]
  · simp
  · simp
  · simp

end Sys2Proof.Machine
end

