-- ==== Sys2Proof/Laws/Memory.lean ====
section
/-! SUPPORT. Physical memory: reading after writing, and the canonical form kept by every operation. -/

namespace Sys2Proof.Machine

theorem findCell_insertCell_same (m : List Host.Cell) (a : Nat) (b : Byte) :
    findCell (insertCell m a b) a = some b := by
  induction m with
  | nil => simp [insertCell, findCell]
  | cons c t ih =>
    obtain ⟨k, v⟩ := c
    simp only [insertCell]
    split
    · simp [findCell]
    · split
      · simp [findCell]
      · have h : k ≠ a := by omega
        simp [findCell, h, ih]

theorem findCell_insertCell_other (m : List Host.Cell) {a a' : Nat} (b : Byte) (h : a' ≠ a) :
    findCell (insertCell m a b) a' = findCell m a' := by
  induction m with
  | nil => simp [insertCell, findCell, h.symm]
  | cons c t ih =>
    obtain ⟨k, v⟩ := c
    simp only [insertCell]
    split
    · simp [findCell, h.symm]
    · split
      · next hk => subst hk; simp [findCell, h.symm]
      · by_cases hk : k = a' <;> simp [findCell, hk, ih]

theorem eraseCell_cons (k : Nat) (v : Byte) (t : List Host.Cell) (a : Nat) :
    eraseCell ((k, v) :: t) a = if k = a then eraseCell t a else (k, v) :: eraseCell t a := by
  by_cases h : k = a <;> simp [eraseCell, h]

theorem findCell_eraseCell_same (m : List Host.Cell) (a : Nat) : findCell (eraseCell m a) a = none := by
  induction m with
  | nil => rfl
  | cons c t ih =>
    obtain ⟨k, v⟩ := c
    rw [eraseCell_cons]
    split
    · exact ih
    · next h => simp [findCell, h, ih]

theorem findCell_eraseCell_other (m : List Host.Cell) {a a' : Nat} (h : a' ≠ a) :
    findCell (eraseCell m a) a' = findCell m a' := by
  induction m with
  | nil => rfl
  | cons c t ih =>
    obtain ⟨k, v⟩ := c
    rw [eraseCell_cons]
    split
    · next hk => simp [findCell, ih, hk, h.symm]
    · simp [findCell, ih]

theorem mem_of_mem_insertCell {m : List Host.Cell} {a : Nat} {b : Byte} {c : Host.Cell}
    (h : c ∈ insertCell m a b) : c = (a, b) ∨ c ∈ m := by
  induction m with
  | nil => simpa [insertCell] using h
  | cons d t ih =>
    obtain ⟨k, v⟩ := d
    simp only [insertCell] at h
    split at h
    · simpa using h
    · split at h
      · simp only [List.mem_cons] at h ⊢; tauto
      · simp only [List.mem_cons] at h ⊢
        rcases h with h | h
        · exact .inr (.inl h)
        · rcases ih h with h | h <;> tauto

theorem insertCell_sorted {m : List Host.Cell} (h : m.Pairwise fun x y => x.1 < y.1) (a : Nat) (b : Byte) :
    (insertCell m a b).Pairwise fun x y => x.1 < y.1 := by
  induction m with
  | nil => simp [insertCell]
  | cons c t ih =>
    obtain ⟨k, v⟩ := c
    rw [List.pairwise_cons] at h
    simp only [insertCell]
    split
    · next hk =>
      refine List.pairwise_cons.2 ⟨fun d hd => ?_, List.pairwise_cons.2 h⟩
      rcases List.mem_cons.1 hd with rfl | hd
      · exact hk
      · exact hk.trans (h.1 d hd)
    · split
      · next hk => subst hk; exact List.pairwise_cons.2 h
      · refine List.pairwise_cons.2 ⟨fun d hd => ?_, ih h.2⟩
        rcases mem_of_mem_insertCell hd with rfl | hd
        · simp only; omega
        · exact h.1 d hd

@[simp] theorem Memory.write_fill (m : Memory) (a : Nat) (b : Byte) : (m.write a b).fill = m.fill := by
  simp only [Memory.write]; split <;> rfl

@[simp] theorem Memory.writeBytes_fill (m : Memory) (as : List Nat) (bs : List Byte) :
    (m.writeBytes as bs).fill = m.fill := by
  induction as generalizing m bs with
  | nil => rfl
  | cons a as ih => cases bs <;> simp [Memory.writeBytes, ih]

/-- A byte reads back as it was written (R44). -/
theorem Memory.read_write_same (m : Memory) (a : Nat) (b : Byte) : (m.write a b).read a = some b := by
  simp only [Memory.write]
  split
  · next h => simp [Memory.read, findCell_eraseCell_same, Memory.unlisted] at *; exact h
  · simp [Memory.read, findCell_insertCell_same]

/-- A write affects only the addressed byte (R44). -/
theorem Memory.read_write_other (m : Memory) {a a' : Nat} (b : Byte) (h : a' ≠ a) :
    (m.write a b).read a' = m.read a' := by
  simp only [Memory.write]
  split <;> simp [Memory.read, findCell_eraseCell_other _ h, findCell_insertCell_other _ _ h, Memory.unlisted]

/-- Bytes outside the written addresses stay. -/
theorem Memory.read_writeBytes_other (m : Memory) (as : List Nat) (bs : List Byte) {a : Nat} (h : a ∉ as) :
    (m.writeBytes as bs).read a = m.read a := by
  induction as generalizing m bs with
  | nil => rfl
  | cons x as ih =>
    cases bs with
    | nil => rfl
    | cons b bs =>
      simp only [List.mem_cons, not_or] at h
      rw [Memory.writeBytes, ih _ _ h.2, Memory.read_write_other _ _ h.1]

/-- Bytes written at distinct addresses read back. -/
theorem Memory.read_writeBytes_same (m : Memory) {as : List Nat} {bs : List Byte} (hn : as.Nodup)
    (hl : as.length = bs.length) (i : Nat) (hi : i < as.length) :
    (m.writeBytes as bs).read as[i] = some (bs[i]'(hl ▸ hi)) := by
  induction as generalizing m bs i with
  | nil => simp at hi
  | cons x as ih =>
    cases bs with
    | nil => simp at hl
    | cons b bs =>
      rw [List.nodup_cons] at hn
      cases i with
      | zero =>
        simp only [List.getElem_cons_zero, Memory.writeBytes]
        rw [Memory.read_writeBytes_other _ _ _ hn.1, Memory.read_write_same]
      | succ i => exact ih _ hn.2 (by simpa using hl) i (by simpa using hi)

/-- A write of a byte at a physical address keeps the canonical form. -/
theorem Memory.write_wf {m : Memory} (h : m.wf) {a : Nat} (ha : a < 2 ^ 32) (b : Byte) : (m.write a b).wf := by
  obtain ⟨h1, h2, h3⟩ := h
  simp only [Memory.write]
  split
  · refine ⟨h1.filter _, fun c hc => ?_, fun c hc => ?_⟩
    · exact h2 c (List.mem_filter.1 hc).1
    · exact h3 c (List.mem_filter.1 hc).1
  · next hb =>
    refine ⟨insertCell_sorted h1 a b, fun c hc => ?_, fun c hc => ?_⟩
    · rcases mem_of_mem_insertCell hc with rfl | hc
      · exact hb
      · exact h2 c hc
    · rcases mem_of_mem_insertCell hc with rfl | hc
      · exact ha
      · exact h3 c hc

/-- A write of bytes at physical addresses keeps the canonical form. -/
theorem Memory.writeBytes_wf {m : Memory} (h : m.wf) {as : List Nat} (ha : ∀ a ∈ as, a < 2 ^ 32)
    (bs : List Byte) : (m.writeBytes as bs).wf := by
  induction as generalizing m bs with
  | nil => exact h
  | cons a as ih =>
    cases bs with
    | nil => exact h
    | cons b bs =>
      exact ih (Memory.write_wf h (ha a (by simp)) b) (fun x hx => ha x (by simp [hx])) bs

/-- Reset's memory has the canonical form. -/
theorem reset_mem_wf : State.reset.mem.wf := by decide

@[simp] theorem numBytes_length (n v : Nat) : (numBytes n v).length = n := by
  induction n generalizing v with
  | zero => rfl
  | succ n ih => simp [numBytes, ih]

/-- Byte i of a number is its bits 8i+7 to 8i (R45). -/
theorem numBytes_getElem (n v i : Nat) (h : i < (numBytes n v).length) :
    (numBytes n v)[i] = BitVec.ofNat 8 (v / 2 ^ (8 * i)) := by
  induction n generalizing v i with
  | zero => simp [numBytes] at h
  | succ n ih =>
    cases i with
    | zero => simp [numBytes]
    | succ i =>
      simp only [numBytes, List.getElem_cons_succ]
      rw [ih, Nat.div_div_eq_div_mul]
      congr 2
      rw [Nat.mul_add, Nat.pow_add, Nat.mul_comm]

/-- The number that n bytes of a number make (R45). -/
theorem leNat_numBytes (n v : Nat) : leNat (numBytes n v) = v % 2 ^ (8 * n) := by
  induction n generalizing v with
  | zero => simp [numBytes, leNat, Nat.mod_one]
  | succ n ih =>
    simp only [numBytes, leNat, ih, BitVec.toNat_ofNat]
    rw [show 8 * (n + 1) = 8 + 8 * n by ring, Nat.pow_add, Nat.mod_mul]

end Sys2Proof.Machine
end

