-- ==== Sys2Proof/Laws/Access.lean ====
section
/-! SUPPORT. What each checked access can answer. -/

namespace Sys2Proof.Machine

/-! ### Addresses of an operand -/

theorem State.xlateByte_lt {s : State} {seg : SegName} {off : Nat} {k : Access} {a : Nat}
    (h : s.xlateByte seg off k = .ok a) : a < 2 ^ 32 := by
  simp only [State.xlateByte] at h
  split at h
  · next b _ => cases h; exact b.isLt
  · cases h

theorem State.xlateByte_error {s : State} {seg : SegName} {off : Nat} {k : Access} {e : Stop}
    (h : s.xlateByte seg off k = .error e) : ∃ c, e = .exc (.pf c) := by
  simp only [State.xlateByte] at h
  split at h
  · cases h
  · next c _ => cases h; exact ⟨c, rfl⟩

/-- The addresses of an operand, byte by byte. -/
theorem State.xlateBytes_eq_ok {s : State} {seg : SegName} {off : Nat} {k : Access} {n : Nat} {as : List Nat} :
    s.xlateBytes seg off k n = .ok as ↔
      as.length = n ∧ ∀ i (h : i < as.length), s.xlateByte seg (off + i) k = .ok as[i] := by
  induction n generalizing off as with
  | zero =>
    simp only [State.xlateBytes, Except.ok.injEq]
    constructor
    · rintro rfl; simp
    · rintro ⟨h, -⟩; exact (List.length_eq_zero_iff.1 h).symm
  | succ n ih =>
    simp only [State.xlateBytes, Res.bind_eq_ok, Except.ok.injEq]
    constructor
    · rintro ⟨a, ha, t, ht, rfl⟩
      obtain ⟨hl, hb⟩ := ih.1 ht
      refine ⟨by simp [hl], fun i hi => ?_⟩
      cases i with
      | zero => simpa using ha
      | succ i => simpa [Nat.add_assoc, Nat.add_comm 1] using hb i (by simpa using hi)
    · rintro ⟨hl, hb⟩
      cases as with
      | nil => simp at hl
      | cons a t =>
        refine ⟨a, hb 0 (by simp), t, ih.2 ⟨by simpa using hl, fun i hi => ?_⟩, rfl⟩
        have h1 := hb (i + 1) (by simpa using hi)
        rw [show off + (i + 1) = off + 1 + i by omega] at h1
        exact h1

theorem State.xlateBytes_error {s : State} {seg : SegName} {off : Nat} {k : Access} {n : Nat} {e : Stop}
    (h : s.xlateBytes seg off k n = .error e) : ∃ c, e = .exc (.pf c) := by
  induction n generalizing off with
  | zero => simp [State.xlateBytes] at h
  | succ n ih =>
    simp only [State.xlateBytes, Res.bind_eq_error] at h
    rcases h with h | ⟨a, -, h | ⟨t, -, h⟩⟩
    · exact State.xlateByte_error h
    · exact ih h
    · cases h

/-- What a launch's rules can answer: non-writable only to a write (R48), ok only to an operand that ends by
2^32 (R51). -/
theorem SegReg.ruled_eq_some {r : SegReg} {off n : Nat} {k : Access} {x : SegResult}
    (h : r.ruled off n k = some x) : (x = .nonWritable → k = .write) ∧ (x = .ok → off + n ≤ 2 ^ 32) := by
  obtain ⟨e, -, he⟩ := List.exists_of_findSome?_eq_some h
  simp only [SegRule.answer] at he
  split at he
  · cases hv : e.verdict with
    | read b =>
      cases b <;> cases k <;> simp [hv, SegVerdict.answer] at he
      · subst he; simp
      · obtain ⟨hl, rfl⟩ := he; simpa using hl
    | write y =>
      cases y <;> cases k <;> simp [hv, SegVerdict.answer] at he
      · obtain ⟨hl, rfl⟩ := he; simpa using hl
      all_goals subst he; simp
  · cases he

/-- The two checks of an access, and what it answers after them. -/
theorem State.operandAddrs_eq_ok {s : State} {seg : SegName} {off n : Nat} {k : Access} {as : List Nat} :
    s.operandAddrs seg off n k = .ok as ↔
      segExc s.mode seg (segCheck s.mode (s.segs.get seg) off n k) = none
        ∧ s.xlateBytes seg off k n = .ok as := by
  simp only [State.operandAddrs]
  split
  · next x hx => simp [hx]
  · next hx => simp [hx]

theorem State.operandAddrs_error {s : State} {seg : SegName} {off n : Nat} {k : Access} {e : Stop}
    (h : s.operandAddrs seg off n k = .error e) : ∃ x, e = .exc x := by
  simp only [State.operandAddrs] at h
  split at h
  · next x _ => cases h; exact ⟨x, rfl⟩
  · obtain ⟨c, rfl⟩ := State.xlateBytes_error h; exact ⟨_, rfl⟩

theorem State.operandAddrs_length {s : State} {seg : SegName} {off n : Nat} {k : Access} {as : List Nat}
    (h : s.operandAddrs seg off n k = .ok as) : as.length = n :=
  (State.xlateBytes_eq_ok.1 (State.operandAddrs_eq_ok.1 h).2).1

theorem State.operandAddrs_lt {s : State} {seg : SegName} {off n : Nat} {k : Access} {as : List Nat}
    (h : s.operandAddrs seg off n k = .ok as) : ∀ a ∈ as, a < 2 ^ 32 := by
  intro a ha
  obtain ⟨i, hi, rfl⟩ := List.getElem_of_mem ha
  exact State.xlateByte_lt ((State.xlateBytes_eq_ok.1 (State.operandAddrs_eq_ok.1 h).2).2 i hi)

theorem State.checkWrite_eq_ok {s : State} {seg : SegName} {off n : Nat} {u : Unit} :
    s.checkWrite seg off n = .ok u ↔ ∃ as, s.operandAddrs seg off n .write = .ok as := by
  simp only [State.checkWrite]; split <;> next h => simp [h]

theorem State.checkWrite_eq_error {s : State} {seg : SegName} {off n : Nat} {e : Stop} :
    s.checkWrite seg off n = .error e ↔ s.operandAddrs seg off n .write = .error e := by
  simp only [State.checkWrite]; split <;> next h => simp [h]

/-! ### Reading -/

/-- A byte is read where there is memory and it holds a value (R30, R44). -/
theorem State.readPhys_eq_ok {s : State} {a : Nat} {b : Byte} :
    s.readPhys a = .ok b ↔ inRanges s.allocated a = true ∧ s.mem.read a = some b := by
  simp only [State.readPhys]
  split
  · next h => split <;> next hb => simp [h, hb]
  · next h => simp [h]

theorem State.readPhys_error {s : State} {a : Nat} {e : Stop} (h : s.readPhys a = .error e) :
    e = .fault (.noValue a) ∨ e = .fault (.unallocated a) := by
  simp only [State.readPhys] at h
  split at h
  · split at h
    · cases h
    · cases h; exact .inl rfl
  · cases h; exact .inr rfl

theorem State.readAddrs_eq_ok {s : State} {as : List Nat} {bs : List Byte} :
    s.readAddrs as = .ok bs ↔
      ∃ hl : bs.length = as.length, ∀ i (h : i < as.length), s.readPhys as[i] = .ok (bs[i]'(hl ▸ h)) := by
  induction as generalizing bs with
  | nil =>
    simp only [State.readAddrs, Except.ok.injEq]
    constructor
    · rintro rfl; exact ⟨rfl, by simp⟩
    · rintro ⟨h, -⟩; exact (List.length_eq_zero_iff.1 h).symm
  | cons a as ih =>
    simp only [State.readAddrs, Res.bind_eq_ok, Except.ok.injEq]
    constructor
    · rintro ⟨b, hb, t, ht, rfl⟩
      obtain ⟨hl, hr⟩ := ih.1 ht
      refine ⟨by simp [hl], fun i hi => ?_⟩
      cases i with
      | zero => simpa using hb
      | succ i => simpa using hr i (by simpa using hi)
    · rintro ⟨hl, hr⟩
      cases bs with
      | nil => simp at hl
      | cons b t =>
        exact ⟨b, hr 0 (by simp), t,
          ih.2 ⟨by simpa using hl, fun i hi => hr (i + 1) (by simpa using hi)⟩, rfl⟩

theorem State.readAddrs_error {s : State} {as : List Nat} {e : Stop} (h : s.readAddrs as = .error e) :
    ∃ f, e = .fault f := by
  induction as with
  | nil => simp [State.readAddrs] at h
  | cons a as ih =>
    simp only [State.readAddrs, Res.bind_eq_error] at h
    rcases h with h | ⟨b, -, h | ⟨t, -, h⟩⟩
    · rcases State.readPhys_error h with rfl | rfl <;> exact ⟨_, rfl⟩
    · exact ih h
    · cases h

/-- Everything a checked read does when it answers a value (R54). -/
theorem State.readSeg_eq_ok {s : State} {w : Width} {seg : SegName} {off : Nat} {v : BitVec w.bits} :
    s.readSeg w seg off = .ok v ↔
      ∃ as bs, s.operandAddrs seg off w.bytes .read = .ok as ∧ s.readAddrs as = .ok bs
        ∧ v = BitVec.ofNat w.bits (leNat bs) := by
  simp only [State.readSeg, Res.bind_eq_ok, Except.ok.injEq]
  constructor
  · rintro ⟨as, h1, bs, h2, rfl⟩; exact ⟨as, bs, h1, h2, rfl⟩
  · rintro ⟨as, bs, h1, h2, rfl⟩; exact ⟨as, h1, bs, h2, rfl⟩

/-- A checked read stops with the exception of its checks, or with a fault of memory. -/
theorem State.readSeg_error {s : State} {w : Width} {seg : SegName} {off : Nat} {e : Stop}
    (h : s.readSeg w seg off = .error e) :
    (∃ x, e = .exc x ∧ s.operandAddrs seg off w.bytes .read = .error (.exc x)) ∨ ∃ f, e = .fault f := by
  simp only [State.readSeg, Res.bind_eq_error] at h
  rcases h with h | ⟨as, -, h | ⟨bs, -, h⟩⟩
  · obtain ⟨x, rfl⟩ := State.operandAddrs_error h; exact .inl ⟨x, rfl, h⟩
  · exact .inr (State.readAddrs_error h)
  · cases h

/-! ### Storing -/

/-- A store is let through where there is memory outside CodeRegion (R44, R61). -/
theorem State.checkStore_eq_ok {s : State} {as : List Nat} {u : Unit} :
    s.checkStore as = .ok u ↔
      ∀ a ∈ as, inRanges s.codeRegion a = false ∧ inRanges s.allocated a = true := by
  simp only [State.checkStore]
  split
  · next a h =>
    have h1 := List.find?_some h
    have h2 := List.mem_of_find?_eq_some h
    simp only [reduceCtorEq, false_iff, not_forall]
    exact ⟨a, h2, by simp [h1]⟩
  · next h =>
    rw [List.find?_eq_none] at h
    split
    · next a h' =>
      have h1 := List.find?_some h'
      have h2 := List.mem_of_find?_eq_some h'
      simp only [reduceCtorEq, false_iff, not_forall]
      exact ⟨a, h2, by simp at h1; simp [h1]⟩
    · next h' =>
      rw [List.find?_eq_none] at h'
      simp only [true_iff]
      intro a ha
      exact ⟨by simpa using h a ha, by simpa using h' a ha⟩

theorem State.checkStore_error {s : State} {as : List Nat} {e : Stop} (h : s.checkStore as = .error e) :
    (∃ a, e = .refuse (.storeIntoCode a)) ∨ ∃ a, e = .fault (.unallocated a) := by
  simp only [State.checkStore] at h
  split at h
  · cases h; exact .inl ⟨_, rfl⟩
  · split at h
    · cases h; exact .inr ⟨_, rfl⟩
    · cases h

/-- Everything the checks of a store do when they let it through (R55, R61, R44). -/
theorem State.storeAddrs_eq_ok {s : State} {seg : SegName} {off n : Nat} {as : List Nat} :
    s.storeAddrs seg off n = .ok as ↔
      s.operandAddrs seg off n .write = .ok as
        ∧ ∀ a ∈ as, inRanges s.codeRegion a = false ∧ inRanges s.allocated a = true := by
  simp only [State.storeAddrs, Res.bind_eq_ok, Except.ok.injEq]
  constructor
  · rintro ⟨as', h, u, hc, rfl⟩; exact ⟨h, State.checkStore_eq_ok.1 hc⟩
  · rintro ⟨h, hc⟩; exact ⟨as, h, (), State.checkStore_eq_ok.2 hc, rfl⟩

/-- The checks of a store stop with an exception, or because of CodeRegion or missing memory. -/
theorem State.storeAddrs_error {s : State} {seg : SegName} {off n : Nat} {e : Stop}
    (h : s.storeAddrs seg off n = .error e) :
    (∃ x, e = .exc x ∧ s.operandAddrs seg off n .write = .error (.exc x))
      ∨ (∃ r, e = .refuse r) ∨ ∃ f, e = .fault f := by
  simp only [State.storeAddrs, Res.bind_eq_error] at h
  rcases h with h | ⟨as, -, h | ⟨u, -, h⟩⟩
  · obtain ⟨x, rfl⟩ := State.operandAddrs_error h; exact .inl ⟨x, rfl, h⟩
  · rcases State.checkStore_error h with ⟨a, rfl⟩ | ⟨a, rfl⟩
    · exact .inr (.inl ⟨_, rfl⟩)
    · exact .inr (.inr ⟨_, rfl⟩)
  · cases h

theorem State.storeAddrs_lt {s : State} {seg : SegName} {off n : Nat} {as : List Nat}
    (h : s.storeAddrs seg off n = .ok as) : ∀ a ∈ as, a < 2 ^ 32 :=
  State.operandAddrs_lt (State.storeAddrs_eq_ok.1 h).1

/-- A store at physical addresses keeps the canonical form. -/
theorem State.storeAt_wf {s : State} (h : s.mem.wf) {as : List Nat} (ha : ∀ a ∈ as, a < 2 ^ 32) (v : Nat) :
    (s.storeAt as v).mem.wf := Memory.writeBytes_wf h ha _

theorem segExc_none {m : Mode} {g : SegName} {c : SegResult} : segExc m g c = none ↔ c = .ok := by
  cases c <;> simp [segExc]
  cases m <;> simp
  split <;> simp

end Sys2Proof.Machine
end

