-- ==== Sys2Proof/Laws/Decode.lean ====
section
/-! SUPPORT. What each stage of the decoder accepts, and what it reads back from the encoder's bytes. -/

namespace Sys2Proof

@[simp] theorem Dec.ok_bind {α β : Type} (a : α) (f : α → Dec β) : ((Except.ok a : Dec α) >>= f) = f a := rfl

@[simp] theorem Dec.error_bind {α β : Type} (e : DecodeError) (f : α → Dec β) :
    ((Except.error e : Dec α) >>= f) = .error e := rfl

theorem Dec.bind_eq_ok {α β : Type} {x : Dec α} {f : α → Dec β} {b : β} :
    (x >>= f) = .ok b ↔ ∃ a, x = .ok a ∧ f a = .ok b := by
  cases x <;> simp

/-! ### What is accepted -/

theorem takeByte_ok {bs rest : List Byte} {v : Byte} (h : takeByte bs = .ok (v, rest)) :
    bs.length = 1 + rest.length := by
  cases bs with
  | nil => cases h
  | cons b t => cases h; simp [Nat.add_comm]

theorem takeWord_ok {bs rest : List Byte} {v : Word} (h : takeWord bs = .ok (v, rest)) :
    bs.length = 2 + rest.length := by
  match bs, h with
  | b0 :: b1 :: t, h => cases h; simp; omega

theorem takeDWord_ok {bs rest : List Byte} {v : DWord} (h : takeDWord bs = .ok (v, rest)) :
    bs.length = 4 + rest.length := by
  match bs, h with
  | b0 :: b1 :: b2 :: b3 :: t, h => cases h; simp; omega

@[simp] theorem wordBytes_length (v : Word) : (wordBytes v).length = 2 := rfl

@[simp] theorem dwordBytes_length (v : DWord) : (dwordBytes v).length = 4 := rfl

theorem takeDisp16_ok {mod : BitVec 2} {bs rest : List Byte} {v : Disp16}
    (h : takeDisp16 mod bs = .ok (v, rest)) :
    bs.length = v.enc.2.length + rest.length ∧ (v = .none → mod = 0#2) := by
  simp only [takeDisp16] at h
  split at h
  · next h0 => cases h; exact ⟨by simp [Disp16.enc], fun _ => BitVec.eq_of_toNat_eq h0⟩
  · obtain ⟨⟨w, t⟩, h1, h2⟩ := Dec.bind_eq_ok.1 h
    cases h2; exact ⟨takeByte_ok h1, by simp⟩
  · obtain ⟨⟨w, t⟩, h1, h2⟩ := Dec.bind_eq_ok.1 h
    cases h2; exact ⟨takeWord_ok h1, by simp⟩

theorem takeDisp32_ok {mod : BitVec 2} {bs rest : List Byte} {v : Disp32}
    (h : takeDisp32 mod bs = .ok (v, rest)) :
    bs.length = v.enc.2.length + rest.length ∧ (v = .none → mod = 0#2) := by
  simp only [takeDisp32] at h
  split at h
  · next h0 => cases h; exact ⟨by simp [Disp32.enc], fun _ => BitVec.eq_of_toNat_eq h0⟩
  · obtain ⟨⟨w, t⟩, h1, h2⟩ := Dec.bind_eq_ok.1 h
    cases h2; exact ⟨takeByte_ok h1, by simp⟩
  · obtain ⟨⟨w, t⟩, h1, h2⟩ := Dec.bind_eq_ok.1 h
    cases h2; exact ⟨takeDWord_ok h1, by simp⟩

@[simp] theorem RegNo.ofBits_toBits (r : RegNo) : RegNo.ofBits r.toBits = r := by cases r <;> rfl

@[simp] theorem Base16.ofBits_toBits (b : Base16) : Base16.ofBits b.toBits = b := by cases b <;> rfl

@[simp] theorem Scale.ofBits_toBits (s : Scale) : Scale.ofBits s.toBits = s := by cases s <;> rfl

theorem RegNo.toBits_ofBits (b : BitVec 3) : (RegNo.ofBits b).toBits = b := by revert b; decide

theorem Base16.toBits_ofBits (b : BitVec 3) : (Base16.ofBits b).toBits = b := by revert b; decide

theorem sibIndex_ok {scale : BitVec 2} {index : BitVec 3} {i : Option (RegNo × Scale)}
    (h : sibIndex scale index = .ok i) : indexWf i = true := by
  revert h; revert i scale index
  intro scale index i h
  simp only [sibIndex] at h
  split at h
  · split at h <;> cases h; rfl
  · next hi =>
    cases h
    have : ∀ b : BitVec 3, b ≠ 4#3 → RegNo.ofBits b ≠ .n4 := by decide
    have h4 := this index hi
    revert h4
    cases RegNo.ofBits index <;> simp [indexWf]

/-- What a 16-bit memory operand's bytes are. -/
theorem takeAddr16_ok {mod : BitVec 2} {rm : BitVec 3} {bs rest : List Byte} {a : Addr16}
    (h : takeAddr16 mod rm bs = .ok (a, rest)) :
    a.wf = true ∧ ∀ reg seg, bs.length + 1 = ((RM.mem ⟨seg, .a16 a⟩).enc reg).length + rest.length := by
  simp only [takeAddr16] at h
  split at h
  · obtain ⟨⟨w, t⟩, h1, h2⟩ := Dec.bind_eq_ok.1 h
    cases h2
    refine ⟨rfl, fun reg seg => ?_⟩
    have := takeWord_ok h1
    simp [RM.enc, this]; omega
  · next hne =>
    obtain ⟨⟨w, t⟩, h1, h2⟩ := Dec.bind_eq_ok.1 h
    cases h2
    obtain ⟨hl, hm⟩ := takeDisp16_ok h1
    refine ⟨?_, fun reg seg => by simp [RM.enc, hl]; omega⟩
    have hb : ∀ r : BitVec 3, Base16.ofBits r = .bp → r = 6#3 := by decide
    cases hw : w with
    | none =>
      have hne' : Base16.ofBits rm ≠ .bp := fun hh => hne ⟨hm hw, hb _ hh⟩
      revert hne'
      cases Base16.ofBits rm <;> simp [Addr16.wf]
    | d8 v => cases Base16.ofBits rm <;> rfl
    | d16 v => cases Base16.ofBits rm <;> rfl

/-- What a 32-bit memory operand's bytes are. -/
theorem takeAddr32_ok {mod : BitVec 2} {rm : BitVec 3} {bs rest : List Byte} {a : Addr32}
    (h : takeAddr32 mod rm bs = .ok (a, rest)) :
    a.wf = true ∧ ∀ reg seg, bs.length + 1 = ((RM.mem ⟨seg, .a32 a⟩).enc reg).length + rest.length := by
  have hb5 : ∀ b : BitVec 3, RegNo.ofBits b = .n5 → b = 5#3 := by decide
  have hb4 : ∀ b : BitVec 3, RegNo.ofBits b = .n4 → b = 4#3 := by decide
  simp only [takeAddr32] at h
  split at h
  · obtain ⟨⟨sib, t⟩, h1, h2⟩ := Dec.bind_eq_ok.1 h
    obtain ⟨i, hi, h3⟩ := Dec.bind_eq_ok.1 h2
    have hl1 := takeByte_ok h1
    have hiw := sibIndex_ok hi
    split at h3
    · obtain ⟨⟨w, t2⟩, h4, h5⟩ := Dec.bind_eq_ok.1 h3
      cases h5
      have := takeDWord_ok h4
      exact ⟨hiw, fun reg seg => by simp [RM.enc]; simp only at this hl1; omega⟩
    · next hne =>
      obtain ⟨⟨w, t2⟩, h4, h5⟩ := Dec.bind_eq_ok.1 h3
      cases h5
      obtain ⟨hl, hm⟩ := takeDisp32_ok h4
      refine ⟨?_, fun reg seg => by simp [RM.enc]; simp only at hl hl1; omega⟩
      cases hw : w with
      | none =>
        have h5' : RegNo.ofBits (loField sib) ≠ .n5 := fun hh => hne ⟨hb5 _ hh, hm hw⟩
        revert h5'
        cases RegNo.ofBits (loField sib) <;> simp [Addr32.wf, hiw]
      | d8 v => cases RegNo.ofBits (loField sib) <;> exact hiw
      | d32 v => cases RegNo.ofBits (loField sib) <;> exact hiw
  · next h4 =>
    split at h
    · obtain ⟨⟨w, t⟩, h1, h2⟩ := Dec.bind_eq_ok.1 h
      cases h2
      have := takeDWord_ok h1
      exact ⟨rfl, fun reg seg => by simp [RM.enc]; omega⟩
    · next h5 =>
      obtain ⟨⟨w, t⟩, h1, h2⟩ := Dec.bind_eq_ok.1 h
      cases h2
      obtain ⟨hl, hm⟩ := takeDisp32_ok h1
      refine ⟨?_, fun reg seg => by simp [RM.enc]; omega⟩
      have hn4 : RegNo.ofBits rm ≠ .n4 := fun hh => h4 (hb4 _ hh)
      cases hw : w with
      | none =>
        have hn5 : RegNo.ofBits rm ≠ .n5 := fun hh => h5 ⟨hb5 _ hh, hm hw⟩
        revert hn4 hn5
        cases RegNo.ofBits rm <;> simp [Addr32.wf]
      | d8 v => revert hn4; cases RegNo.ofBits rm <;> simp [Addr32.wf]
      | d32 v => revert hn4; cases RegNo.ofBits rm <;> simp [Addr32.wf]

/-- What an r/m operand's bytes are, its form and its override. -/
theorem takeRM_ok {a : Size} {seg : Option SegName} {m : Byte} {bs rest : List Byte} {rm : RM}
    (h : takeRM a seg m bs = .ok (rm, rest)) :
    rm.wf a = true ∧ (rm.override = seg ∨ ∃ n, rm = .reg n)
      ∧ ∀ reg, bs.length + 1 = (rm.enc reg).length + rest.length := by
  simp only [takeRM] at h
  split at h
  · cases h; exact ⟨rfl, .inr ⟨_, rfl⟩, fun reg => by simp [RM.enc, Nat.add_comm]⟩
  · split at h
    · obtain ⟨⟨x, t⟩, h1, h2⟩ := Dec.bind_eq_ok.1 h
      cases h2
      obtain ⟨hw, hl⟩ := takeAddr16_ok h1
      exact ⟨by simp [RM.wf, Addr.wf, hw], .inl rfl, fun reg => hl reg seg⟩
    · obtain ⟨⟨x, t⟩, h1, h2⟩ := Dec.bind_eq_ok.1 h
      cases h2
      obtain ⟨hw, hl⟩ := takeAddr32_ok h1
      exact ⟨by simp [RM.wf, Addr.wf, hw], .inl rfl, fun reg => hl reg seg⟩

theorem checkOverride_ok {x : Prefixes} {u : Unit} (h : checkOverride x = .ok u) : x.seg = none := by
  simp only [checkOverride] at h
  split at h
  · cases h
  · next hs => simpa using hs

theorem checkRep_ok {x : Prefixes} {u : Unit} (h : checkRep x = .ok u) : x.rep = none := by
  simp only [checkRep] at h
  split at h
  · cases h
  · next hs => simpa using hs

/-- What a ModRM form without immediate accepts. -/
theorem decRM_ok {d : Size} {x : Prefixes} {bs rest : List Byte} {pick : BitVec 3 → Option (Pfx → RM → Instr)}
    {i : Instr} (h : decRM d x bs pick = .ok (i, rest)) :
    ∃ b mk rm, pick b = some mk ∧ i = mk x.pfx rm ∧ x.pfx.rmWf d rm = true ∧ rm.override = x.seg
      ∧ x.rep = none ∧ ∀ reg, bs.length = (rm.enc reg).length + rest.length := by
  obtain ⟨⟨mk, rm, t⟩, h1, h2⟩ := Dec.bind_eq_ok.1 h
  obtain ⟨u, h3, h4⟩ := Dec.bind_eq_ok.1 h2
  cases h4
  obtain ⟨⟨m, t1⟩, h5, h6⟩ := Dec.bind_eq_ok.1 h1
  simp only at h6
  split at h6
  · cases h6
  · next k hk =>
    obtain ⟨⟨rm', t2⟩, h7, h8⟩ := Dec.bind_eq_ok.1 h6
    cases h8
    obtain ⟨hw, ho, hl⟩ := takeRM_ok h7
    have hl1 := takeByte_ok h5
    refine ⟨_, mk, rm', hk, rfl, hw, ?_, ?_, fun reg => by have := hl reg; simp only at *; omega⟩
    · cases rm' with
      | reg n =>
        obtain ⟨u, h9, -⟩ := Dec.bind_eq_ok.1 h3
        exact (checkOverride_ok h9).symm
      | mem m => exact ho.resolve_right (by simp)
    · cases rm' with
      | reg n =>
        obtain ⟨u, -, h10⟩ := Dec.bind_eq_ok.1 h3
        exact checkRep_ok h10
      | mem m => exact checkRep_ok h3

/-- What a ModRM form with an immediate accepts. -/
theorem decRMImm_ok {α : Type} {d : Size} {x : Prefixes} {bs rest : List Byte}
    {take : List Byte → Dec (α × List Byte)} {pick : BitVec 3 → Option (Pfx → RM → α → Instr)} {i : Instr}
    {n : Nat} (ht : ∀ bs v rest, take bs = .ok (v, rest) → bs.length = n + rest.length)
    (h : decRMImm d x bs take pick = .ok (i, rest)) :
    ∃ b mk rm v, pick b = some mk ∧ i = mk x.pfx rm v ∧ x.pfx.rmWf d rm = true ∧ rm.override = x.seg
      ∧ x.rep = none ∧ ∀ reg, bs.length = (rm.enc reg).length + n + rest.length := by
  obtain ⟨⟨mk, rm, t⟩, h1, h2⟩ := Dec.bind_eq_ok.1 h
  obtain ⟨⟨v, t'⟩, hv, h2'⟩ := Dec.bind_eq_ok.1 h2
  obtain ⟨u, h3, h4⟩ := Dec.bind_eq_ok.1 h2'
  cases h4
  obtain ⟨⟨m, t1⟩, h5, h6⟩ := Dec.bind_eq_ok.1 h1
  simp only at h6
  split at h6
  · cases h6
  · next k hk =>
    obtain ⟨⟨rm', t2⟩, h7, h8⟩ := Dec.bind_eq_ok.1 h6
    cases h8
    obtain ⟨hw, ho, hl⟩ := takeRM_ok h7
    have hl1 := takeByte_ok h5
    have hl2 := ht _ _ _ hv
    refine ⟨_, mk, rm', v, hk, rfl, hw, ?_, ?_, fun reg => by have := hl reg; simp only at *; omega⟩
    · cases rm' with
      | reg n =>
        obtain ⟨u, h9, -⟩ := Dec.bind_eq_ok.1 h3
        exact (checkOverride_ok h9).symm
      | mem m => exact ho.resolve_right (by simp)
    · cases rm' with
      | reg n =>
        obtain ⟨u, -, h10⟩ := Dec.bind_eq_ok.1 h3
        exact checkRep_ok h10
      | mem m => exact checkRep_ok h3

/-- What an accumulator-immediate form accepts. -/
theorem decAcc_ok {α : Type} {x : Prefixes} {bs rest : List Byte} {take : List Byte → Dec (α × List Byte)}
    {mk : Pfx → α → Instr} {i : Instr} {n : Nat}
    (ht : ∀ bs v rest, take bs = .ok (v, rest) → bs.length = n + rest.length)
    (h : decAcc x bs take mk = .ok (i, rest)) :
    ∃ v, i = mk x.pfx v ∧ x.seg = none ∧ x.rep = none ∧ bs.length = n + rest.length := by
  obtain ⟨⟨v, t⟩, h1, h2⟩ := Dec.bind_eq_ok.1 h
  obtain ⟨u, h3, h4⟩ := Dec.bind_eq_ok.1 h2
  obtain ⟨u', h5, h6⟩ := Dec.bind_eq_ok.1 h4
  cases h6
  exact ⟨v, rfl, checkOverride_ok h3, checkRep_ok h5, ht _ _ _ h1⟩

/-- What an instruction without operand bytes accepts. -/
theorem decPlain_ok {x : Prefixes} {bs rest : List Byte} {mk : Pfx → Instr} {i : Instr}
    (h : decPlain x bs mk = .ok (i, rest)) : i = mk x.pfx ∧ x.seg = none ∧ x.rep = none ∧ bs = rest := by
  obtain ⟨u, h3, h4⟩ := Dec.bind_eq_ok.1 h
  obtain ⟨u', h5, h6⟩ := Dec.bind_eq_ok.1 h4
  cases h6
  exact ⟨rfl, checkOverride_ok h3, checkRep_ok h5, rfl⟩

/-- What SCAS accepts. -/
theorem decScas_ok {x : Prefixes} {bs rest : List Byte} {mk : Pfx → Option RepCond → Instr} {i : Instr}
    (h : decScas x bs mk = .ok (i, rest)) : i = mk x.pfx x.rep ∧ x.seg = none ∧ bs = rest := by
  obtain ⟨u, h3, h4⟩ := Dec.bind_eq_ok.1 h
  cases h4
  exact ⟨rfl, checkOverride_ok h3, rfl⟩

/-- What STOS accepts. -/
theorem decStos_ok {x : Prefixes} {bs rest : List Byte} {mk : Pfx → Bool → Instr} {i : Instr}
    (h : decStos x bs mk = .ok (i, rest)) :
    ∃ r, i = mk x.pfx r ∧ x.seg = none ∧ x.rep = stosRep r ∧ bs = rest := by
  obtain ⟨u, h3, h4⟩ := Dec.bind_eq_ok.1 h
  split at h4
  · next hr => cases h4; exact ⟨false, rfl, checkOverride_ok h3, hr, rfl⟩
  · next hr => cases h4; exact ⟨true, rfl, checkOverride_ok h3, hr, rfl⟩
  · cases h4

/-! ### Prefixes -/

/-- How many prefix bytes have been read. -/
def Prefixes.count (x : Prefixes) : Nat :=
  x.pfx.opSize.toNat + x.pfx.addrSize.toNat + x.seg.isSome.toNat + x.rep.isSome.toNat

/-- The prefixes read are the bytes before the opcode, each counted once. -/
theorem readPrefixes_ok {x y : Prefixes} {bs rest : List Byte} (h : readPrefixes x bs = .ok (y, rest)) :
    bs.length + x.count = y.count + rest.length ∧ ∃ op tl, rest = op :: tl ∧ prefixOf op = none := by
  induction bs generalizing x with
  | nil => cases h
  | cons b bs ih =>
    simp only [readPrefixes] at h
    split at h
    · next hb => cases h; exact ⟨by simp [Nat.add_comm], b, bs, rfl, hb⟩
    · cases h
    · split at h
      · cases h
      · next hs =>
        obtain ⟨h1, h2⟩ := ih h
        refine ⟨?_, h2⟩
        simp [Prefixes.count, hs] at h1 ⊢; omega
    · split at h
      · cases h
      · next hs =>
        obtain ⟨h1, h2⟩ := ih h
        refine ⟨?_, h2⟩
        simp [Prefixes.count, hs] at h1 ⊢; omega
    · split at h
      · cases h
      · next hs =>
        obtain ⟨h1, h2⟩ := ih h
        refine ⟨?_, h2⟩
        simp at hs
        simp [Prefixes.count, hs] at h1 ⊢; omega
    · split at h
      · cases h
      · next hs =>
        obtain ⟨h1, h2⟩ := ih h
        refine ⟨?_, h2⟩
        simp at hs
        simp [Prefixes.count, hs] at h1 ⊢; omega

theorem Encoding.prefixBytes_length (e : Encoding) :
    e.prefixBytes.length = e.pfx.opSize.toNat + e.pfx.addrSize.toNat
      + (e.modrm.bind (·.2.override)).isSome.toNat + e.rep.isSome.toNat := by
  simp only [Encoding.prefixBytes, List.length_append]
  cases e.pfx.opSize <;> cases e.pfx.addrSize <;> cases e.modrm.bind (·.2.override) <;> cases e.rep <;> rfl

theorem Encoding.bytes_length (e : Encoding) :
    e.bytes.length = e.prefixBytes.length + e.opcode.length + e.modrmBytes.length + e.imm.length := by
  simp [Encoding.bytes, Nat.add_assoc]

theorem RM.enc_length (reg : BitVec 3) (rm : RM) : 1 ≤ (rm.enc reg).length ∧ (rm.enc reg).length ≤ 6 := by
  match rm with
  | .reg n => simp [RM.enc]
  | .mem ⟨_, .a16 (.direct v)⟩ => simp [RM.enc]
  | .mem ⟨_, .a16 (.based b x)⟩ => cases x <;> simp [RM.enc, Disp16.enc]
  | .mem ⟨_, .a32 (.direct v)⟩ => simp [RM.enc]
  | .mem ⟨_, .a32 (.based b x)⟩ => cases x <;> simp [RM.enc, Disp32.enc]
  | .mem ⟨_, .a32 (.sib b i x)⟩ => cases x <;> simp [RM.enc, Disp32.enc]
  | .mem ⟨_, .a32 (.sibDirect i v)⟩ => simp [RM.enc]

end Sys2Proof
end

