-- ==== Sys2Proof/Laws/DecodeOp.lean ====
section
/-! SUPPORT. What the decoder accepts after the prefixes, over every opcode. -/

namespace Sys2Proof

/-- The override prefix of an instruction's memory operand. -/
def Encoding.override (e : Encoding) : Option SegName := e.modrm.bind (·.2.override)

/-- An instruction accepted from `n` bytes after the prefixes `x`, with `rest` left over. -/
structure Accepted (d : Size) (x : Prefixes) (n : Nat) (i : Instr) (rest : List Byte) : Prop where
  wf : i.wf d = true
  canonical : i.canonical = i
  pfx : i.encoding.pfx = x.pfx
  rep : i.encoding.rep = x.rep
  override : i.encoding.override = x.seg
  length : n = i.encoding.opcode.length + i.encoding.modrmBytes.length + i.encoding.imm.length + rest.length

theorem shiftDigit_some {α : Type} {shl shr sar mk : α} {b : BitVec 3}
    (h : shiftDigit shl shr sar b = some mk) : mk = shl ∨ mk = shr ∨ mk = sar := by
  simp only [shiftDigit] at h
  split at h <;> cases h <;> simp

theorem arithDigit_some {α : Type} {sbb sub mk : α} {b : BitVec 3}
    (h : arithDigit sbb sub b = some mk) : mk = sbb ∨ mk = sub := by
  simp only [arithDigit] at h
  split at h <;> cases h <;> simp

/-- A ModRM form whose constructor is known. -/
theorem accepted_RM {d : Size} {x : Prefixes} {bs rest : List Byte} {n : Nat} {i : Instr} {rm : RM}
    {reg : BitVec 3} {op : List Byte} (he : i.encoding = { pfx := x.pfx, opcode := op, modrm := some (reg, rm) })
    (hn : n = bs.length + op.length) (hc : i.canonical = i) (hw : i.wf d = true) (ho : rm.override = x.seg)
    (hr : x.rep = none) (hl : ∀ reg, bs.length = (rm.enc reg).length + rest.length) :
    Accepted d x n i rest := by
  refine ⟨hw, hc, by rw [he], by rw [he, hr], by rw [he]; exact ho, ?_⟩
  have := hl reg
  rw [he, hn]
  simp [Encoding.modrmBytes]; omega

/-- A ModRM form with an immediate whose constructor is known. -/
theorem accepted_RMImm {d : Size} {x : Prefixes} {bs rest : List Byte} {n k : Nat} {i : Instr} {rm : RM}
    {reg : BitVec 3} {op im : List Byte}
    (he : i.encoding = { pfx := x.pfx, opcode := op, modrm := some (reg, rm), imm := im })
    (hk : im.length = k) (hn : n = bs.length + op.length) (hc : i.canonical = i) (hw : i.wf d = true)
    (ho : rm.override = x.seg) (hr : x.rep = none)
    (hl : ∀ reg, bs.length = (rm.enc reg).length + k + rest.length) : Accepted d x n i rest := by
  refine ⟨hw, hc, by rw [he], by rw [he, hr], by rw [he]; exact ho, ?_⟩
  have := hl reg
  rw [he, hn]
  simp [Encoding.modrmBytes, hk]; omega

/-- A form without ModRM byte whose constructor is known. -/
theorem accepted_plain {d : Size} {x : Prefixes} {bs rest : List Byte} {n k : Nat} {i : Instr}
    {op im : List Byte} {rep : Option RepCond}
    (he : i.encoding = { pfx := x.pfx, rep := rep, opcode := op, imm := im })
    (hk : im.length = k) (hn : n = bs.length + op.length) (hc : i.canonical = i) (hw : i.wf d = true)
    (ho : x.seg = none) (hr : x.rep = rep) (hl : bs.length = k + rest.length) : Accepted d x n i rest := by
  refine ⟨hw, hc, by rw [he], by rw [he, hr], by rw [he]; exact ho.symm, ?_⟩
  rw [he, hn]
  simp [Encoding.modrmBytes, hk]; omega

/-- The two-byte opcodes accept only well-formed canonical instructions. -/
theorem decode0F_ok {d : Size} {x : Prefixes} {op : Byte} {bs rest : List Byte} {i : Instr}
    (h : decode0F d x op bs = .ok (i, rest)) : Accepted d x (bs.length + 2) i rest := by
  simp only [decode0F] at h
  split at h
  · obtain ⟨b, mk, rm, hp, rfl, hw, ho, hr, hl⟩ := decRM_ok h
    simp only [group00Digit] at hp
    split at hp <;> cases hp <;> exact accepted_RM rfl (by simp) rfl (hw) ho hr hl
  · obtain ⟨b, mk, rm, hp, rfl, hw, ho, hr, hl⟩ := decRM_ok h
    simp only [group01Digit] at hp
    split at hp <;> cases hp <;> exact accepted_RM rfl (by simp) rfl (hw) ho hr hl
  · obtain ⟨b, mk, rm, hp, rfl, hw, ho, hr, hl⟩ := decRM_ok h
    cases hp; exact accepted_RM rfl (by simp) rfl (hw) ho hr hl
  · obtain ⟨b, mk, rm, hp, rfl, hw, ho, hr, hl⟩ := decRM_ok h
    cases hp; exact accepted_RM rfl (by simp) rfl (hw) ho hr hl
  · obtain ⟨b, mk, rm, hp, rfl, hw, ho, hr, hl⟩ := decRM_ok h
    cases hp; exact accepted_RM rfl (by simp) rfl (hw) ho hr hl
  · obtain ⟨b, mk, rm, hp, rfl, hw, ho, hr, hl⟩ := decRM_ok h
    cases hp; exact accepted_RM rfl (by simp) rfl (hw) ho hr hl
  · obtain ⟨b, mk, rm, hp, rfl, hw, ho, hr, hl⟩ := decRM_ok h
    cases hp; exact accepted_RM rfl (by simp) rfl (hw) ho hr hl
  · obtain ⟨b, mk, rm, hp, rfl, hw, ho, hr, hl⟩ := decRM_ok h
    cases hp; exact accepted_RM rfl (by simp) rfl (hw) ho hr hl
  · obtain ⟨b, mk, rm, hp, rfl, hw, ho, hr, hl⟩ := decRM_ok h
    cases hp; exact accepted_RM rfl (by simp) rfl (hw) ho hr hl
  · obtain ⟨b, mk, rm, hp, rfl, hw, ho, hr, hl⟩ := decRM_ok h
    cases hp; exact accepted_RM rfl (by simp) rfl (hw) ho hr hl
  · obtain ⟨b, mk, rm, hp, rfl, hw, ho, hr, hl⟩ := decRM_ok h
    cases hp; exact accepted_RM rfl (by simp) rfl (hw) ho hr hl
  · obtain ⟨b, mk, rm, hp, rfl, hw, ho, hr, hl⟩ := decRM_ok h
    cases hp; exact accepted_RM rfl (by simp) rfl (hw) ho hr hl
  · obtain ⟨b, mk, rm, hp, rfl, hw, ho, hr, hl⟩ := decRM_ok h
    cases hp; exact accepted_RM rfl (by simp) rfl (hw) ho hr hl
  · obtain ⟨b, mk, rm, hp, rfl, hw, ho, hr, hl⟩ := decRM_ok h
    cases hp; exact accepted_RM rfl (by simp) rfl (hw) ho hr hl
  · obtain ⟨b, mk, rm, hp, rfl, hw, ho, hr, hl⟩ := decRM_ok h
    cases hp; exact accepted_RM rfl (by simp) rfl (hw) ho hr hl
  · obtain ⟨b, mk, rm, hp, rfl, hw, ho, hr, hl⟩ := decRM_ok h
    cases hp; exact accepted_RM rfl (by simp) rfl (hw) ho hr hl
  · obtain ⟨b, mk, rm, hp, rfl, hw, ho, hr, hl⟩ := decRM_ok h
    cases hp; exact accepted_RM rfl (by simp) rfl (hw) ho hr hl
  · obtain ⟨b, mk, rm, hp, rfl, hw, ho, hr, hl⟩ := decRM_ok h
    cases hp; exact accepted_RM rfl (by simp) rfl (hw) ho hr hl
  · cases hs : x.opSize d <;> simp only [bySize, hs] at h
    · obtain ⟨b, mk, rm, v, hp, rfl, hw, ho, hr, hl⟩ := decRMImm_ok (fun _ _ _ => takeByte_ok) h
      cases hp; exact accepted_RMImm rfl rfl (by simp) rfl (by simpa [Instr.wf, Pfx.sizeWf, show d.select x.pfx.opSize = _ from hs] using hw) ho hr hl
    · obtain ⟨b, mk, rm, v, hp, rfl, hw, ho, hr, hl⟩ := decRMImm_ok (fun _ _ _ => takeByte_ok) h
      cases hp; exact accepted_RMImm rfl rfl (by simp) rfl (by simpa [Instr.wf, Pfx.sizeWf, show d.select x.pfx.opSize = _ from hs] using hw) ho hr hl
  · cases hs : x.opSize d <;> simp only [bySize, hs] at h
    · obtain ⟨b, mk, rm, hp, rfl, hw, ho, hr, hl⟩ := decRM_ok h
      cases hp; exact accepted_RM rfl (by simp) rfl (by simpa [Instr.wf, Pfx.sizeWf, show d.select x.pfx.opSize = _ from hs] using hw) ho hr hl
    · obtain ⟨b, mk, rm, hp, rfl, hw, ho, hr, hl⟩ := decRM_ok h
      cases hp; exact accepted_RM rfl (by simp) rfl (by simpa [Instr.wf, Pfx.sizeWf, show d.select x.pfx.opSize = _ from hs] using hw) ho hr hl
  · cases hs : x.opSize d <;> simp only [bySize, hs] at h
    · obtain ⟨b, mk, rm, v, hp, rfl, hw, ho, hr, hl⟩ := decRMImm_ok (fun _ _ _ => takeByte_ok) h
      cases hp; exact accepted_RMImm rfl rfl (by simp) rfl (by simpa [Instr.wf, Pfx.sizeWf, show d.select x.pfx.opSize = _ from hs] using hw) ho hr hl
    · obtain ⟨b, mk, rm, v, hp, rfl, hw, ho, hr, hl⟩ := decRMImm_ok (fun _ _ _ => takeByte_ok) h
      cases hp; exact accepted_RMImm rfl rfl (by simp) rfl (by simpa [Instr.wf, Pfx.sizeWf, show d.select x.pfx.opSize = _ from hs] using hw) ho hr hl
  · cases hs : x.opSize d <;> simp only [bySize, hs] at h
    · obtain ⟨b, mk, rm, hp, rfl, hw, ho, hr, hl⟩ := decRM_ok h
      cases hp; exact accepted_RM rfl (by simp) rfl (by simpa [Instr.wf, Pfx.sizeWf, show d.select x.pfx.opSize = _ from hs] using hw) ho hr hl
    · obtain ⟨b, mk, rm, hp, rfl, hw, ho, hr, hl⟩ := decRM_ok h
      cases hp; exact accepted_RM rfl (by simp) rfl (by simpa [Instr.wf, Pfx.sizeWf, show d.select x.pfx.opSize = _ from hs] using hw) ho hr hl
  · cases h

/-- The decoder accepts only well-formed canonical instructions, and consumes their bytes. -/
theorem decodeOp_ok {d : Size} {x : Prefixes} {op : Byte} {bs rest : List Byte} {i : Instr}
    (h : decodeOp d x op bs = .ok (i, rest)) : Accepted d x (bs.length + 1) i rest := by
  simp only [decodeOp] at h
  split at h
  · obtain ⟨⟨op2, t⟩, h1, h2⟩ := Dec.bind_eq_ok.1 h
    have hl := takeByte_ok h1
    have ha := decode0F_ok h2
    rw [show bs.length + 1 = t.length + 2 by simp only at *; omega]
    exact ha
  · obtain ⟨b, mk, rm, hp, rfl, hw, ho, hr, hl⟩ := decRM_ok h
    cases hp; exact accepted_RM rfl (by simp) rfl (hw) ho hr hl
  · cases hs : x.opSize d <;> simp only [bySize, hs] at h
    · obtain ⟨b, mk, rm, hp, rfl, hw, ho, hr, hl⟩ := decRM_ok h
      cases hp; exact accepted_RM rfl (by simp) rfl (by simpa [Instr.wf, Pfx.sizeWf, show d.select x.pfx.opSize = _ from hs] using hw) ho hr hl
    · obtain ⟨b, mk, rm, hp, rfl, hw, ho, hr, hl⟩ := decRM_ok h
      cases hp; exact accepted_RM rfl (by simp) rfl (by simpa [Instr.wf, Pfx.sizeWf, show d.select x.pfx.opSize = _ from hs] using hw) ho hr hl
  · obtain ⟨b, mk, rm, hp, rfl, hw, ho, hr, hl⟩ := decRM_ok h
    cases hp; exact accepted_RM rfl (by simp) rfl (hw) ho hr hl
  · cases hs : x.opSize d <;> simp only [bySize, hs] at h
    · obtain ⟨b, mk, rm, hp, rfl, hw, ho, hr, hl⟩ := decRM_ok h
      cases hp; exact accepted_RM rfl (by simp) rfl (by simpa [Instr.wf, Pfx.sizeWf, show d.select x.pfx.opSize = _ from hs] using hw) ho hr hl
    · obtain ⟨b, mk, rm, hp, rfl, hw, ho, hr, hl⟩ := decRM_ok h
      cases hp; exact accepted_RM rfl (by simp) rfl (by simpa [Instr.wf, Pfx.sizeWf, show d.select x.pfx.opSize = _ from hs] using hw) ho hr hl
  · obtain ⟨v, rfl, ho, hr, hl⟩ := decAcc_ok (fun _ _ _ => takeByte_ok) h
    exact accepted_plain rfl rfl (by simp) rfl rfl ho hr hl
  · cases hs : x.opSize d <;> simp only [bySize, hs] at h
    · obtain ⟨v, rfl, ho, hr, hl⟩ := decAcc_ok (fun _ _ _ => takeWord_ok) h
      exact accepted_plain rfl rfl (by simp) rfl
        (by simp [Instr.wf, Pfx.sizeWf, show d.select x.pfx.opSize = _ from hs]) ho hr hl
    · obtain ⟨v, rfl, ho, hr, hl⟩ := decAcc_ok (fun _ _ _ => takeDWord_ok) h
      exact accepted_plain rfl rfl (by simp) rfl
        (by simp [Instr.wf, Pfx.sizeWf, show d.select x.pfx.opSize = _ from hs]) ho hr hl
  · obtain ⟨b, mk, rm, hp, rfl, hw, ho, hr, hl⟩ := decRM_ok h
    cases hp; exact accepted_RM rfl (by simp) rfl (hw) ho hr hl
  · cases hs : x.opSize d <;> simp only [bySize, hs] at h
    · obtain ⟨b, mk, rm, hp, rfl, hw, ho, hr, hl⟩ := decRM_ok h
      cases hp; exact accepted_RM rfl (by simp) rfl (by simpa [Instr.wf, Pfx.sizeWf, show d.select x.pfx.opSize = _ from hs] using hw) ho hr hl
    · obtain ⟨b, mk, rm, hp, rfl, hw, ho, hr, hl⟩ := decRM_ok h
      cases hp; exact accepted_RM rfl (by simp) rfl (by simpa [Instr.wf, Pfx.sizeWf, show d.select x.pfx.opSize = _ from hs] using hw) ho hr hl
  · obtain ⟨b, mk, rm, hp, rfl, hw, ho, hr, hl⟩ := decRM_ok h
    cases hp; exact accepted_RM rfl (by simp) rfl (hw) ho hr hl
  · cases hs : x.opSize d <;> simp only [bySize, hs] at h
    · obtain ⟨b, mk, rm, hp, rfl, hw, ho, hr, hl⟩ := decRM_ok h
      cases hp; exact accepted_RM rfl (by simp) rfl (by simpa [Instr.wf, Pfx.sizeWf, show d.select x.pfx.opSize = _ from hs] using hw) ho hr hl
    · obtain ⟨b, mk, rm, hp, rfl, hw, ho, hr, hl⟩ := decRM_ok h
      cases hp; exact accepted_RM rfl (by simp) rfl (by simpa [Instr.wf, Pfx.sizeWf, show d.select x.pfx.opSize = _ from hs] using hw) ho hr hl
  · obtain ⟨v, rfl, ho, hr, hl⟩ := decAcc_ok (fun _ _ _ => takeByte_ok) h
    exact accepted_plain rfl rfl (by simp) rfl rfl ho hr hl
  · cases hs : x.opSize d <;> simp only [bySize, hs] at h
    · obtain ⟨v, rfl, ho, hr, hl⟩ := decAcc_ok (fun _ _ _ => takeWord_ok) h
      exact accepted_plain rfl rfl (by simp) rfl
        (by simp [Instr.wf, Pfx.sizeWf, show d.select x.pfx.opSize = _ from hs]) ho hr hl
    · obtain ⟨v, rfl, ho, hr, hl⟩ := decAcc_ok (fun _ _ _ => takeDWord_ok) h
      exact accepted_plain rfl rfl (by simp) rfl
        (by simp [Instr.wf, Pfx.sizeWf, show d.select x.pfx.opSize = _ from hs]) ho hr hl
  · obtain ⟨b, mk, rm, v, hp, rfl, hw, ho, hr, hl⟩ := decRMImm_ok (fun _ _ _ => takeByte_ok) h
    rcases arithDigit_some hp with rfl | rfl <;> exact accepted_RMImm rfl rfl (by simp) rfl (hw) ho hr hl
  · cases hs : x.opSize d <;> simp only [bySize, hs] at h
    · obtain ⟨b, mk, rm, v, hp, rfl, hw, ho, hr, hl⟩ := decRMImm_ok (fun _ _ _ => takeWord_ok) h
      rcases arithDigit_some hp with rfl | rfl <;> exact accepted_RMImm rfl rfl (by simp) rfl (by simpa [Instr.wf, Pfx.sizeWf, show d.select x.pfx.opSize = _ from hs] using hw) ho hr hl
    · obtain ⟨b, mk, rm, v, hp, rfl, hw, ho, hr, hl⟩ := decRMImm_ok (fun _ _ _ => takeDWord_ok) h
      rcases arithDigit_some hp with rfl | rfl <;> exact accepted_RMImm rfl rfl (by simp) rfl (by simpa [Instr.wf, Pfx.sizeWf, show d.select x.pfx.opSize = _ from hs] using hw) ho hr hl
  · cases hs : x.opSize d <;> simp only [bySize, hs] at h
    · obtain ⟨b, mk, rm, v, hp, rfl, hw, ho, hr, hl⟩ := decRMImm_ok (fun _ _ _ => takeByte_ok) h
      rcases arithDigit_some hp with rfl | rfl <;> exact accepted_RMImm rfl rfl (by simp) rfl (by simpa [Instr.wf, Pfx.sizeWf, show d.select x.pfx.opSize = _ from hs] using hw) ho hr hl
    · obtain ⟨b, mk, rm, v, hp, rfl, hw, ho, hr, hl⟩ := decRMImm_ok (fun _ _ _ => takeByte_ok) h
      rcases arithDigit_some hp with rfl | rfl <;> exact accepted_RMImm rfl rfl (by simp) rfl (by simpa [Instr.wf, Pfx.sizeWf, show d.select x.pfx.opSize = _ from hs] using hw) ho hr hl
  · obtain ⟨rfl, ho, hr, rfl⟩ := decPlain_ok h
    exact accepted_plain (bs := bs) (im := []) rfl rfl (by simp) rfl rfl ho hr (by simp)
  · obtain ⟨r, rfl, ho, hr, rfl⟩ := decStos_ok h
    exact accepted_plain (bs := bs) (im := []) rfl rfl (by simp) rfl rfl ho hr (by simp)
  · cases hs : x.opSize d <;> simp only [bySize, hs] at h
    · obtain ⟨r, rfl, ho, hr, rfl⟩ := decStos_ok h
      exact accepted_plain (bs := bs) (im := []) rfl rfl (by simp) rfl
        (by simp [Instr.wf, Pfx.sizeWf, show d.select x.pfx.opSize = _ from hs]) ho hr (by simp)
    · obtain ⟨r, rfl, ho, hr, rfl⟩ := decStos_ok h
      exact accepted_plain (bs := bs) (im := []) rfl rfl (by simp) rfl
        (by simp [Instr.wf, Pfx.sizeWf, show d.select x.pfx.opSize = _ from hs]) ho hr (by simp)
  · obtain ⟨rfl, ho, rfl⟩ := decScas_ok h
    exact accepted_plain (bs := bs) (im := []) rfl rfl (by simp) rfl rfl ho rfl (by simp)
  · cases hs : x.opSize d <;> simp only [bySize, hs] at h
    · obtain ⟨rfl, ho, rfl⟩ := decScas_ok h
      exact accepted_plain (bs := bs) (im := []) rfl rfl (by simp) rfl
        (by simp [Instr.wf, Pfx.sizeWf, show d.select x.pfx.opSize = _ from hs]) ho rfl (by simp)
    · obtain ⟨rfl, ho, rfl⟩ := decScas_ok h
      exact accepted_plain (bs := bs) (im := []) rfl rfl (by simp) rfl
        (by simp [Instr.wf, Pfx.sizeWf, show d.select x.pfx.opSize = _ from hs]) ho rfl (by simp)
  · obtain ⟨b, mk, rm, v, hp, rfl, hw, ho, hr, hl⟩ := decRMImm_ok (fun _ _ _ => takeByte_ok) h
    rcases shiftDigit_some hp with rfl | rfl | rfl <;> exact accepted_RMImm rfl rfl (by simp) rfl (hw) ho hr hl
  · cases hs : x.opSize d <;> simp only [bySize, hs] at h
    · obtain ⟨b, mk, rm, v, hp, rfl, hw, ho, hr, hl⟩ := decRMImm_ok (fun _ _ _ => takeByte_ok) h
      rcases shiftDigit_some hp with rfl | rfl | rfl <;> exact accepted_RMImm rfl rfl (by simp) rfl (by simpa [Instr.wf, Pfx.sizeWf, show d.select x.pfx.opSize = _ from hs] using hw) ho hr hl
    · obtain ⟨b, mk, rm, v, hp, rfl, hw, ho, hr, hl⟩ := decRMImm_ok (fun _ _ _ => takeByte_ok) h
      rcases shiftDigit_some hp with rfl | rfl | rfl <;> exact accepted_RMImm rfl rfl (by simp) rfl (by simpa [Instr.wf, Pfx.sizeWf, show d.select x.pfx.opSize = _ from hs] using hw) ho hr hl
  · obtain ⟨b, mk, rm, hp, rfl, hw, ho, hr, hl⟩ := decRM_ok h
    rcases shiftDigit_some hp with rfl | rfl | rfl <;> exact accepted_RM rfl (by simp) rfl (hw) ho hr hl
  · cases hs : x.opSize d <;> simp only [bySize, hs] at h
    · obtain ⟨b, mk, rm, hp, rfl, hw, ho, hr, hl⟩ := decRM_ok h
      rcases shiftDigit_some hp with rfl | rfl | rfl <;> exact accepted_RM rfl (by simp) rfl (by simpa [Instr.wf, Pfx.sizeWf, show d.select x.pfx.opSize = _ from hs] using hw) ho hr hl
    · obtain ⟨b, mk, rm, hp, rfl, hw, ho, hr, hl⟩ := decRM_ok h
      rcases shiftDigit_some hp with rfl | rfl | rfl <;> exact accepted_RM rfl (by simp) rfl (by simpa [Instr.wf, Pfx.sizeWf, show d.select x.pfx.opSize = _ from hs] using hw) ho hr hl
  · obtain ⟨b, mk, rm, hp, rfl, hw, ho, hr, hl⟩ := decRM_ok h
    rcases shiftDigit_some hp with rfl | rfl | rfl <;> exact accepted_RM rfl (by simp) rfl (hw) ho hr hl
  · cases hs : x.opSize d <;> simp only [bySize, hs] at h
    · obtain ⟨b, mk, rm, hp, rfl, hw, ho, hr, hl⟩ := decRM_ok h
      rcases shiftDigit_some hp with rfl | rfl | rfl <;> exact accepted_RM rfl (by simp) rfl (by simpa [Instr.wf, Pfx.sizeWf, show d.select x.pfx.opSize = _ from hs] using hw) ho hr hl
    · obtain ⟨b, mk, rm, hp, rfl, hw, ho, hr, hl⟩ := decRM_ok h
      rcases shiftDigit_some hp with rfl | rfl | rfl <;> exact accepted_RM rfl (by simp) rfl (by simpa [Instr.wf, Pfx.sizeWf, show d.select x.pfx.opSize = _ from hs] using hw) ho hr hl
  · obtain ⟨rfl, ho, hr, rfl⟩ := decPlain_ok h
    exact accepted_plain (bs := bs) (im := []) rfl rfl (by simp) rfl rfl ho hr (by simp)
  · obtain ⟨rfl, ho, hr, rfl⟩ := decPlain_ok h
    exact accepted_plain (bs := bs) (im := []) rfl rfl (by simp) rfl rfl ho hr (by simp)
  · obtain ⟨rfl, ho, hr, rfl⟩ := decPlain_ok h
    exact accepted_plain (bs := bs) (im := []) rfl rfl (by simp) rfl rfl ho hr (by simp)
  · cases h

end Sys2Proof
end

