-- ==== Sys2Proof/Laws/Regs.lean ====
section
/-! SUPPORT. General registers: reading after writing, at every width (R11, R12). -/

namespace Sys2Proof.Machine

@[simp] theorem Regs.get32_set32_same (r : Regs) (n : RegNo) (v : DWord) : (r.set32 n v).get32 n = v := by
  cases n <;> rfl

theorem Regs.get32_set32_other (r : Regs) {n m : RegNo} (v : DWord) (h : m ≠ n) :
    (r.set32 n v).get32 m = r.get32 m := by
  cases n <;> cases m <;> first | rfl | exact absurd rfl h

/-- Writing back what a register holds changes nothing. -/
@[simp] theorem Regs.set32_get32 (r : Regs) (n : RegNo) : r.set32 n (r.get32 n) = r := by cases n <;> rfl

/-- Registers with the same eight values are the same. -/
theorem Regs.ext_get32 {r q : Regs} (h : ∀ n, r.get32 n = q.get32 n) : r = q := by
  obtain ⟨_, _, _, _, _, _, _, _⟩ := r
  obtain ⟨_, _, _, _, _, _, _, _⟩ := q
  have h0 := h .n0; have h1 := h .n1; have h2 := h .n2; have h3 := h .n3
  have h4 := h .n4; have h5 := h .n5; have h6 := h .n6; have h7 := h .n7
  simp only [Regs.get32] at h0 h1 h2 h3 h4 h5 h6 h7
  simp [h0, h1, h2, h3, h4, h5, h6, h7]

theorem replaceWord_getLsbD (x : DWord) (v : Word) (i : Nat) :
    (replaceWord x v).getLsbD i = if i < 16 then v.getLsbD i else x.getLsbD i := by
  have h := BitVec.getLsbD_append (x := x.extractLsb' 16 16) (y := v) (i := i)
  refine Eq.trans h ?_
  by_cases h16 : i < 16
  · simp [h16]
  · by_cases h32 : i < 32
    · have : 16 + (i - 16) = i := by omega
      have h' : i - 16 < 16 := by omega
      simp [h16, this, h']
    · have h' : ¬ i - 16 < 16 := by omega
      simp only [h16, if_false, BitVec.getLsbD_extractLsb', h', decide_false, Bool.false_and]
      exact (BitVec.getLsbD_of_ge x i (by omega)).symm

theorem replaceByte_getLsbD (high : Bool) (x : DWord) (v : Byte) (i : Nat) :
    (replaceByte high x v).getLsbD i =
      if high then (if i < 8 then x.getLsbD i else if i < 16 then v.getLsbD (i - 8) else x.getLsbD i)
      else if i < 8 then v.getLsbD i else x.getLsbD i := by
  cases high
  · have h := BitVec.getLsbD_append (x := x.extractLsb' 8 24) (y := v) (i := i)
    refine Eq.trans h ?_
    by_cases h8 : i < 8
    · simp [h8]
    · by_cases h32 : i < 32
      · have : 8 + (i - 8) = i := by omega
        have h' : i - 8 < 24 := by omega
        simp [h8, this, h']
      · have h' : ¬ i - 8 < 24 := by omega
        simp only [h8, if_false, BitVec.getLsbD_extractLsb', h', decide_false, Bool.false_and]
        exact (BitVec.getLsbD_of_ge x i (by omega)).symm
  · have h := BitVec.getLsbD_append (x := x.extractLsb' 16 16 ++ v) (y := x.extractLsb' 0 8) (i := i)
    have h2 := BitVec.getLsbD_append (x := x.extractLsb' 16 16) (y := v) (i := i - 8)
    refine Eq.trans h ?_
    by_cases h8 : i < 8
    · simp [h8]
    · simp only [h8, if_false, if_true]
      refine Eq.trans h2 ?_
      by_cases h16 : i < 16
      · have : i - 8 < 8 := by omega
        simp [h16, this]
      · have h9 : ¬ i - 8 < 8 := by omega
        by_cases h32 : i < 32
        · have : 16 + (i - 8 - 8) = i := by omega
          have h' : i - 8 - 8 < 16 := by omega
          simp [h16, h9, this, h']
        · have h' : ¬ i - 8 - 8 < 16 := by omega
          simp only [h16, h9, if_false, BitVec.getLsbD_extractLsb', h', decide_false, Bool.false_and]
          exact (BitVec.getLsbD_of_ge x i (by omega)).symm

theorem replaceByte_low (x : DWord) (v : Byte) : (replaceByte false x v).extractLsb' 0 8 = v := by
  refine BitVec.eq_of_getLsbD_eq fun i hi => ?_
  simp [replaceByte_getLsbD, hi]

theorem replaceByte_high (x : DWord) (v : Byte) : (replaceByte true x v).extractLsb' 8 8 = v := by
  refine BitVec.eq_of_getLsbD_eq fun i hi => ?_
  have h8 : ¬ 8 + i < 8 := by omega
  have h16 : 8 + i < 16 := by omega
  simp [replaceByte_getLsbD, hi, h16]

theorem replaceWord_low (x : DWord) (v : Word) : (replaceWord x v).extractLsb' 0 16 = v := by
  refine BitVec.eq_of_getLsbD_eq fun i hi => ?_
  simp [replaceWord_getLsbD, hi]

/-- A register reads back as it was written, at its width. -/
@[simp] theorem Regs.get_put_same (w : Width) (r : Regs) (n : RegNo) (v : BitVec w.bits) :
    (r.put w n v).get w n = v := by
  cases w
  · cases hb : isHighByte n
    · simpa [Regs.get, Regs.put, hb] using replaceByte_low _ v
    · simpa [Regs.get, Regs.put, hb] using replaceByte_high _ v
  · simpa [Regs.get, Regs.put] using replaceWord_low _ v
  · simp [Regs.get, Regs.put]

/-- A write leaves every other 32-bit register alone. -/
theorem Regs.get32_put_other (w : Width) (r : Regs) {n m : RegNo} (v : BitVec w.bits) (h : m ≠ regHome w n) :
    (r.put w n v).get32 m = r.get32 m := by
  cases w <;> exact Regs.get32_set32_other r _ h

/-- The 32-bit register a write goes to. -/
theorem Regs.get32_put_home (w : Width) (r : Regs) (n : RegNo) (v : BitVec w.bits) :
    (r.put w n v).get32 (regHome w n) =
      (match w, v with
        | .w8, v => replaceByte (isHighByte n) (r.get32 (byteHome n)) v
        | .w16, v => replaceWord (r.get32 n) v
        | .w32, v => v) := by
  cases w <;> simp [Regs.put, regHome]

/-- Writing back what a register holds changes nothing, at any width. -/
@[simp] theorem Regs.put_get (w : Width) (r : Regs) (n : RegNo) : r.put w n (r.get w n) = r := by
  cases w
  · have h : replaceByte (isHighByte n) (r.get32 (byteHome n)) (r.get .w8 n) = r.get32 (byteHome n) := by
      refine BitVec.eq_of_getLsbD_eq fun i hi => ?_
      rw [replaceByte_getLsbD]
      cases hb : isHighByte n
      · by_cases h8 : i < 8 <;> simp [Regs.get, hb, h8]
      · by_cases h8 : i < 8
        · simp [h8]
        · by_cases h16 : i < 16
          · have h1 : i - 8 < 8 := by omega
            have h2 : 8 + (i - 8) = i := by omega
            simp [Regs.get, hb, h8, h16, h1, h2]
          · simp [h8, h16]
    simp only [Regs.put, h, Regs.set32_get32]
  · have h : replaceWord (r.get32 n) (r.get .w16 n) = r.get32 n := by
      refine BitVec.eq_of_getLsbD_eq fun i hi => ?_
      rw [replaceWord_getLsbD]
      by_cases h16 : i < 16 <;> simp [Regs.get, h16]
    simp only [Regs.put, h, Regs.set32_get32]
  · simp [Regs.put, Regs.get]

theorem replaceWord_toNat (x : DWord) (v : Word) :
    (replaceWord x v).toNat = x.toNat / 65536 * 65536 + v.toNat := by
  have h : (replaceWord x v).toNat = (x.extractLsb' 16 16).toNat <<< 16 ||| v.toNat :=
    BitVec.toNat_append (x := x.extractLsb' 16 16) (y := v)
  have hx := x.isLt
  have hv : v.toNat < 2 ^ 16 := v.isLt
  rw [h, ← Nat.shiftLeft_add_eq_or_of_lt hv, Nat.shiftLeft_eq, BitVec.extractLsb'_toNat,
    Nat.shiftRight_eq_div_pow]
  omega

/-- A repeat count that is not 0 goes down, and ECX with it. -/
theorem decCount_ecx_lt (s : State) (a : Size) (h : s.repCount a ≠ 0) :
    (s.decCount a).regs.ecx.toNat < s.regs.ecx.toNat := by
  have hx := s.regs.ecx.isLt
  cases a
  · have hl : (s.regs.ecx.extractLsb' 0 16).toNat = s.regs.ecx.toNat % 65536 := by
      simp [BitVec.extractLsb'_toNat]
    have hm : s.regs.ecx.toNat % 65536 ≠ 0 := fun hh =>
      h (BitVec.eq_of_toNat_eq (hl.trans hh))
    have e : (s.decCount .s16).regs.ecx
        = replaceWord s.regs.ecx (s.regs.ecx.extractLsb' 0 16 - 1#16) := rfl
    rw [e, replaceWord_toNat, BitVec.toNat_sub, hl]
    simp
    omega
  · have hm : s.regs.ecx.toNat ≠ 0 := fun hh => h (BitVec.eq_of_toNat_eq hh)
    have e : (s.decCount .s32).regs.ecx = s.regs.ecx - 1#32 := rfl
    rw [e, BitVec.toNat_sub]
    simp
    omega

end Sys2Proof.Machine
end

