-- ==== Sys2Proof/Laws/Meaning.lean ====
section
/-! SUPPORT. What each shared operation of the meanings does: once when it succeeds, once for the
exceptions it can take. -/

namespace Sys2Proof.Machine

/-! ### The r/m operand -/

/-- Where a result goes when the checks let it through (R88). -/
theorem State.rmPlace_eq_ok {s : State} {w : Width} {rm : RM} {pl : Place} :
    s.rmPlace w rm = .ok pl ↔
      (∃ n, rm = .reg n ∧ pl = .reg n)
        ∨ ∃ m as, rm = .mem m ∧ s.storeAddrs (memSegment m) (memOffset s m) w.bytes = .ok as
            ∧ pl = .bytes as := by
  cases rm with
  | reg n => simp [State.rmPlace, eq_comm]
  | mem m =>
    simp only [State.rmPlace, Res.bind_eq_ok, Except.ok.injEq, reduceCtorEq, false_and, exists_false,
      false_or, RM.mem.injEq]
    constructor
    · rintro ⟨as, h, rfl⟩; exact ⟨m, as, rfl, h, rfl⟩
    · rintro ⟨_, as, rfl, h, rfl⟩; exact ⟨as, h, rfl⟩

/-- A place the checks let through passes the write check (R56). -/
theorem State.checkWriteRM_of_rmPlace {s : State} {w : Width} {rm : RM} {pl : Place}
    (h : s.rmPlace w rm = .ok pl) : s.checkWriteRM w rm = .ok () := by
  rcases State.rmPlace_eq_ok.1 h with ⟨n, rfl, -⟩ | ⟨m, as, rfl, h, -⟩
  · rfl
  · exact State.checkWrite_eq_ok.2 ⟨as, (State.storeAddrs_eq_ok.1 h).1⟩

theorem State.checkWriteRM_error {s : State} {w : Width} {rm : RM} {e : Stop}
    (h : s.checkWriteRM w rm = .error e) :
    ∃ m x, rm = .mem m ∧ e = .exc x
      ∧ s.operandAddrs (memSegment m) (memOffset s m) w.bytes .write = .error (.exc x) := by
  cases rm with
  | reg n => cases h
  | mem m =>
    have h1 := State.checkWrite_eq_error.1 h
    obtain ⟨x, rfl⟩ := State.operandAddrs_error h1
    exact ⟨m, x, rfl, rfl, h1⟩

theorem State.readRM_exc {s : State} {w : Width} {rm : RM} {x : Exc}
    (h : s.readRM w rm = .error (.exc x)) :
    ∃ m, rm = .mem m ∧ s.operandAddrs (memSegment m) (memOffset s m) w.bytes .read = .error (.exc x) := by
  cases rm with
  | reg n => cases h
  | mem m =>
    rcases State.readSeg_error h with ⟨y, he, h1⟩ | ⟨f, he⟩
    · cases he; exact ⟨m, rfl, h1⟩
    · cases he

theorem State.rmPlace_exc {s : State} {w : Width} {rm : RM} {x : Exc}
    (h : s.rmPlace w rm = .error (.exc x)) :
    ∃ m, rm = .mem m ∧ s.operandAddrs (memSegment m) (memOffset s m) w.bytes .write = .error (.exc x) := by
  cases rm with
  | reg n => cases h
  | mem m =>
    simp only [State.rmPlace, Res.bind_eq_error] at h
    rcases h with h | ⟨as, -, h⟩
    · rcases State.storeAddrs_error h with ⟨y, he, h1⟩ | ⟨r, he⟩ | ⟨f, he⟩
      · cases he; exact ⟨m, rfl, h1⟩
      · cases he
      · cases he
    · cases h

theorem State.writeRM_eq_ok {s t : State} {w : Width} {rm : RM} {v : BitVec w.bits} :
    s.writeRM w rm v = .ok t ↔ ∃ pl, s.rmPlace w rm = .ok pl ∧ t = s.put w pl v := by
  exact Res.map_eq_ok

theorem State.writeRM_exc {s : State} {w : Width} {rm : RM} {v : BitVec w.bits} {x : Exc}
    (h : s.writeRM w rm v = .error (.exc x)) :
    ∃ m, rm = .mem m ∧ s.operandAddrs (memSegment m) (memOffset s m) w.bytes .write = .error (.exc x) := by
  simp only [State.writeRM, Res.bind_eq_error] at h
  rcases h with h | ⟨pl, -, h⟩
  · exact State.rmPlace_exc h
  · cases h

/-! ### Shifts -/

/-- What a shift can do (R115). -/
theorem shiftRM_eq_ok {op : ShiftOp} {w : Width} {src : CountSrc} {rm : RM} {len : Nat} {s t : State} :
    shiftRM op w src rm len s = .ok t ↔
      ∃ v pl, s.readRM w rm = .ok v ∧ s.rmPlace w rm = .ok pl
        ∧ t = (if src.count s = 0 then (s.put w pl v).complete len
            else ({ s.put w pl (op.result v (src.count s)) with
                    flags := shiftFlags op v (src.count s) s.draws s.flags
                    draws := s.draws + shiftDraws (src.count s) } : State).complete len) := by
  simp only [shiftRM, Res.bind_eq_ok]
  constructor
  · rintro ⟨-, -, v, hv, pl, hp, h⟩
    refine ⟨v, pl, hv, hp, ?_⟩
    split at h <;> next hc => cases h; simp [hc]
  · rintro ⟨v, pl, hv, hp, rfl⟩
    refine ⟨(), State.checkWriteRM_of_rmPlace hp, v, hv, pl, hp, ?_⟩
    split <;> rfl

theorem shiftRM_exc {op : ShiftOp} {w : Width} {src : CountSrc} {rm : RM} {len : Nat} {s : State} {x : Exc}
    (h : shiftRM op w src rm len s = .error (.exc x)) :
    ∃ m k, rm = .mem m ∧ s.operandAddrs (memSegment m) (memOffset s m) w.bytes k = .error (.exc x) := by
  simp only [shiftRM, Res.bind_eq_error] at h
  rcases h with h | ⟨-, -, h | ⟨v, -, h | ⟨pl, -, h⟩⟩⟩
  · obtain ⟨m, y, rfl, he, h1⟩ := State.checkWriteRM_error h; cases he; exact ⟨m, _, rfl, h1⟩
  · obtain ⟨m, rfl, h1⟩ := State.readRM_exc h; exact ⟨m, _, rfl, h1⟩
  · obtain ⟨m, rfl, h1⟩ := State.rmPlace_exc h; exact ⟨m, _, rfl, h1⟩
  · split at h <;> cases h

/-! ### Subtractions -/

/-- What the forms with an r/m destination can do (R132 to R134, R212 to R214). -/
theorem subToRM_eq_ok {w : Width} {rm : RM} {b : BitVec w.bits} {c : Bool} {len : Nat} {s t : State} :
    subToRM w rm b c len s = .ok t ↔
      ∃ a pl, s.readRM w rm = .ok a ∧ s.rmPlace w rm = .ok pl
        ∧ t = ({ s.put w pl (subResult a b c) with flags := s.flags.setSub a b c } : State).complete len := by
  simp only [subToRM, Res.bind_eq_ok, Except.ok.injEq]
  constructor
  · rintro ⟨-, -, a, ha, pl, hp, rfl⟩; exact ⟨a, pl, ha, hp, rfl⟩
  · rintro ⟨a, pl, ha, hp, rfl⟩; exact ⟨(), State.checkWriteRM_of_rmPlace hp, a, ha, pl, hp, rfl⟩

theorem subToRM_exc {w : Width} {rm : RM} {b : BitVec w.bits} {c : Bool} {len : Nat} {s : State} {x : Exc}
    (h : subToRM w rm b c len s = .error (.exc x)) :
    ∃ m k, rm = .mem m ∧ s.operandAddrs (memSegment m) (memOffset s m) w.bytes k = .error (.exc x) := by
  simp only [subToRM, Res.bind_eq_error] at h
  rcases h with h | ⟨-, -, h | ⟨v, -, h | ⟨pl, -, h⟩⟩⟩
  · obtain ⟨m, y, rfl, he, h1⟩ := State.checkWriteRM_error h; cases he; exact ⟨m, _, rfl, h1⟩
  · obtain ⟨m, rfl, h1⟩ := State.readRM_exc h; exact ⟨m, _, rfl, h1⟩
  · obtain ⟨m, rfl, h1⟩ := State.rmPlace_exc h; exact ⟨m, _, rfl, h1⟩
  · cases h

/-- What the forms with a register destination can do (R135, R215). -/
theorem subFromRM_eq_ok {w : Width} {r : RegNo} {rm : RM} {c : Bool} {len : Nat} {s t : State} :
    subFromRM w r rm c len s = .ok t ↔
      ∃ b, s.readRM w rm = .ok b
        ∧ t = ({ s with
                  regs := s.regs.put w r (subResult (s.regs.get w r) b c)
                  flags := s.flags.setSub (s.regs.get w r) b c } : State).complete len := by
  exact Res.map_eq_ok

theorem subFromRM_exc {w : Width} {r : RegNo} {rm : RM} {c : Bool} {len : Nat} {s : State} {x : Exc}
    (h : subFromRM w r rm c len s = .error (.exc x)) :
    ∃ m, rm = .mem m ∧ s.operandAddrs (memSegment m) (memOffset s m) w.bytes .read = .error (.exc x) := by
  simp only [subFromRM, Res.bind_eq_error] at h
  rcases h with h | ⟨v, -, h⟩
  · exact State.readRM_exc h
  · cases h

/-! ### String instructions -/

/-- What one comparison can do (R142 to R144). -/
theorem scasBody_eq_ok {w : Width} {a : Size} {s t : State} :
    scasBody w a s = .ok t ↔
      ∃ m, s.readSeg w .es (s.index a) = .ok m
        ∧ t = { s with
                flags := s.flags.setSub (s.acc w) m false
                regs := s.regs.stepIndex a s.flags.df w.bytes } := by
  exact Res.map_eq_ok

theorem scasBody_exc {w : Width} {a : Size} {s : State} {x : Exc} (h : scasBody w a s = .error (.exc x)) :
    s.operandAddrs .es (s.index a) w.bytes .read = .error (.exc x) := by
  simp only [scasBody, Res.bind_eq_error] at h
  rcases h with h | ⟨m, -, h⟩
  · rcases State.readSeg_error h with ⟨y, he, h1⟩ | ⟨f, he⟩
    · cases he; exact h1
    · cases he
  · cases h

/-- What SCAS can do (R142 to R144, R147). -/
theorem scas_eq_ok {w : Width} {a : Size} {rep : Option RepCond} {len : Nat} {s t : State} :
    scas w a rep len s = .ok t ↔
      (rep = none ∧ ∃ u, scasBody w a s = .ok u ∧ t = u.complete len)
        ∨ ∃ k, rep = some k
          ∧ ((s.repCount a = 0 ∧ t = s.complete len)
            ∨ (s.repCount a ≠ 0 ∧ ∃ u, scasBody w a s = .ok u
                ∧ t = if (u.decCount a).repCount a = 0 ∨ repEnds k u.flags.zf = true
                      then (u.decCount a).complete len else u.decCount a)) := by
  cases rep with
  | none =>
    simp only [reduceCtorEq, false_and, exists_false, or_false, true_and]
    exact Res.map_eq_ok
  | some k =>
    simp only [scas, reduceCtorEq, false_and, false_or, Option.some.injEq, exists_eq_left']
    split
    · next h => simp only [h, ne_eq, not_true, false_and, or_false, true_and, Except.ok.injEq]; exact eq_comm
    · next h =>
      simp only [Res.bind_eq_ok, h, false_and, false_or, ne_eq, not_false_eq_true, true_and]
      constructor
      · rintro ⟨u, hu, ht⟩
        refine ⟨u, hu, ?_⟩
        split at ht <;> next hc => cases ht; first | rw [if_pos hc] | rw [if_neg hc]
      · rintro ⟨u, hu, rfl⟩
        refine ⟨u, hu, ?_⟩
        split <;> rfl

theorem scas_exc {w : Width} {a : Size} {rep : Option RepCond} {len : Nat} {s : State} {x : Exc}
    (h : scas w a rep len s = .error (.exc x)) :
    (rep.isSome = true → s.repCount a ≠ 0)
      ∧ s.operandAddrs .es (s.index a) w.bytes .read = .error (.exc x) := by
  cases rep with
  | none =>
    simp only [scas, Res.bind_eq_error] at h
    rcases h with h | ⟨u, -, h⟩
    · exact ⟨by simp, scasBody_exc h⟩
    · cases h
  | some k =>
    simp only [scas] at h
    split at h
    · cases h
    · next hc =>
      simp only [Res.bind_eq_error] at h
      rcases h with h | ⟨u, -, h⟩
      · exact ⟨fun _ => hc, scasBody_exc h⟩
      · split at h <;> cases h

/-- What one store can do (R201 to R203). -/
theorem stosBody_eq_ok {w : Width} {a : Size} {s t : State} :
    stosBody w a s = .ok t ↔
      ∃ as, s.storeAddrs .es (s.index a) w.bytes = .ok as
        ∧ t = { s.storeAt as (s.acc w).toNat with regs := s.regs.stepIndex a s.flags.df w.bytes } := by
  simp only [stosBody, State.writeSeg, Res.bind_eq_ok, Except.ok.injEq]
  constructor
  · rintro ⟨u, ⟨as, h, rfl⟩, rfl⟩; exact ⟨as, h, rfl⟩
  · rintro ⟨as, h, rfl⟩; exact ⟨_, ⟨as, h, rfl⟩, rfl⟩

theorem stosBody_exc {w : Width} {a : Size} {s : State} {x : Exc} (h : stosBody w a s = .error (.exc x)) :
    s.operandAddrs .es (s.index a) w.bytes .write = .error (.exc x) := by
  simp only [stosBody, State.writeSeg, Res.bind_eq_error] at h
  rcases h with (h | ⟨as, -, h⟩) | ⟨u, -, h⟩
  · rcases State.storeAddrs_error h with ⟨y, he, h1⟩ | ⟨r, he⟩ | ⟨f, he⟩
    · cases he; exact h1
    · cases he
    · cases he
  · cases h
  · cases h

/-- What STOS can do (R201 to R204). -/
theorem stos_eq_ok {w : Width} {a : Size} {rep : Bool} {len : Nat} {s t : State} :
    stos w a rep len s = .ok t ↔
      (rep = false ∧ ∃ u, stosBody w a s = .ok u ∧ t = u.complete len)
        ∨ (rep = true ∧ s.repCount a = 0 ∧ t = s.complete len)
        ∨ (rep = true ∧ s.repCount a ≠ 0 ∧ ∃ u, stosBody w a s = .ok u
            ∧ t = if (u.decCount a).repCount a = 0 then (u.decCount a).complete len
                  else u.decCount a) := by
  cases rep with
  | false =>
    simp only [reduceCtorEq, false_and, or_false, true_and]
    exact Res.map_eq_ok
  | true =>
    simp only [stos, if_true, reduceCtorEq, false_and, false_or, true_and]
    split
    · next h => simp only [h, ne_eq, not_true, false_and, or_false, true_and, Except.ok.injEq]; exact eq_comm
    · next h =>
      simp only [Res.bind_eq_ok, h, false_and, false_or, ne_eq, not_false_eq_true, true_and]
      constructor
      · rintro ⟨u, hu, ht⟩
        refine ⟨u, hu, ?_⟩
        split at ht <;> next hc => cases ht; first | rw [if_pos hc] | rw [if_neg hc]
      · rintro ⟨u, hu, rfl⟩
        refine ⟨u, hu, ?_⟩
        split <;> rfl

theorem stos_exc {w : Width} {a : Size} {rep : Bool} {len : Nat} {s : State} {x : Exc}
    (h : stos w a rep len s = .error (.exc x)) :
    (rep = true → s.repCount a ≠ 0)
      ∧ s.operandAddrs .es (s.index a) w.bytes .write = .error (.exc x) := by
  cases rep with
  | false =>
    simp only [stos, if_false, reduceCtorEq, Res.bind_eq_error] at h
    rcases h with h | ⟨u, -, h⟩
    · exact ⟨by simp, stosBody_exc h⟩
    · cases h
  | true =>
    simp only [stos, if_true] at h
    split at h
    · cases h
    · next hc =>
      simp only [Res.bind_eq_error] at h
      rcases h with h | ⟨u, -, h⟩
      · exact ⟨fun _ => hc, stosBody_exc h⟩
      · split at h <;> cases h

/-! ### SETcc and the system stores -/

/-- What SETcc can do (R150). -/
theorem setcc_eq_ok {c : Cond} {rm : RM} {len : Nat} {s t : State} :
    setcc c rm len s = .ok t ↔
      ∃ pl, s.rmPlace .w8 rm = .ok pl ∧ t = (s.put .w8 pl (condByte c s.flags)).complete len := by
  simp only [setcc, Res.bind_eq_ok, State.writeRM_eq_ok, Except.ok.injEq]
  constructor
  · rintro ⟨u, ⟨pl, hp, rfl⟩, rfl⟩; exact ⟨pl, hp, rfl⟩
  · rintro ⟨pl, hp, rfl⟩; exact ⟨_, ⟨pl, hp, rfl⟩, rfl⟩

theorem setcc_exc {c : Cond} {rm : RM} {len : Nat} {s : State} {x : Exc}
    (h : setcc c rm len s = .error (.exc x)) :
    ∃ m, rm = .mem m ∧ s.operandAddrs (memSegment m) (memOffset s m) 1 .write = .error (.exc x) := by
  simp only [setcc, Res.bind_eq_error] at h
  rcases h with h | ⟨u, -, h⟩
  · exact State.writeRM_exc h
  · cases h

/-- What SGDT and SIDT can do (R172, R173). -/
theorem storeTable_eq_ok {tb : TableReg} {p : Pfx} {rm : RM} {len : Nat} {s t : State} :
    storeTable tb p rm len s = .ok t ↔
      ∃ m as, rm = .mem m
        ∧ s.storeAddrs (memSegment m) (memOffset s m) 6 = .ok as
        ∧ t = ({ s.storeAt as (tableImage (s.operandSize p) s.sgdt16Top tb s.draws).toNat with
                draws := s.draws + tableDraws (s.operandSize p) s.sgdt16Top } : State).complete len := by
  cases rm with
  | reg n => simp [storeTable]
  | mem m =>
    simp only [storeTable, Res.bind_eq_ok, Except.ok.injEq, RM.mem.injEq]
    constructor
    · rintro ⟨as, ha, rfl⟩; exact ⟨m, as, rfl, ha, rfl⟩
    · rintro ⟨_, as, rfl, ha, rfl⟩; exact ⟨as, ha, rfl⟩

theorem storeTable_exc {tb : TableReg} {p : Pfx} {rm : RM} {len : Nat} {s : State} {x : Exc}
    (h : storeTable tb p rm len s = .error (.exc x)) :
    (x = .ud ∧ ∃ n, rm = .reg n)
      ∨ ∃ m, rm = .mem m ∧ s.operandAddrs (memSegment m) (memOffset s m) 6 .write = .error (.exc x) := by
  cases rm with
  | reg n => simp [storeTable] at h; exact .inl ⟨h.symm, n, rfl⟩
  | mem m =>
    refine .inr ⟨m, rfl, ?_⟩
    simp only [storeTable, Res.bind_eq_error] at h
    rcases h with h | ⟨as, -, h⟩
    · rcases State.storeAddrs_error h with ⟨y, he, h1⟩ | ⟨r, he⟩ | ⟨f, he⟩
      · cases he; exact h1
      · cases he
      · cases he
    · cases h

/-- What the 16-bit system stores can do (R186, R189, R207). -/
theorem storeWord16_eq_ok {v : Word} {rm : RM} {len : Nat} {s t : State} :
    storeWord16 v rm len s = .ok t ↔
      ∃ pl, s.rmPlace .w16 rm = .ok pl ∧ t = (s.put .w16 pl v).complete len := by
  simp only [storeWord16, Res.bind_eq_ok, State.writeRM_eq_ok, Except.ok.injEq]
  constructor
  · rintro ⟨u, ⟨pl, hp, rfl⟩, rfl⟩; exact ⟨pl, hp, rfl⟩
  · rintro ⟨pl, hp, rfl⟩; exact ⟨_, ⟨pl, hp, rfl⟩, rfl⟩

theorem storeWord16_exc {v : Word} {rm : RM} {len : Nat} {s : State} {x : Exc}
    (h : storeWord16 v rm len s = .error (.exc x)) :
    ∃ m, rm = .mem m ∧ s.operandAddrs (memSegment m) (memOffset s m) 2 .write = .error (.exc x) := by
  simp only [storeWord16, Res.bind_eq_error] at h
  rcases h with h | ⟨u, -, h⟩
  · exact State.writeRM_exc h
  · cases h

/-- What SLDT and STR can do (R186, R187, R207, R208). -/
theorem storeSelector_eq_ok {v : Word} {rm : RM} {len : Nat} {s t : State} :
    storeSelector v rm len s = .ok t ↔ s.mode = .prot ∧ storeWord16 v rm len s = .ok t := by
  simp only [storeSelector]; split <;> next h => simp [h]

theorem storeSelector_exc {v : Word} {rm : RM} {len : Nat} {s : State} {x : Exc}
    (h : storeSelector v rm len s = .error (.exc x)) :
    (x = .ud ∧ s.mode ≠ .prot)
      ∨ s.mode = .prot ∧ ∃ m, rm = .mem m
          ∧ s.operandAddrs (memSegment m) (memOffset s m) 2 .write = .error (.exc x) := by
  simp only [storeSelector] at h
  split at h
  · next hm => exact .inr ⟨hm, storeWord16_exc h⟩
  · next hm => cases h; exact .inl ⟨rfl, hm⟩

/-! ### Double shifts -/

/-- What SHLD and SHRD can do (R178, R179, R181, R182). -/
theorem dshiftRM_eq_ok {op : DShiftOp} {w : Width} {src : CountSrc} {rm : RM} {r : RegNo} {len : Nat}
    {s t : State} :
    dshiftRM op w src rm r len s = .ok t ↔
      s.checkWriteRM w rm = .ok ()
        ∧ ((src.count s = 0 ∧ t = s.complete len)
          ∨ (src.count s ≠ 0 ∧ w.bits ≤ src.count s ∧ ∃ pl, s.rmPlace w rm = .ok pl
              ∧ t = ({ s.put w pl (drawnResult w s.draws) with
                        flags := drawnFlags (s.draws + 1) s.flags
                        draws := s.draws + 7 } : State).complete len)
          ∨ (src.count s ≠ 0 ∧ src.count s < w.bits ∧ ∃ v pl, s.readRM w rm = .ok v
              ∧ s.rmPlace w rm = .ok pl
              ∧ t = ({ s.put w pl (op.result v (s.regs.get w r) (src.count s)) with
                        flags := dshiftFlags op v (s.regs.get w r) (src.count s) s.draws s.flags
                        draws := s.draws + 2 } : State).complete len)) := by
  simp only [dshiftRM, Res.bind_eq_ok]
  constructor
  · rintro ⟨u, hc, h⟩
    refine ⟨hc, ?_⟩
    split at h
    · next h0 => cases h; exact .inl ⟨h0, rfl⟩
    · next h0 =>
      split at h
      · next hn =>
        simp only [Res.bind_eq_ok, Except.ok.injEq] at h
        obtain ⟨pl, hp, rfl⟩ := h
        exact .inr (.inl ⟨h0, hn, pl, hp, rfl⟩)
      · next hn =>
        simp only [Res.bind_eq_ok, Except.ok.injEq] at h
        obtain ⟨v, hv, pl, hp, rfl⟩ := h
        exact .inr (.inr ⟨h0, by omega, v, pl, hv, hp, rfl⟩)
  · rintro ⟨hc, h⟩
    refine ⟨(), hc, ?_⟩
    rcases h with ⟨h0, rfl⟩ | ⟨h0, hn, pl, hp, rfl⟩ | ⟨h0, hn, v, pl, hv, hp, rfl⟩
    · rw [if_pos h0]
    · rw [if_neg h0, if_pos hn]; simp [hp]
    · rw [if_neg h0, if_neg (by omega)]; simp [hv, hp]

theorem dshiftRM_exc {op : DShiftOp} {w : Width} {src : CountSrc} {rm : RM} {r : RegNo} {len : Nat}
    {s : State} {x : Exc} (h : dshiftRM op w src rm r len s = .error (.exc x)) :
    ∃ m k, rm = .mem m ∧ s.operandAddrs (memSegment m) (memOffset s m) w.bytes k = .error (.exc x) := by
  simp only [dshiftRM, Res.bind_eq_error] at h
  rcases h with h | ⟨-, -, h⟩
  · obtain ⟨m, y, rfl, he, h1⟩ := State.checkWriteRM_error h; cases he; exact ⟨m, _, rfl, h1⟩
  · split at h
    · cases h
    · split at h
      · simp only [Res.bind_eq_error] at h
        rcases h with h | ⟨pl, -, h⟩
        · obtain ⟨m, rfl, h1⟩ := State.rmPlace_exc h; exact ⟨m, _, rfl, h1⟩
        · cases h
      · simp only [Res.bind_eq_error] at h
        rcases h with h | ⟨v, -, h | ⟨pl, -, h⟩⟩
        · obtain ⟨m, rfl, h1⟩ := State.readRM_exc h; exact ⟨m, _, rfl, h1⟩
        · obtain ⟨m, rfl, h1⟩ := State.rmPlace_exc h; exact ⟨m, _, rfl, h1⟩
        · cases h

end Sys2Proof.Machine
end

