-- ==== Sys2Proof/Laws/Effect.lean ====
section
/-! SUPPORT. What every completed instruction has in common, and what a next state can be. -/

namespace Sys2Proof.Machine

/-- What an instruction of `len` bytes leaves in common with every other one when it takes no exception. -/
structure Effect (len : Nat) (s t : State) : Prop where
  launch : t.launchPart = s.launchPart
  faulted : t.faulted = s.faulted
  memory : s.mem.wf → t.mem.wf
  progress : (t.eip = s.nextEip len ∧ t.wrapped = (s.wrapped || s.wraps len))
    ∨ (t.eip = s.eip ∧ t.wrapped = s.wrapped ∧ t.regs.ecx.toNat < s.regs.ecx.toNat)
  df : s.flags.df = true → t.flags.df = true
  ifl : s.flags.ifl = true → t.flags.ifl = true

/-- What a next state of an instruction can be. -/
def Outcome (len : Nat) (s t : State) : Prop :=
  Effect len s t ∨ (∃ x, t = s.takeException x) ∨ t = s.markFaulted .gp0

theorem State.put_wf {s : State} {w : Width} {rm : RM} {pl : Place} (h : s.rmPlace w rm = .ok pl)
    (hm : s.mem.wf) (v : BitVec w.bits) : (s.put w pl v).mem.wf := by
  rcases State.rmPlace_eq_ok.1 h with ⟨n, -, rfl⟩ | ⟨m, as, -, ha, rfl⟩
  · exact hm
  · exact Memory.writeBytes_wf hm (State.storeAddrs_lt ha) _

@[simp] theorem State.put_fill (s : State) (w : Width) (pl : Place) (v : BitVec w.bits) :
    (s.put w pl v).mem.fill = s.mem.fill := by cases pl <;> simp

/-- Every result put into its place completes with the common effect. -/
theorem effect_put {s : State} {w : Width} {rm : RM} {pl : Place} (h : s.rmPlace w rm = .ok pl)
    (v : BitVec w.bits) (len : Nat) : Effect len s ((s.put w pl v).complete len) := by
  refine ⟨?_, by simp, fun hm => by simpa using State.put_wf h hm v, .inl ?_, by simp, by simp⟩
  · simp [State.launchPart]
  · simp [State.nextEip, State.wraps]

/-- The same with flags and draws that keep the fields no instruction writes, and DF and IF. -/
theorem effect_put_flags {s : State} {w : Width} {rm : RM} {pl : Place} (h : s.rmPlace w rm = .ok pl)
    (v : BitVec w.bits) (len : Nat) (f : Flags) (d : Nat) (htf : f.tf = s.flags.tf) (hnt : f.nt = s.flags.nt)
    (hrf : f.rf = s.flags.rf) (hdf : f.df = s.flags.df) (hif : f.ifl = s.flags.ifl) :
    Effect len s (({ s.put w pl v with flags := f, draws := d } : State).complete len) := by
  refine ⟨?_, by simp, fun hm => by simpa using State.put_wf h hm v, .inl ?_, by simp [hdf], by simp [hif]⟩
  · simp [State.launchPart, htf, hnt, hrf]
  · simp [State.nextEip, State.wraps]

theorem outcome_of_settle {s t : State} {r : Res State} {len : Nat} (h : settle s r = .next t)
    (hr : r = .ok t → Effect len s t) : Outcome len s t := by
  rcases settle_eq_next.1 h with h | ⟨x, -, rfl⟩
  · exact .inl (hr h)
  · exact .inr (.inl ⟨x, rfl⟩)

theorem outcome_shiftRM {op : ShiftOp} {w : Width} {src : CountSrc} {rm : RM} {len : Nat} {s t : State}
    (h : settle s (shiftRM op w src rm len s) = .next t) : Outcome len s t :=
  outcome_of_settle h fun h => by
    obtain ⟨v, pl, -, hp, rfl⟩ := shiftRM_eq_ok.1 h
    split
    · exact effect_put hp _ _
    · exact effect_put_flags hp _ _ _ _ rfl rfl rfl rfl rfl

theorem outcome_subToRM {w : Width} {rm : RM} {b : BitVec w.bits} {c : Bool} {len : Nat} {s t : State}
    (h : settle s (subToRM w rm b c len s) = .next t) : Outcome len s t :=
  outcome_of_settle h fun h => by
    obtain ⟨a, pl, -, hp, rfl⟩ := subToRM_eq_ok.1 h
    have := effect_put_flags hp (subResult a b c) len (s.flags.setSub a b c) s.draws rfl rfl rfl rfl rfl
    simpa [State.complete, State.nextEip, State.wraps] using this

theorem effect_regs (s : State) (r : Regs) (f : Flags) (len : Nat) (htf : f.tf = s.flags.tf)
    (hnt : f.nt = s.flags.nt) (hrf : f.rf = s.flags.rf) (hdf : s.flags.df = true → f.df = true)
    (hif : s.flags.ifl = true → f.ifl = true) :
    Effect len s (({ s with regs := r, flags := f } : State).complete len) :=
  ⟨by simp [State.launchPart, htf, hnt, hrf], rfl, id, .inl ⟨rfl, rfl⟩, hdf, hif⟩

theorem outcome_subFromRM {w : Width} {r : RegNo} {rm : RM} {c : Bool} {len : Nat} {s t : State}
    (h : settle s (subFromRM w r rm c len s) = .next t) : Outcome len s t :=
  outcome_of_settle h fun h => by
    obtain ⟨b, -, rfl⟩ := subFromRM_eq_ok.1 h
    exact effect_regs s _ _ len rfl rfl rfl id id

theorem outcome_subAcc {w : Width} {b : BitVec w.bits} {c : Bool} {len : Nat} {s t : State}
    (h : Host.Outcome.next (φ := Fault) (ρ := Refusal) (subAcc w b c len s) = .next t) : Outcome len s t := by
  cases h
  exact .inl (effect_regs s _ _ len rfl rfl rfl id id)

theorem outcome_flags {f : Flags} {len : Nat} {s t : State}
    (h : Host.Outcome.next (φ := Fault) (ρ := Refusal) (({ s with flags := f } : State).complete len) = .next t)
    (htf : f.tf = s.flags.tf) (hnt : f.nt = s.flags.nt) (hrf : f.rf = s.flags.rf)
    (hdf : s.flags.df = true → f.df = true) (hif : s.flags.ifl = true → f.ifl = true) : Outcome len s t := by
  cases h
  exact .inl (effect_regs s s.regs f len htf hnt hrf hdf hif)

theorem outcome_setcc {c : Cond} {rm : RM} {len : Nat} {s t : State}
    (h : settle s (setcc c rm len s) = .next t) : Outcome len s t :=
  outcome_of_settle h fun h => by
    obtain ⟨pl, hp, rfl⟩ := setcc_eq_ok.1 h
    exact effect_put hp _ _

theorem outcome_storeWord16 {v : Word} {rm : RM} {len : Nat} {s t : State}
    (h : settle s (storeWord16 v rm len s) = .next t) : Outcome len s t :=
  outcome_of_settle h fun h => by
    obtain ⟨pl, hp, rfl⟩ := storeWord16_eq_ok.1 h
    exact effect_put hp _ _

theorem outcome_storeSelector {v : Word} {rm : RM} {len : Nat} {s t : State}
    (h : settle s (storeSelector v rm len s) = .next t) : Outcome len s t :=
  outcome_of_settle h fun h => by
    obtain ⟨pl, hp, rfl⟩ := storeWord16_eq_ok.1 (storeSelector_eq_ok.1 h).2
    exact effect_put hp _ _

theorem outcome_storeTable {tb : TableReg} {p : Pfx} {rm : RM} {len : Nat} {s t : State}
    (h : settle s (storeTable tb p rm len s) = .next t) : Outcome len s t :=
  outcome_of_settle h fun h => by
    obtain ⟨m, as, -, ha, rfl⟩ := storeTable_eq_ok.1 h
    refine ⟨by simp [State.launchPart], rfl, fun hm => ?_, .inl ⟨rfl, rfl⟩, id, id⟩
    exact Memory.writeBytes_wf hm (State.storeAddrs_lt ha) _

theorem outcome_dshiftRM {op : DShiftOp} {w : Width} {src : CountSrc} {rm : RM} {r : RegNo} {len : Nat}
    {s t : State} (h : settle s (dshiftRM op w src rm r len s) = .next t) : Outcome len s t :=
  outcome_of_settle h fun h => by
    obtain ⟨-, ⟨-, rfl⟩ | ⟨-, -, pl, hp, rfl⟩ | ⟨-, -, v, pl, -, hp, rfl⟩⟩ := dshiftRM_eq_ok.1 h
    · exact ⟨rfl, rfl, id, .inl ⟨rfl, rfl⟩, id, id⟩
    · exact effect_put_flags hp _ _ _ _ rfl rfl rfl rfl rfl
    · exact effect_put_flags hp _ _ _ _ rfl rfl rfl rfl rfl

theorem decCount_ecx (s : State) (a : Size) : (s.decCount a).regs.ecx = (s.decCount a).regs.get32 .n1 := rfl

theorem stepIndex_ecx (r : Regs) (a : Size) (df : Bool) (n : Nat) : (r.stepIndex a df n).ecx = r.ecx := by
  cases a <;> rfl

theorem repCount_of_ecx {s t : State} (h : t.regs.ecx = s.regs.ecx) (a : Size) : t.repCount a = s.repCount a := by
  cases a
  · exact congrArg (·.extractLsb' 0 16) h
  · exact h

theorem outcome_scas {w : Width} {a : Size} {rep : Option RepCond} {len : Nat} {s t : State}
    (h : settle s (scas w a rep len s) = .next t) : Outcome len s t :=
  outcome_of_settle h fun h => by
    rcases scas_eq_ok.1 h with ⟨-, u, hu, rfl⟩ | ⟨k, -, ⟨-, rfl⟩ | ⟨hc, u, hu, rfl⟩⟩
    · obtain ⟨m, -, rfl⟩ := scasBody_eq_ok.1 hu
      exact effect_regs s _ _ len rfl rfl rfl id id
    · exact ⟨rfl, rfl, id, .inl ⟨rfl, rfl⟩, id, id⟩
    · obtain ⟨m, -, rfl⟩ := scasBody_eq_ok.1 hu
      split
      · exact ⟨rfl, rfl, id, .inl ⟨rfl, rfl⟩, id, id⟩
      · refine ⟨rfl, rfl, id, .inr ⟨rfl, rfl, ?_⟩, id, id⟩
        have he := stepIndex_ecx s.regs a s.flags.df w.bytes
        have h1 := decCount_ecx_lt { s with
          flags := s.flags.setSub (s.acc w) m false
          regs := s.regs.stepIndex a s.flags.df w.bytes } a
          (by rw [repCount_of_ecx (s := s) he]; exact hc)
        exact lt_of_lt_of_eq h1 (congrArg BitVec.toNat he)

theorem outcome_stos {w : Width} {a : Size} {rep : Bool} {len : Nat} {s t : State}
    (h : settle s (stos w a rep len s) = .next t) : Outcome len s t :=
  outcome_of_settle h fun h => by
    rcases stos_eq_ok.1 h with ⟨-, u, hu, rfl⟩ | ⟨-, -, rfl⟩ | ⟨-, hc, u, hu, rfl⟩
    · obtain ⟨as, ha, rfl⟩ := stosBody_eq_ok.1 hu
      exact ⟨by simp [State.launchPart], rfl,
        fun hm => Memory.writeBytes_wf hm (State.storeAddrs_lt ha) _, .inl ⟨rfl, rfl⟩, id, id⟩
    · exact ⟨rfl, rfl, id, .inl ⟨rfl, rfl⟩, id, id⟩
    · obtain ⟨as, ha, rfl⟩ := stosBody_eq_ok.1 hu
      have hm : s.mem.wf → (s.storeAt as (s.acc w).toNat).mem.wf :=
        fun hm => Memory.writeBytes_wf hm (State.storeAddrs_lt ha) _
      split
      · exact ⟨by simp [State.launchPart], rfl, hm, .inl ⟨rfl, rfl⟩, id, id⟩
      · refine ⟨by simp [State.launchPart], rfl, hm, .inr ⟨rfl, rfl, ?_⟩, id, id⟩
        have he := stepIndex_ecx s.regs a s.flags.df w.bytes
        have h1 := decCount_ecx_lt { s.storeAt as (s.acc w).toNat with
          regs := s.regs.stepIndex a s.flags.df w.bytes } a
          (by rw [repCount_of_ecx (s := s) he]; exact hc)
        exact lt_of_lt_of_eq h1 (congrArg BitVec.toNat he)

theorem outcome_sti {p : Pfx} {s t : State} (h : execSti p s = .next t) :
    Outcome (Instr.length (.sti p)) s t := by
  have he : Effect (Instr.length (.sti p)) s (s.setInterruptFlag (Instr.length (.sti p))) :=
    ⟨rfl, rfl, id, .inl ⟨rfl, rfl⟩, id, fun _ => rfl⟩
  simp only [execSti] at h
  split at h
  · cases h; exact .inl he
  · split at h <;> cases h
    · exact .inr (.inr rfl)
    · exact .inl he
  · split at h <;> cases h
    exact .inl he

/-- Everything a next state of `exec` can be. -/
theorem exec_outcome {i : Instr} {s t : State} (h : exec i s = .next t) : Outcome i.length s t := by
  cases i with
  | sahf => exact outcome_flags h rfl rfl rfl id id
  | salRm8One => exact outcome_shiftRM h
  | salRm8Cl => exact outcome_shiftRM h
  | salRm8Imm8 => exact outcome_shiftRM h
  | salRm16One => exact outcome_shiftRM h
  | salRm16Cl => exact outcome_shiftRM h
  | salRm16Imm8 => exact outcome_shiftRM h
  | salRm32One => exact outcome_shiftRM h
  | salRm32Cl => exact outcome_shiftRM h
  | salRm32Imm8 => exact outcome_shiftRM h
  | sarRm8One => exact outcome_shiftRM h
  | sarRm8Cl => exact outcome_shiftRM h
  | sarRm8Imm8 => exact outcome_shiftRM h
  | sarRm16One => exact outcome_shiftRM h
  | sarRm16Cl => exact outcome_shiftRM h
  | sarRm16Imm8 => exact outcome_shiftRM h
  | sarRm32One => exact outcome_shiftRM h
  | sarRm32Cl => exact outcome_shiftRM h
  | sarRm32Imm8 => exact outcome_shiftRM h
  | shlRm8One => exact outcome_shiftRM h
  | shlRm8Cl => exact outcome_shiftRM h
  | shlRm8Imm8 => exact outcome_shiftRM h
  | shlRm16One => exact outcome_shiftRM h
  | shlRm16Cl => exact outcome_shiftRM h
  | shlRm16Imm8 => exact outcome_shiftRM h
  | shlRm32One => exact outcome_shiftRM h
  | shlRm32Cl => exact outcome_shiftRM h
  | shlRm32Imm8 => exact outcome_shiftRM h
  | shrRm8One => exact outcome_shiftRM h
  | shrRm8Cl => exact outcome_shiftRM h
  | shrRm8Imm8 => exact outcome_shiftRM h
  | shrRm16One => exact outcome_shiftRM h
  | shrRm16Cl => exact outcome_shiftRM h
  | shrRm16Imm8 => exact outcome_shiftRM h
  | shrRm32One => exact outcome_shiftRM h
  | shrRm32Cl => exact outcome_shiftRM h
  | shrRm32Imm8 => exact outcome_shiftRM h
  | sbbAlImm8 => exact outcome_subAcc h
  | sbbAxImm16 => exact outcome_subAcc h
  | sbbEaxImm32 => exact outcome_subAcc h
  | sbbRm8Imm8 => exact outcome_subToRM h
  | sbbRm16Imm16 => exact outcome_subToRM h
  | sbbRm32Imm32 => exact outcome_subToRM h
  | sbbRm16Imm8 => exact outcome_subToRM h
  | sbbRm32Imm8 => exact outcome_subToRM h
  | sbbRm8R8 => exact outcome_subToRM h
  | sbbRm16R16 => exact outcome_subToRM h
  | sbbRm32R32 => exact outcome_subToRM h
  | sbbR8Rm8 => exact outcome_subFromRM h
  | sbbR16Rm16 => exact outcome_subFromRM h
  | sbbR32Rm32 => exact outcome_subFromRM h
  | scasM8 => exact outcome_scas h
  | scasM16 => exact outcome_scas h
  | scasM32 => exact outcome_scas h
  | scasb => exact outcome_scas h
  | scasw => exact outcome_scas h
  | scasd => exact outcome_scas h
  | seta => exact outcome_setcc h
  | setae => exact outcome_setcc h
  | setb => exact outcome_setcc h
  | setbe => exact outcome_setcc h
  | setc => exact outcome_setcc h
  | sete => exact outcome_setcc h
  | setg => exact outcome_setcc h
  | setge => exact outcome_setcc h
  | setl => exact outcome_setcc h
  | setle => exact outcome_setcc h
  | setna => exact outcome_setcc h
  | setnae => exact outcome_setcc h
  | setnb => exact outcome_setcc h
  | setnbe => exact outcome_setcc h
  | setnc => exact outcome_setcc h
  | setne => exact outcome_setcc h
  | setng => exact outcome_setcc h
  | setnge => exact outcome_setcc h
  | setnl => exact outcome_setcc h
  | setnle => exact outcome_setcc h
  | setno => exact outcome_setcc h
  | setnp => exact outcome_setcc h
  | setns => exact outcome_setcc h
  | setnz => exact outcome_setcc h
  | seto => exact outcome_setcc h
  | setp => exact outcome_setcc h
  | setpe => exact outcome_setcc h
  | setpo => exact outcome_setcc h
  | sets => exact outcome_setcc h
  | setz => exact outcome_setcc h
  | sgdt => exact outcome_storeTable h
  | sidt => exact outcome_storeTable h
  | shldRm16R16Imm8 => exact outcome_dshiftRM h
  | shldRm32R32Imm8 => exact outcome_dshiftRM h
  | shldRm16R16Cl => exact outcome_dshiftRM h
  | shldRm32R32Cl => exact outcome_dshiftRM h
  | shrdRm16R16Imm8 => exact outcome_dshiftRM h
  | shrdRm32R32Imm8 => exact outcome_dshiftRM h
  | shrdRm16R16Cl => exact outcome_dshiftRM h
  | shrdRm32R32Cl => exact outcome_dshiftRM h
  | sldt => exact outcome_storeSelector h
  | smsw => exact outcome_storeWord16 h
  | stc => exact outcome_flags h rfl rfl rfl id id
  | std => exact outcome_flags h rfl rfl rfl (fun _ => rfl) id
  | sti => exact outcome_sti h
  | stosM8 => exact outcome_stos h
  | stosM16 => exact outcome_stos h
  | stosM32 => exact outcome_stos h
  | stosb => exact outcome_stos h
  | stosw => exact outcome_stos h
  | stosd => exact outcome_stos h
  | str => exact outcome_storeSelector h
  | subAlImm8 => exact outcome_subAcc h
  | subAxImm16 => exact outcome_subAcc h
  | subEaxImm32 => exact outcome_subAcc h
  | subRm8Imm8 => exact outcome_subToRM h
  | subRm16Imm16 => exact outcome_subToRM h
  | subRm32Imm32 => exact outcome_subToRM h
  | subRm16Imm8 => exact outcome_subToRM h
  | subRm32Imm8 => exact outcome_subToRM h
  | subRm8R8 => exact outcome_subToRM h
  | subRm16R16 => exact outcome_subToRM h
  | subRm32R32 => exact outcome_subToRM h
  | subR8Rm8 => exact outcome_subFromRM h
  | subR16Rm16 => exact outcome_subFromRM h
  | subR32Rm32 => exact outcome_subFromRM h

end Sys2Proof.Machine
end

