-- ==== Sys2Proof/Laws/Encode.lean ====
section
/-! SUPPORT. What the decoder reads back from each part the encoder writes: bytes and fields, displacements,
the r/m operand, the prefixes. -/

namespace Sys2Proof

/-! ### Fields and immediates -/

@[simp] theorem hiField_fieldsByte (a : BitVec 2) (b c : BitVec 3) : hiField (fieldsByte a b c) = a := by
  revert a b c; decide

@[simp] theorem midField_fieldsByte (a : BitVec 2) (b c : BitVec 3) : midField (fieldsByte a b c) = b := by
  revert a b c; decide

@[simp] theorem loField_fieldsByte (a : BitVec 2) (b c : BitVec 3) : loField (fieldsByte a b c) = c := by
  revert a b c; decide

theorem takeByte_singleton (v : Byte) (rest : List Byte) : takeByte ([v] ++ rest) = .ok (v, rest) := rfl

theorem takeWord_wordBytes (v : Word) (rest : List Byte) : takeWord (wordBytes v ++ rest) = .ok (v, rest) := by
  simp only [wordBytes, takeWord, List.cons_append, List.nil_append]
  congr 2
  apply BitVec.eq_of_getLsbD_eq; intro k hk
  rw [BitVec.getLsbD_append]
  by_cases h : k < 8
  · simp [h]
  · simp [h, show k - 8 < 8 by omega, show 8 + (k - 8) = k by omega]

theorem append_byte_toNat {n : Nat} (x : BitVec n) (y : Byte) : (x ++ y).toNat = x.toNat * 256 + y.toNat := by
  rw [BitVec.toNat_append, ← Nat.shiftLeft_add_eq_or_of_lt y.isLt, Nat.shiftLeft_eq]

theorem takeDWord_dwordBytes (v : DWord) (rest : List Byte) :
    takeDWord (dwordBytes v ++ rest) = .ok (v, rest) := by
  simp only [dwordBytes, takeDWord, List.cons_append, List.nil_append]
  congr 2
  apply BitVec.eq_of_toNat_eq
  have h := append_byte_toNat
    (BitVec.extractLsb' 24 8 v ++ BitVec.extractLsb' 16 8 v ++ BitVec.extractLsb' 8 8 v)
    (BitVec.extractLsb' 0 8 v)
  have h' := append_byte_toNat (BitVec.extractLsb' 24 8 v ++ BitVec.extractLsb' 16 8 v)
    (BitVec.extractLsb' 8 8 v)
  have h'' := append_byte_toNat (BitVec.extractLsb' 24 8 v) (BitVec.extractLsb' 16 8 v)
  refine Eq.trans h ?_
  rw [h', h'']
  have := v.isLt
  simp [BitVec.extractLsb'_toNat, Nat.shiftRight_eq_div_pow]
  omega

/-! ### The r/m operand -/

theorem takeDisp16_enc (x : Disp16) (rest : List Byte) : takeDisp16 x.enc.1 (x.enc.2 ++ rest) = .ok (x, rest) := by
  cases x
  · rfl
  · rfl
  · simp only [Disp16.enc, takeDisp16]; rw [takeWord_wordBytes]; rfl

theorem takeDisp32_enc (x : Disp32) (rest : List Byte) : takeDisp32 x.enc.1 (x.enc.2 ++ rest) = .ok (x, rest) := by
  cases x
  · rfl
  · rfl
  · simp only [Disp32.enc, takeDisp32]; rw [takeDWord_dwordBytes]; rfl

theorem Disp16.enc_mod_ne (x : Disp16) : x.enc.1 ≠ 3#2 := by cases x <;> simp [Disp16.enc]

theorem Disp32.enc_mod_ne (x : Disp32) : x.enc.1 ≠ 3#2 := by cases x <;> simp [Disp32.enc]

theorem sibIndex_indexBits (i : Option (RegNo × Scale)) (h : indexWf i = true) :
    sibIndex (indexBits i).1 (indexBits i).2 = .ok i := by
  match i, h with
  | none, _ => rfl
  | some (r, s), h => cases r <;> cases s <;> first | rfl | cases h

/-- The ModRM byte an r/m operand is written with holds the `reg` field, and the operand is read back. -/
theorem takeRM_enc (a : Size) (rm : RM) (reg : BitVec 3) (rest : List Byte) (h : rm.wf a = true) :
    ∃ m t, rm.enc reg = m :: t ∧ midField m = reg ∧ takeRM a rm.override m (t ++ rest) = .ok (rm, rest) := by
  match rm, h with
  | .reg n, _ => exact ⟨_, _, rfl, by simp, by simp [takeRM]⟩
  | .mem ⟨g, .a16 (.direct v)⟩, h =>
    simp only [RM.wf, Addr.wf, Addr16.wf, Bool.and_true, decide_eq_true_eq] at h; subst h
    exact ⟨_, _, rfl, by simp, by simp [takeRM, takeAddr16, takeWord_wordBytes, RM.override]⟩
  | .mem ⟨g, .a16 (.based b x)⟩, h =>
    simp only [RM.wf, Addr.wf, Bool.and_eq_true, decide_eq_true_eq] at h; obtain ⟨rfl, h⟩ := h
    refine ⟨_, _, rfl, by simp, ?_⟩
    have e2 : ¬ (x.enc.1 = 0#2 ∧ b.toBits = 6#3) := by
      rintro ⟨h1, h2⟩; cases x <;> simp [Disp16.enc] at h1; cases b <;> simp [Base16.toBits] at h2; cases h
    simp [takeRM, takeAddr16, x.enc_mod_ne, if_neg e2, takeDisp16_enc, RM.override]
  | .mem ⟨g, .a32 (.direct v)⟩, h =>
    simp only [RM.wf, Addr.wf, Addr32.wf, Bool.and_true, decide_eq_true_eq] at h; subst h
    exact ⟨_, _, rfl, by simp, by simp [takeRM, takeAddr32, takeDWord_dwordBytes, RM.override]⟩
  | .mem ⟨g, .a32 (.based b x)⟩, h =>
    simp only [RM.wf, Addr.wf, Bool.and_eq_true, decide_eq_true_eq] at h; obtain ⟨rfl, h⟩ := h
    refine ⟨_, _, rfl, by simp, ?_⟩
    have e3 : b.toBits ≠ 4#3 := by
      intro h1; cases b <;> simp [RegNo.toBits] at h1; cases x <;> cases h
    have e2 : ¬ (b.toBits = 5#3 ∧ x.enc.1 = 0#2) := by
      rintro ⟨h2, h1⟩; cases x <;> simp [Disp32.enc] at h1; cases b <;> simp [RegNo.toBits] at h2; cases h
    simp [takeRM, takeAddr32, x.enc_mod_ne, e3, if_neg e2, takeDisp32_enc, RM.override]
  | .mem ⟨g, .a32 (.sib b i x)⟩, h =>
    simp only [RM.wf, Addr.wf, Bool.and_eq_true, decide_eq_true_eq] at h; obtain ⟨rfl, h⟩ := h
    refine ⟨_, _, rfl, by simp, ?_⟩
    have e2 : ¬ (b.toBits = 5#3 ∧ x.enc.1 = 0#2) := by
      rintro ⟨h2, h1⟩; cases x <;> simp [Disp32.enc] at h1; cases b <;> simp [RegNo.toBits] at h2; cases h
    have e4 : indexWf i = true := by cases x <;> cases b <;> first | exact h | cases h
    simp [takeRM, takeAddr32, x.enc_mod_ne, if_neg e2, takeDisp32_enc, RM.override, takeByte,
      sibIndex_indexBits i e4]
  | .mem ⟨g, .a32 (.sibDirect i v)⟩, h =>
    simp only [RM.wf, Addr.wf, Addr32.wf, Bool.and_eq_true, decide_eq_true_eq] at h; obtain ⟨rfl, h9⟩ := h
    exact ⟨_, _, rfl, by simp, by
      simp [takeRM, takeAddr32, takeDWord_dwordBytes, RM.override, takeByte, sibIndex_indexBits i h9]⟩

/-! ### Prefixes and opcodes -/

/-- The prefixes an encoding is written with, as `readPrefixes` answers them. -/
def Encoding.prefixes (e : Encoding) : Prefixes := ⟨e.pfx, e.override, e.rep⟩

theorem readPrefixes_enc (e : Encoding) (op : Byte) (rest : List Byte) (h : prefixOf op = none) :
    readPrefixes Prefixes.empty (e.prefixBytes ++ op :: rest) = .ok (e.prefixes, op :: rest) := by
  obtain ⟨⟨o, a⟩, rep, opc, modrm, imm⟩ := e
  simp only [Encoding.prefixBytes, Encoding.prefixes, Encoding.override]
  generalize modrm.bind (·.2.override) = g
  cases o <;> cases a <;> (rcases g with _ | g) <;> (rcases rep with _ | rep) <;> (try cases g) <;>
    (try cases rep) <;>
    simp [readPrefixes, prefixOf, SegName.overrideByte, RepCond.prefixByte, Prefixes.empty] <;>
    simp only [prefixOf] at h <;> rw [h]

theorem checkRM_override {x : Prefixes} {rm : RM} (hs : x.seg = rm.override) (hr : x.rep = none) :
    checkRM x rm = .ok () := by
  cases rm <;> simp [checkRM, checkOverride, checkRep, hr, hs, RM.override]

/-- A form with an r/m operand and nothing after it is read back. -/
theorem decRM_enc {d : Size} {x : Prefixes} {rm : RM} {reg : BitVec 3} {rest : List Byte}
    {pick : BitVec 3 → Option (Pfx → RM → Instr)} {mk : Pfx → RM → Instr}
    (hp : pick reg = some mk) (hw : x.pfx.rmWf d rm = true) (hs : x.seg = rm.override) (hr : x.rep = none) :
    decRM d x (rm.enc reg ++ rest) pick = .ok (mk x.pfx rm, rest) := by
  obtain ⟨m, t, he, hm, ht⟩ := takeRM_enc _ rm reg rest hw
  have ht' : takeRM (x.addrSize d) x.seg m (t ++ rest) = .ok (rm, rest) := by rw [hs]; exact ht
  simp [decRM, decModRM, he, takeByte, hm, hp, ht', checkRM_override hs hr]

/-- A form with an r/m operand and an immediate is read back. -/
theorem decRMImm_enc {α : Type} {d : Size} {x : Prefixes} {rm : RM} {reg : BitVec 3} {ib rest : List Byte}
    {take : List Byte → Dec (α × List Byte)} {v : α} {pick : BitVec 3 → Option (Pfx → RM → α → Instr)}
    {mk : Pfx → RM → α → Instr} (hv : take (ib ++ rest) = .ok (v, rest)) (hp : pick reg = some mk)
    (hw : x.pfx.rmWf d rm = true) (hs : x.seg = rm.override) (hr : x.rep = none) :
    decRMImm d x (rm.enc reg ++ (ib ++ rest)) take pick = .ok (mk x.pfx rm v, rest) := by
  obtain ⟨m, t, he, hm, ht⟩ := takeRM_enc _ rm reg (ib ++ rest) hw
  have ht' : takeRM (x.addrSize d) x.seg m (t ++ (ib ++ rest)) = .ok (rm, (ib ++ rest)) := by
    rw [hs]; exact ht
  simp [decRMImm, decModRM, he, takeByte, hm, hp, ht', checkRM_override hs hr, hv]

/-- Decoding an encoding comes down to `decodeOp` on its opcode byte. -/
theorem decode_encode_of_decodeOp (d : Size) (i : Instr) (rest : List Byte) (op : Byte) (opt : List Byte)
    (ho : i.encoding.opcode = op :: opt) (hpx : prefixOf op = none)
    (h : decodeOp d i.encoding.prefixes op (opt ++ (i.encoding.modrmBytes ++ (i.encoding.imm ++ rest)))
      = .ok (i.canonical, rest)) :
    decode d (encode i ++ rest) = .ok (i.canonical, rest) := by
  have : encode i ++ rest = i.encoding.prefixBytes ++
      op :: (opt ++ (i.encoding.modrmBytes ++ (i.encoding.imm ++ rest))) := by
    simp [encode, Encoding.bytes, ho]
  rw [this, decode, readPrefixes_enc _ _ _ hpx]
  simp [takeByte, h]

end Sys2Proof
end

