-- ==== Sys2Proof/Laws/Extend.lean ====
section
/-! SUPPORT. What the decoder accepts it accepts whatever bytes follow, and leaves them. -/

namespace Sys2Proof

/-- A reader that answers the same when more bytes follow, and leaves them. -/
def Extends {α : Type} (f : List Byte → Dec (α × List Byte)) : Prop :=
  ∀ bs v rest more, f bs = .ok (v, rest) → f (bs ++ more) = .ok (v, rest ++ more)

theorem Extends.pure {α : Type} (v : α) : Extends fun bs => .ok (v, bs) := by
  intro bs v' rest more h; cases h; rfl

theorem Extends.error {α : Type} (e : DecodeError) : Extends (α := α) fun _ => .error e := by
  intro bs v rest more h; cases h

theorem Extends.bind {α β : Type} {f : List Byte → Dec (α × List Byte)} {g : α → List Byte → Dec (β × List Byte)}
    (hf : Extends f) (hg : ∀ a, Extends (g a)) : Extends fun bs => f bs >>= fun p => g p.1 p.2 := by
  intro bs v rest more h
  obtain ⟨⟨a, tl⟩, h1, h2⟩ := Dec.bind_eq_ok.1 h
  exact Dec.bind_eq_ok.2 ⟨(a, tl ++ more), hf _ _ _ _ h1, hg a _ _ _ _ h2⟩

/-- A check that reads no byte, then a reader. -/
theorem Extends.check {α β : Type} (c : Dec α) {g : α → List Byte → Dec (β × List Byte)}
    (hg : ∀ a, Extends (g a)) : Extends fun bs => c >>= fun a => g a bs := by
  intro bs v rest more h
  obtain ⟨a, h1, h2⟩ := Dec.bind_eq_ok.1 h
  exact Dec.bind_eq_ok.2 ⟨a, h1, hg a _ _ _ _ h2⟩

theorem takeByte_extends : Extends takeByte := by
  intro bs v rest more h
  cases bs <;> cases h
  rfl

theorem takeWord_extends : Extends takeWord := by
  intro bs v rest more h
  match bs, h with
  | _ :: _ :: _, h => cases h; rfl

theorem takeDWord_extends : Extends takeDWord := by
  intro bs v rest more h
  match bs, h with
  | _ :: _ :: _ :: _ :: _, h => cases h; rfl

theorem takeDisp16_extends (mod : BitVec 2) : Extends (takeDisp16 mod) := by
  unfold takeDisp16
  split
  · exact .pure _
  · exact takeByte_extends.bind fun _ => .pure _
  · exact takeWord_extends.bind fun _ => .pure _

theorem takeDisp32_extends (mod : BitVec 2) : Extends (takeDisp32 mod) := by
  unfold takeDisp32
  split
  · exact .pure _
  · exact takeByte_extends.bind fun _ => .pure _
  · exact takeDWord_extends.bind fun _ => .pure _

theorem takeAddr16_extends (mod : BitVec 2) (rm : BitVec 3) : Extends (takeAddr16 mod rm) := by
  unfold takeAddr16
  split
  · exact takeWord_extends.bind fun _ => .pure _
  · exact (takeDisp16_extends mod).bind fun _ => .pure _

theorem takeAddr32_extends (mod : BitVec 2) (rm : BitVec 3) : Extends (takeAddr32 mod rm) := by
  unfold takeAddr32
  split
  · refine takeByte_extends.bind (g := fun sib bs => sibIndex (hiField sib) (midField sib) >>= fun index =>
      if loField sib = 5#3 ∧ mod = 0#2 then takeDWord bs >>= fun p => Except.ok (Addr32.sibDirect index p.1, p.2)
      else takeDisp32 mod bs >>= fun p => Except.ok (Addr32.sib (RegNo.ofBits (loField sib)) index p.1, p.2))
      fun sib => .check _ fun index => ?_
    split
    · exact takeDWord_extends.bind fun _ => .pure _
    · exact (takeDisp32_extends mod).bind fun _ => .pure _
  · split
    · exact takeDWord_extends.bind fun _ => .pure _
    · exact (takeDisp32_extends mod).bind fun _ => .pure _

theorem takeRM_extends (a : Size) (seg : Option SegName) (m : Byte) : Extends (takeRM a seg m) := by
  unfold takeRM
  split
  · exact .pure _
  · split
    · exact (takeAddr16_extends (hiField m) (loField m)).bind fun a => .pure (RM.mem ⟨seg, .a16 a⟩)
    · exact (takeAddr32_extends (hiField m) (loField m)).bind fun a => .pure (RM.mem ⟨seg, .a32 a⟩)

theorem decModRM_extends {α : Type} (d : Size) (x : Prefixes) (pick : BitVec 3 → Option α)
    {β : Type} {g : α → RM → List Byte → Dec (β × List Byte)} (hg : ∀ a rm, Extends (g a rm)) :
    Extends fun bs => decModRM d x bs pick >>= fun p => g p.1 p.2.1 p.2.2 := by
  intro bs v rest more h
  obtain ⟨⟨a, rm, tl⟩, h1, h2⟩ := Dec.bind_eq_ok.1 h
  refine Dec.bind_eq_ok.2 ⟨(a, rm, tl ++ more), ?_, hg a rm _ _ _ _ h2⟩
  simp only [decModRM] at h1 ⊢
  obtain ⟨⟨m, t0⟩, h3, h4⟩ := Dec.bind_eq_ok.1 h1
  refine Dec.bind_eq_ok.2 ⟨(m, t0 ++ more), takeByte_extends _ _ _ _ h3, ?_⟩
  dsimp only at h4 ⊢
  split at h4
  · cases h4
  · next k hk =>
    obtain ⟨⟨rm', t1⟩, h5, h6⟩ := Dec.bind_eq_ok.1 h4
    cases h6
    exact Dec.bind_eq_ok.2 ⟨_, takeRM_extends _ _ _ _ _ _ _ h5, rfl⟩

theorem decRM_extends (d : Size) (x : Prefixes) (pick : BitVec 3 → Option (Pfx → RM → Instr)) :
    Extends fun bs => decRM d x bs pick :=
  decModRM_extends d x pick fun mk rm => .check (checkRM x rm) fun _ => .pure (mk x.pfx rm)

theorem decRMImm_extends {α : Type} (d : Size) (x : Prefixes) {take : List Byte → Dec (α × List Byte)}
    (ht : Extends take) (pick : BitVec 3 → Option (Pfx → RM → α → Instr)) :
    Extends fun bs => decRMImm d x bs take pick :=
  decModRM_extends d x pick fun mk rm => ht.bind fun v => .check (checkRM x rm) fun _ => .pure (mk x.pfx rm v)

theorem decAcc_extends {α : Type} (x : Prefixes) {take : List Byte → Dec (α × List Byte)}
    (ht : Extends take) (mk : Pfx → α → Instr) : Extends fun bs => decAcc x bs take mk :=
  ht.bind fun v => .check (checkOverride x) fun _ => .check (checkRep x) fun _ => .pure (mk x.pfx v)

theorem decPlain_extends (x : Prefixes) (mk : Pfx → Instr) : Extends fun bs => decPlain x bs mk :=
  .check (checkOverride x) fun _ => .check (checkRep x) fun _ => .pure (mk x.pfx)

theorem decScas_extends (x : Prefixes) (mk : Pfx → Option RepCond → Instr) :
    Extends fun bs => decScas x bs mk := .check (checkOverride x) fun _ => .pure (mk x.pfx x.rep)

theorem decStos_extends (x : Prefixes) (mk : Pfx → Bool → Instr) : Extends fun bs => decStos x bs mk := by
  refine .check (checkOverride x) (g := fun _ bs => match x.rep with
    | none => .ok (mk x.pfx false, bs)
    | some .repe => .ok (mk x.pfx true, bs)
    | some .repne => .error .repNotAllowed) fun _ => ?_
  split
  · exact .pure _
  · exact .pure _
  · exact .error _

theorem bySize_extends {α : Type} (d : Size) (x : Prefixes) {f g : List Byte → Dec (α × List Byte)}
    (hf : Extends f) (hg : Extends g) : Extends fun bs => bySize d x (f bs) (g bs) := by
  unfold bySize
  split
  · exact hf
  · exact hg

theorem decode0F_extends (d : Size) (x : Prefixes) (op : Byte) : Extends (decode0F d x op) := by
  unfold decode0F
  split <;>
    first
    | exact decRM_extends d x _
    | exact decRMImm_extends d x takeByte_extends _
    | exact .error _

theorem decodeOp_extends (d : Size) (x : Prefixes) (op : Byte) : Extends (decodeOp d x op) := by
  unfold decodeOp
  split <;>
    first
    | exact takeByte_extends.bind fun _ => decode0F_extends d x _
    | exact decRM_extends d x _
    | exact decRMImm_extends d x takeByte_extends _
    | exact decAcc_extends x takeByte_extends _
    | exact decPlain_extends x _
    | exact decScas_extends x _
    | exact decStos_extends x _
    | exact bySize_extends d x (decAcc_extends x takeWord_extends _) (decAcc_extends x takeDWord_extends _)
    | exact bySize_extends d x (decRMImm_extends d x takeWord_extends _) (decRMImm_extends d x takeDWord_extends _)
    | exact .error _

theorem readPrefixes_extends (x : Prefixes) : Extends (readPrefixes x) := by
  intro bs v rest more h
  induction bs generalizing x with
  | nil => cases h
  | cons b bs ih =>
    simp only [readPrefixes, List.cons_append] at h ⊢
    split at h
    · cases h; rfl
    · cases h
    all_goals
      split at h
      · cases h
      · next hs => simp only [hs]; exact ih _ h

/-- Decoding does not depend on the bytes after the instruction. -/
theorem decode_extends (d : Size) : Extends (decode d) :=
  (readPrefixes_extends Prefixes.empty).bind fun x => takeByte_extends.bind fun op => decodeOp_extends d x op

end Sys2Proof
end

