-- ==== Sys2Proof/Laws/PerInstr.lean ====
section
/-! SUPPORT. A statement about every instruction, proved one constructor at a time. -/

namespace Sys2Proof.Laws

/-- The length of an instruction is at least 1 and at most 14 bytes (R71, log entry 20). -/
def LengthBounds.Statement (i : Instr) : Prop := 1 ≤ i.length ∧ i.length ≤ 14

/-- The bounds from the parts of an encoding. -/
theorem LengthBounds.of_encoding {i : Instr} (e : Encoding) (he : i.encoding = e)
    (ho : 1 ≤ e.opcode.length) (hb : e.rep.isSome.toNat + e.opcode.length + e.imm.length ≤ 5) :
    LengthBounds.Statement i := by
  have hl : i.length = e.bytes.length := by rw [Instr.length, encode, he]
  have hp := e.prefixBytes_length
  have hm : e.modrmBytes.length ≤ 6 := by
    simp only [Encoding.modrmBytes]
    split
    · exact (RM.enc_length _ _).2
    · simp
  have h1 := Bool.toNat_le e.pfx.opSize
  have h2 := Bool.toNat_le e.pfx.addrSize
  have h3 := Bool.toNat_le (e.modrm.bind (·.2.override)).isSome
  rw [LengthBounds.Statement, hl, Encoding.bytes_length, hp]
  omega

theorem rep_le (r : Option RepCond) : r.isSome.toNat ≤ 1 := Bool.toNat_le _

end Sys2Proof.Laws

namespace Sys2Proof.Laws.LengthBounds

theorem sahf (p : Pfx) : Statement (.sahf p) :=
  of_encoding _ rfl (Nat.le_of_ble_eq_true rfl) (Nat.le_of_ble_eq_true rfl)
theorem salRm8One (p : Pfx) (rm : RM) : Statement (.salRm8One p rm) :=
  of_encoding _ rfl (Nat.le_of_ble_eq_true rfl) (Nat.le_of_ble_eq_true rfl)
theorem salRm8Cl (p : Pfx) (rm : RM) : Statement (.salRm8Cl p rm) :=
  of_encoding _ rfl (Nat.le_of_ble_eq_true rfl) (Nat.le_of_ble_eq_true rfl)
theorem salRm8Imm8 (p : Pfx) (rm : RM) (imm : Byte) : Statement (.salRm8Imm8 p rm imm) :=
  of_encoding _ rfl (Nat.le_of_ble_eq_true rfl) (Nat.le_of_ble_eq_true rfl)
theorem salRm16One (p : Pfx) (rm : RM) : Statement (.salRm16One p rm) :=
  of_encoding _ rfl (Nat.le_of_ble_eq_true rfl) (Nat.le_of_ble_eq_true rfl)
theorem salRm16Cl (p : Pfx) (rm : RM) : Statement (.salRm16Cl p rm) :=
  of_encoding _ rfl (Nat.le_of_ble_eq_true rfl) (Nat.le_of_ble_eq_true rfl)
theorem salRm16Imm8 (p : Pfx) (rm : RM) (imm : Byte) : Statement (.salRm16Imm8 p rm imm) :=
  of_encoding _ rfl (Nat.le_of_ble_eq_true rfl) (Nat.le_of_ble_eq_true rfl)
theorem salRm32One (p : Pfx) (rm : RM) : Statement (.salRm32One p rm) :=
  of_encoding _ rfl (Nat.le_of_ble_eq_true rfl) (Nat.le_of_ble_eq_true rfl)
theorem salRm32Cl (p : Pfx) (rm : RM) : Statement (.salRm32Cl p rm) :=
  of_encoding _ rfl (Nat.le_of_ble_eq_true rfl) (Nat.le_of_ble_eq_true rfl)
theorem salRm32Imm8 (p : Pfx) (rm : RM) (imm : Byte) : Statement (.salRm32Imm8 p rm imm) :=
  of_encoding _ rfl (Nat.le_of_ble_eq_true rfl) (Nat.le_of_ble_eq_true rfl)
theorem sarRm8One (p : Pfx) (rm : RM) : Statement (.sarRm8One p rm) :=
  of_encoding _ rfl (Nat.le_of_ble_eq_true rfl) (Nat.le_of_ble_eq_true rfl)
theorem sarRm8Cl (p : Pfx) (rm : RM) : Statement (.sarRm8Cl p rm) :=
  of_encoding _ rfl (Nat.le_of_ble_eq_true rfl) (Nat.le_of_ble_eq_true rfl)
theorem sarRm8Imm8 (p : Pfx) (rm : RM) (imm : Byte) : Statement (.sarRm8Imm8 p rm imm) :=
  of_encoding _ rfl (Nat.le_of_ble_eq_true rfl) (Nat.le_of_ble_eq_true rfl)
theorem sarRm16One (p : Pfx) (rm : RM) : Statement (.sarRm16One p rm) :=
  of_encoding _ rfl (Nat.le_of_ble_eq_true rfl) (Nat.le_of_ble_eq_true rfl)
theorem sarRm16Cl (p : Pfx) (rm : RM) : Statement (.sarRm16Cl p rm) :=
  of_encoding _ rfl (Nat.le_of_ble_eq_true rfl) (Nat.le_of_ble_eq_true rfl)
theorem sarRm16Imm8 (p : Pfx) (rm : RM) (imm : Byte) : Statement (.sarRm16Imm8 p rm imm) :=
  of_encoding _ rfl (Nat.le_of_ble_eq_true rfl) (Nat.le_of_ble_eq_true rfl)
theorem sarRm32One (p : Pfx) (rm : RM) : Statement (.sarRm32One p rm) :=
  of_encoding _ rfl (Nat.le_of_ble_eq_true rfl) (Nat.le_of_ble_eq_true rfl)
theorem sarRm32Cl (p : Pfx) (rm : RM) : Statement (.sarRm32Cl p rm) :=
  of_encoding _ rfl (Nat.le_of_ble_eq_true rfl) (Nat.le_of_ble_eq_true rfl)
theorem sarRm32Imm8 (p : Pfx) (rm : RM) (imm : Byte) : Statement (.sarRm32Imm8 p rm imm) :=
  of_encoding _ rfl (Nat.le_of_ble_eq_true rfl) (Nat.le_of_ble_eq_true rfl)
theorem shlRm8One (p : Pfx) (rm : RM) : Statement (.shlRm8One p rm) :=
  of_encoding _ rfl (Nat.le_of_ble_eq_true rfl) (Nat.le_of_ble_eq_true rfl)
theorem shlRm8Cl (p : Pfx) (rm : RM) : Statement (.shlRm8Cl p rm) :=
  of_encoding _ rfl (Nat.le_of_ble_eq_true rfl) (Nat.le_of_ble_eq_true rfl)
theorem shlRm8Imm8 (p : Pfx) (rm : RM) (imm : Byte) : Statement (.shlRm8Imm8 p rm imm) :=
  of_encoding _ rfl (Nat.le_of_ble_eq_true rfl) (Nat.le_of_ble_eq_true rfl)
theorem shlRm16One (p : Pfx) (rm : RM) : Statement (.shlRm16One p rm) :=
  of_encoding _ rfl (Nat.le_of_ble_eq_true rfl) (Nat.le_of_ble_eq_true rfl)
theorem shlRm16Cl (p : Pfx) (rm : RM) : Statement (.shlRm16Cl p rm) :=
  of_encoding _ rfl (Nat.le_of_ble_eq_true rfl) (Nat.le_of_ble_eq_true rfl)
theorem shlRm16Imm8 (p : Pfx) (rm : RM) (imm : Byte) : Statement (.shlRm16Imm8 p rm imm) :=
  of_encoding _ rfl (Nat.le_of_ble_eq_true rfl) (Nat.le_of_ble_eq_true rfl)
theorem shlRm32One (p : Pfx) (rm : RM) : Statement (.shlRm32One p rm) :=
  of_encoding _ rfl (Nat.le_of_ble_eq_true rfl) (Nat.le_of_ble_eq_true rfl)
theorem shlRm32Cl (p : Pfx) (rm : RM) : Statement (.shlRm32Cl p rm) :=
  of_encoding _ rfl (Nat.le_of_ble_eq_true rfl) (Nat.le_of_ble_eq_true rfl)
theorem shlRm32Imm8 (p : Pfx) (rm : RM) (imm : Byte) : Statement (.shlRm32Imm8 p rm imm) :=
  of_encoding _ rfl (Nat.le_of_ble_eq_true rfl) (Nat.le_of_ble_eq_true rfl)
theorem shrRm8One (p : Pfx) (rm : RM) : Statement (.shrRm8One p rm) :=
  of_encoding _ rfl (Nat.le_of_ble_eq_true rfl) (Nat.le_of_ble_eq_true rfl)
theorem shrRm8Cl (p : Pfx) (rm : RM) : Statement (.shrRm8Cl p rm) :=
  of_encoding _ rfl (Nat.le_of_ble_eq_true rfl) (Nat.le_of_ble_eq_true rfl)
theorem shrRm8Imm8 (p : Pfx) (rm : RM) (imm : Byte) : Statement (.shrRm8Imm8 p rm imm) :=
  of_encoding _ rfl (Nat.le_of_ble_eq_true rfl) (Nat.le_of_ble_eq_true rfl)
theorem shrRm16One (p : Pfx) (rm : RM) : Statement (.shrRm16One p rm) :=
  of_encoding _ rfl (Nat.le_of_ble_eq_true rfl) (Nat.le_of_ble_eq_true rfl)
theorem shrRm16Cl (p : Pfx) (rm : RM) : Statement (.shrRm16Cl p rm) :=
  of_encoding _ rfl (Nat.le_of_ble_eq_true rfl) (Nat.le_of_ble_eq_true rfl)
theorem shrRm16Imm8 (p : Pfx) (rm : RM) (imm : Byte) : Statement (.shrRm16Imm8 p rm imm) :=
  of_encoding _ rfl (Nat.le_of_ble_eq_true rfl) (Nat.le_of_ble_eq_true rfl)
theorem shrRm32One (p : Pfx) (rm : RM) : Statement (.shrRm32One p rm) :=
  of_encoding _ rfl (Nat.le_of_ble_eq_true rfl) (Nat.le_of_ble_eq_true rfl)
theorem shrRm32Cl (p : Pfx) (rm : RM) : Statement (.shrRm32Cl p rm) :=
  of_encoding _ rfl (Nat.le_of_ble_eq_true rfl) (Nat.le_of_ble_eq_true rfl)
theorem shrRm32Imm8 (p : Pfx) (rm : RM) (imm : Byte) : Statement (.shrRm32Imm8 p rm imm) :=
  of_encoding _ rfl (Nat.le_of_ble_eq_true rfl) (Nat.le_of_ble_eq_true rfl)
theorem sbbAlImm8 (p : Pfx) (imm : Byte) : Statement (.sbbAlImm8 p imm) :=
  of_encoding _ rfl (Nat.le_of_ble_eq_true rfl) (Nat.le_of_ble_eq_true rfl)
theorem sbbAxImm16 (p : Pfx) (imm : Word) : Statement (.sbbAxImm16 p imm) :=
  of_encoding _ rfl (Nat.le_of_ble_eq_true rfl) (Nat.le_of_ble_eq_true rfl)
theorem sbbEaxImm32 (p : Pfx) (imm : DWord) : Statement (.sbbEaxImm32 p imm) :=
  of_encoding _ rfl (Nat.le_of_ble_eq_true rfl) (Nat.le_of_ble_eq_true rfl)
theorem sbbRm8Imm8 (p : Pfx) (rm : RM) (imm : Byte) : Statement (.sbbRm8Imm8 p rm imm) :=
  of_encoding _ rfl (Nat.le_of_ble_eq_true rfl) (Nat.le_of_ble_eq_true rfl)
theorem sbbRm16Imm16 (p : Pfx) (rm : RM) (imm : Word) : Statement (.sbbRm16Imm16 p rm imm) :=
  of_encoding _ rfl (Nat.le_of_ble_eq_true rfl) (Nat.le_of_ble_eq_true rfl)
theorem sbbRm32Imm32 (p : Pfx) (rm : RM) (imm : DWord) : Statement (.sbbRm32Imm32 p rm imm) :=
  of_encoding _ rfl (Nat.le_of_ble_eq_true rfl) (Nat.le_of_ble_eq_true rfl)
theorem sbbRm16Imm8 (p : Pfx) (rm : RM) (imm : Byte) : Statement (.sbbRm16Imm8 p rm imm) :=
  of_encoding _ rfl (Nat.le_of_ble_eq_true rfl) (Nat.le_of_ble_eq_true rfl)
theorem sbbRm32Imm8 (p : Pfx) (rm : RM) (imm : Byte) : Statement (.sbbRm32Imm8 p rm imm) :=
  of_encoding _ rfl (Nat.le_of_ble_eq_true rfl) (Nat.le_of_ble_eq_true rfl)
theorem sbbRm8R8 (p : Pfx) (rm : RM) (r : RegNo) : Statement (.sbbRm8R8 p rm r) :=
  of_encoding _ rfl (Nat.le_of_ble_eq_true rfl) (Nat.le_of_ble_eq_true rfl)
theorem sbbRm16R16 (p : Pfx) (rm : RM) (r : RegNo) : Statement (.sbbRm16R16 p rm r) :=
  of_encoding _ rfl (Nat.le_of_ble_eq_true rfl) (Nat.le_of_ble_eq_true rfl)
theorem sbbRm32R32 (p : Pfx) (rm : RM) (r : RegNo) : Statement (.sbbRm32R32 p rm r) :=
  of_encoding _ rfl (Nat.le_of_ble_eq_true rfl) (Nat.le_of_ble_eq_true rfl)
theorem sbbR8Rm8 (p : Pfx) (rm : RM) (r : RegNo) : Statement (.sbbR8Rm8 p rm r) :=
  of_encoding _ rfl (Nat.le_of_ble_eq_true rfl) (Nat.le_of_ble_eq_true rfl)
theorem sbbR16Rm16 (p : Pfx) (rm : RM) (r : RegNo) : Statement (.sbbR16Rm16 p rm r) :=
  of_encoding _ rfl (Nat.le_of_ble_eq_true rfl) (Nat.le_of_ble_eq_true rfl)
theorem sbbR32Rm32 (p : Pfx) (rm : RM) (r : RegNo) : Statement (.sbbR32Rm32 p rm r) :=
  of_encoding _ rfl (Nat.le_of_ble_eq_true rfl) (Nat.le_of_ble_eq_true rfl)
theorem scasM8 (p : Pfx) (rep : Option RepCond) : Statement (.scasM8 p rep) :=
  of_encoding _ rfl (Nat.le_of_ble_eq_true rfl)
    (by show rep.isSome.toNat + 1 + 0 ≤ 5; have := rep_le rep; omega)
theorem scasM16 (p : Pfx) (rep : Option RepCond) : Statement (.scasM16 p rep) :=
  of_encoding _ rfl (Nat.le_of_ble_eq_true rfl)
    (by show rep.isSome.toNat + 1 + 0 ≤ 5; have := rep_le rep; omega)
theorem scasM32 (p : Pfx) (rep : Option RepCond) : Statement (.scasM32 p rep) :=
  of_encoding _ rfl (Nat.le_of_ble_eq_true rfl)
    (by show rep.isSome.toNat + 1 + 0 ≤ 5; have := rep_le rep; omega)
theorem scasb (p : Pfx) (rep : Option RepCond) : Statement (.scasb p rep) :=
  of_encoding _ rfl (Nat.le_of_ble_eq_true rfl)
    (by show rep.isSome.toNat + 1 + 0 ≤ 5; have := rep_le rep; omega)
theorem scasw (p : Pfx) (rep : Option RepCond) : Statement (.scasw p rep) :=
  of_encoding _ rfl (Nat.le_of_ble_eq_true rfl)
    (by show rep.isSome.toNat + 1 + 0 ≤ 5; have := rep_le rep; omega)
theorem scasd (p : Pfx) (rep : Option RepCond) : Statement (.scasd p rep) :=
  of_encoding _ rfl (Nat.le_of_ble_eq_true rfl)
    (by show rep.isSome.toNat + 1 + 0 ≤ 5; have := rep_le rep; omega)
theorem seta (p : Pfx) (rm : RM) : Statement (.seta p rm) :=
  of_encoding _ rfl (Nat.le_of_ble_eq_true rfl) (Nat.le_of_ble_eq_true rfl)
theorem setae (p : Pfx) (rm : RM) : Statement (.setae p rm) :=
  of_encoding _ rfl (Nat.le_of_ble_eq_true rfl) (Nat.le_of_ble_eq_true rfl)
theorem setb (p : Pfx) (rm : RM) : Statement (.setb p rm) :=
  of_encoding _ rfl (Nat.le_of_ble_eq_true rfl) (Nat.le_of_ble_eq_true rfl)
theorem setbe (p : Pfx) (rm : RM) : Statement (.setbe p rm) :=
  of_encoding _ rfl (Nat.le_of_ble_eq_true rfl) (Nat.le_of_ble_eq_true rfl)
theorem setc (p : Pfx) (rm : RM) : Statement (.setc p rm) :=
  of_encoding _ rfl (Nat.le_of_ble_eq_true rfl) (Nat.le_of_ble_eq_true rfl)
theorem sete (p : Pfx) (rm : RM) : Statement (.sete p rm) :=
  of_encoding _ rfl (Nat.le_of_ble_eq_true rfl) (Nat.le_of_ble_eq_true rfl)
theorem setg (p : Pfx) (rm : RM) : Statement (.setg p rm) :=
  of_encoding _ rfl (Nat.le_of_ble_eq_true rfl) (Nat.le_of_ble_eq_true rfl)
theorem setge (p : Pfx) (rm : RM) : Statement (.setge p rm) :=
  of_encoding _ rfl (Nat.le_of_ble_eq_true rfl) (Nat.le_of_ble_eq_true rfl)
theorem setl (p : Pfx) (rm : RM) : Statement (.setl p rm) :=
  of_encoding _ rfl (Nat.le_of_ble_eq_true rfl) (Nat.le_of_ble_eq_true rfl)
theorem setle (p : Pfx) (rm : RM) : Statement (.setle p rm) :=
  of_encoding _ rfl (Nat.le_of_ble_eq_true rfl) (Nat.le_of_ble_eq_true rfl)
theorem setna (p : Pfx) (rm : RM) : Statement (.setna p rm) :=
  of_encoding _ rfl (Nat.le_of_ble_eq_true rfl) (Nat.le_of_ble_eq_true rfl)
theorem setnae (p : Pfx) (rm : RM) : Statement (.setnae p rm) :=
  of_encoding _ rfl (Nat.le_of_ble_eq_true rfl) (Nat.le_of_ble_eq_true rfl)
theorem setnb (p : Pfx) (rm : RM) : Statement (.setnb p rm) :=
  of_encoding _ rfl (Nat.le_of_ble_eq_true rfl) (Nat.le_of_ble_eq_true rfl)
theorem setnbe (p : Pfx) (rm : RM) : Statement (.setnbe p rm) :=
  of_encoding _ rfl (Nat.le_of_ble_eq_true rfl) (Nat.le_of_ble_eq_true rfl)
theorem setnc (p : Pfx) (rm : RM) : Statement (.setnc p rm) :=
  of_encoding _ rfl (Nat.le_of_ble_eq_true rfl) (Nat.le_of_ble_eq_true rfl)
theorem setne (p : Pfx) (rm : RM) : Statement (.setne p rm) :=
  of_encoding _ rfl (Nat.le_of_ble_eq_true rfl) (Nat.le_of_ble_eq_true rfl)
theorem setng (p : Pfx) (rm : RM) : Statement (.setng p rm) :=
  of_encoding _ rfl (Nat.le_of_ble_eq_true rfl) (Nat.le_of_ble_eq_true rfl)
theorem setnge (p : Pfx) (rm : RM) : Statement (.setnge p rm) :=
  of_encoding _ rfl (Nat.le_of_ble_eq_true rfl) (Nat.le_of_ble_eq_true rfl)
theorem setnl (p : Pfx) (rm : RM) : Statement (.setnl p rm) :=
  of_encoding _ rfl (Nat.le_of_ble_eq_true rfl) (Nat.le_of_ble_eq_true rfl)
theorem setnle (p : Pfx) (rm : RM) : Statement (.setnle p rm) :=
  of_encoding _ rfl (Nat.le_of_ble_eq_true rfl) (Nat.le_of_ble_eq_true rfl)
theorem setno (p : Pfx) (rm : RM) : Statement (.setno p rm) :=
  of_encoding _ rfl (Nat.le_of_ble_eq_true rfl) (Nat.le_of_ble_eq_true rfl)
theorem setnp (p : Pfx) (rm : RM) : Statement (.setnp p rm) :=
  of_encoding _ rfl (Nat.le_of_ble_eq_true rfl) (Nat.le_of_ble_eq_true rfl)
theorem setns (p : Pfx) (rm : RM) : Statement (.setns p rm) :=
  of_encoding _ rfl (Nat.le_of_ble_eq_true rfl) (Nat.le_of_ble_eq_true rfl)
theorem setnz (p : Pfx) (rm : RM) : Statement (.setnz p rm) :=
  of_encoding _ rfl (Nat.le_of_ble_eq_true rfl) (Nat.le_of_ble_eq_true rfl)
theorem seto (p : Pfx) (rm : RM) : Statement (.seto p rm) :=
  of_encoding _ rfl (Nat.le_of_ble_eq_true rfl) (Nat.le_of_ble_eq_true rfl)
theorem setp (p : Pfx) (rm : RM) : Statement (.setp p rm) :=
  of_encoding _ rfl (Nat.le_of_ble_eq_true rfl) (Nat.le_of_ble_eq_true rfl)
theorem setpe (p : Pfx) (rm : RM) : Statement (.setpe p rm) :=
  of_encoding _ rfl (Nat.le_of_ble_eq_true rfl) (Nat.le_of_ble_eq_true rfl)
theorem setpo (p : Pfx) (rm : RM) : Statement (.setpo p rm) :=
  of_encoding _ rfl (Nat.le_of_ble_eq_true rfl) (Nat.le_of_ble_eq_true rfl)
theorem sets (p : Pfx) (rm : RM) : Statement (.sets p rm) :=
  of_encoding _ rfl (Nat.le_of_ble_eq_true rfl) (Nat.le_of_ble_eq_true rfl)
theorem setz (p : Pfx) (rm : RM) : Statement (.setz p rm) :=
  of_encoding _ rfl (Nat.le_of_ble_eq_true rfl) (Nat.le_of_ble_eq_true rfl)
theorem sgdt (p : Pfx) (rm : RM) : Statement (.sgdt p rm) :=
  of_encoding _ rfl (Nat.le_of_ble_eq_true rfl) (Nat.le_of_ble_eq_true rfl)
theorem sidt (p : Pfx) (rm : RM) : Statement (.sidt p rm) :=
  of_encoding _ rfl (Nat.le_of_ble_eq_true rfl) (Nat.le_of_ble_eq_true rfl)
theorem shldRm16R16Imm8 (p : Pfx) (rm : RM) (r : RegNo) (imm : Byte) : Statement (.shldRm16R16Imm8 p rm r imm) :=
  of_encoding _ rfl (Nat.le_of_ble_eq_true rfl) (Nat.le_of_ble_eq_true rfl)
theorem shldRm32R32Imm8 (p : Pfx) (rm : RM) (r : RegNo) (imm : Byte) : Statement (.shldRm32R32Imm8 p rm r imm) :=
  of_encoding _ rfl (Nat.le_of_ble_eq_true rfl) (Nat.le_of_ble_eq_true rfl)
theorem shldRm16R16Cl (p : Pfx) (rm : RM) (r : RegNo) : Statement (.shldRm16R16Cl p rm r) :=
  of_encoding _ rfl (Nat.le_of_ble_eq_true rfl) (Nat.le_of_ble_eq_true rfl)
theorem shldRm32R32Cl (p : Pfx) (rm : RM) (r : RegNo) : Statement (.shldRm32R32Cl p rm r) :=
  of_encoding _ rfl (Nat.le_of_ble_eq_true rfl) (Nat.le_of_ble_eq_true rfl)
theorem shrdRm16R16Imm8 (p : Pfx) (rm : RM) (r : RegNo) (imm : Byte) : Statement (.shrdRm16R16Imm8 p rm r imm) :=
  of_encoding _ rfl (Nat.le_of_ble_eq_true rfl) (Nat.le_of_ble_eq_true rfl)
theorem shrdRm32R32Imm8 (p : Pfx) (rm : RM) (r : RegNo) (imm : Byte) : Statement (.shrdRm32R32Imm8 p rm r imm) :=
  of_encoding _ rfl (Nat.le_of_ble_eq_true rfl) (Nat.le_of_ble_eq_true rfl)
theorem shrdRm16R16Cl (p : Pfx) (rm : RM) (r : RegNo) : Statement (.shrdRm16R16Cl p rm r) :=
  of_encoding _ rfl (Nat.le_of_ble_eq_true rfl) (Nat.le_of_ble_eq_true rfl)
theorem shrdRm32R32Cl (p : Pfx) (rm : RM) (r : RegNo) : Statement (.shrdRm32R32Cl p rm r) :=
  of_encoding _ rfl (Nat.le_of_ble_eq_true rfl) (Nat.le_of_ble_eq_true rfl)
theorem sldt (p : Pfx) (rm : RM) : Statement (.sldt p rm) :=
  of_encoding _ rfl (Nat.le_of_ble_eq_true rfl) (Nat.le_of_ble_eq_true rfl)
theorem smsw (p : Pfx) (rm : RM) : Statement (.smsw p rm) :=
  of_encoding _ rfl (Nat.le_of_ble_eq_true rfl) (Nat.le_of_ble_eq_true rfl)
theorem stc (p : Pfx) : Statement (.stc p) :=
  of_encoding _ rfl (Nat.le_of_ble_eq_true rfl) (Nat.le_of_ble_eq_true rfl)
theorem std (p : Pfx) : Statement (.std p) :=
  of_encoding _ rfl (Nat.le_of_ble_eq_true rfl) (Nat.le_of_ble_eq_true rfl)
theorem sti (p : Pfx) : Statement (.sti p) :=
  of_encoding _ rfl (Nat.le_of_ble_eq_true rfl) (Nat.le_of_ble_eq_true rfl)
theorem stosM8 (p : Pfx) (rep : Bool) : Statement (.stosM8 p rep) :=
  of_encoding _ rfl (Nat.le_of_ble_eq_true rfl)
    (by show (stosRep rep).isSome.toNat + 1 + 0 ≤ 5; have := rep_le (stosRep rep); omega)
theorem stosM16 (p : Pfx) (rep : Bool) : Statement (.stosM16 p rep) :=
  of_encoding _ rfl (Nat.le_of_ble_eq_true rfl)
    (by show (stosRep rep).isSome.toNat + 1 + 0 ≤ 5; have := rep_le (stosRep rep); omega)
theorem stosM32 (p : Pfx) (rep : Bool) : Statement (.stosM32 p rep) :=
  of_encoding _ rfl (Nat.le_of_ble_eq_true rfl)
    (by show (stosRep rep).isSome.toNat + 1 + 0 ≤ 5; have := rep_le (stosRep rep); omega)
theorem stosb (p : Pfx) (rep : Bool) : Statement (.stosb p rep) :=
  of_encoding _ rfl (Nat.le_of_ble_eq_true rfl)
    (by show (stosRep rep).isSome.toNat + 1 + 0 ≤ 5; have := rep_le (stosRep rep); omega)
theorem stosw (p : Pfx) (rep : Bool) : Statement (.stosw p rep) :=
  of_encoding _ rfl (Nat.le_of_ble_eq_true rfl)
    (by show (stosRep rep).isSome.toNat + 1 + 0 ≤ 5; have := rep_le (stosRep rep); omega)
theorem stosd (p : Pfx) (rep : Bool) : Statement (.stosd p rep) :=
  of_encoding _ rfl (Nat.le_of_ble_eq_true rfl)
    (by show (stosRep rep).isSome.toNat + 1 + 0 ≤ 5; have := rep_le (stosRep rep); omega)
theorem str (p : Pfx) (rm : RM) : Statement (.str p rm) :=
  of_encoding _ rfl (Nat.le_of_ble_eq_true rfl) (Nat.le_of_ble_eq_true rfl)
theorem subAlImm8 (p : Pfx) (imm : Byte) : Statement (.subAlImm8 p imm) :=
  of_encoding _ rfl (Nat.le_of_ble_eq_true rfl) (Nat.le_of_ble_eq_true rfl)
theorem subAxImm16 (p : Pfx) (imm : Word) : Statement (.subAxImm16 p imm) :=
  of_encoding _ rfl (Nat.le_of_ble_eq_true rfl) (Nat.le_of_ble_eq_true rfl)
theorem subEaxImm32 (p : Pfx) (imm : DWord) : Statement (.subEaxImm32 p imm) :=
  of_encoding _ rfl (Nat.le_of_ble_eq_true rfl) (Nat.le_of_ble_eq_true rfl)
theorem subRm8Imm8 (p : Pfx) (rm : RM) (imm : Byte) : Statement (.subRm8Imm8 p rm imm) :=
  of_encoding _ rfl (Nat.le_of_ble_eq_true rfl) (Nat.le_of_ble_eq_true rfl)
theorem subRm16Imm16 (p : Pfx) (rm : RM) (imm : Word) : Statement (.subRm16Imm16 p rm imm) :=
  of_encoding _ rfl (Nat.le_of_ble_eq_true rfl) (Nat.le_of_ble_eq_true rfl)
theorem subRm32Imm32 (p : Pfx) (rm : RM) (imm : DWord) : Statement (.subRm32Imm32 p rm imm) :=
  of_encoding _ rfl (Nat.le_of_ble_eq_true rfl) (Nat.le_of_ble_eq_true rfl)
theorem subRm16Imm8 (p : Pfx) (rm : RM) (imm : Byte) : Statement (.subRm16Imm8 p rm imm) :=
  of_encoding _ rfl (Nat.le_of_ble_eq_true rfl) (Nat.le_of_ble_eq_true rfl)
theorem subRm32Imm8 (p : Pfx) (rm : RM) (imm : Byte) : Statement (.subRm32Imm8 p rm imm) :=
  of_encoding _ rfl (Nat.le_of_ble_eq_true rfl) (Nat.le_of_ble_eq_true rfl)
theorem subRm8R8 (p : Pfx) (rm : RM) (r : RegNo) : Statement (.subRm8R8 p rm r) :=
  of_encoding _ rfl (Nat.le_of_ble_eq_true rfl) (Nat.le_of_ble_eq_true rfl)
theorem subRm16R16 (p : Pfx) (rm : RM) (r : RegNo) : Statement (.subRm16R16 p rm r) :=
  of_encoding _ rfl (Nat.le_of_ble_eq_true rfl) (Nat.le_of_ble_eq_true rfl)
theorem subRm32R32 (p : Pfx) (rm : RM) (r : RegNo) : Statement (.subRm32R32 p rm r) :=
  of_encoding _ rfl (Nat.le_of_ble_eq_true rfl) (Nat.le_of_ble_eq_true rfl)
theorem subR8Rm8 (p : Pfx) (rm : RM) (r : RegNo) : Statement (.subR8Rm8 p rm r) :=
  of_encoding _ rfl (Nat.le_of_ble_eq_true rfl) (Nat.le_of_ble_eq_true rfl)
theorem subR16Rm16 (p : Pfx) (rm : RM) (r : RegNo) : Statement (.subR16Rm16 p rm r) :=
  of_encoding _ rfl (Nat.le_of_ble_eq_true rfl) (Nat.le_of_ble_eq_true rfl)
theorem subR32Rm32 (p : Pfx) (rm : RM) (r : RegNo) : Statement (.subR32Rm32 p rm r) :=
  of_encoding _ rfl (Nat.le_of_ble_eq_true rfl) (Nat.le_of_ble_eq_true rfl)

end Sys2Proof.Laws.LengthBounds
end

