-- ==== Sys2Proof/Laws/Rows.lean ====
section
/-! SUPPORT. The meaning of an instruction from its row: one case analysis over all constructors, cited by
every later proof. -/

namespace Sys2Proof.Machine

/-- The selector stores are recognized in Protected Mode only, SMSW everywhere. -/
def storeWordName (v : Spec.WordName) (rm : RM) (len : Nat) (s : State) : Res State :=
  match v with
  | .ldtr => storeSelector s.ldtr.selector rm len s
  | .tr => storeSelector s.tr.selector rm len s
  | .msw => storeWord16 s.msw rm len s

/-- STI of `len` bytes. -/
def runSti (len : Nat) (s : State) : Host.Outcome State Fault Refusal :=
  match s.mode with
  | .real => .next (s.setInterruptFlag len)
  | .prot => if s.iopl < s.cpl then .next (s.markFaulted .gp0) else .next (s.setInterruptFlag len)
  | .v86 => if s.iopl < 3#2 then .refused .stiV86Iopl else .next (s.setInterruptFlag len)

/-- The outcome of a row executed as an instruction of `len` bytes. -/
def runRow (len : Nat) (s : State) : Spec.Row → Host.Outcome State Fault Refusal
  | .sahf => .next (({ s with flags := s.flags.loadAH (s.regs.get .w8 .n4) } : State).complete len)
  | .stc => .next (({ s with flags := { s.flags with cf := true } } : State).complete len)
  | .std => .next (({ s with flags := { s.flags with df := true } } : State).complete len)
  | .sti => runSti len s
  | .shift op w src rm => settle s (shiftRM op w src rm len s)
  | .subAcc w c imm => .next (subAcc w imm (c && s.flags.cf) len s)
  | .subToRM w c rm src => settle s (subToRM w rm (Spec.subSrcValue s src) (c && s.flags.cf) len s)
  | .subFromRM w c r rm => settle s (subFromRM w r rm (c && s.flags.cf) len s)
  | .scas w p rep => settle s (scas w (s.addressSize p) rep len s)
  | .stos w p rep => settle s (stos w (s.addressSize p) rep len s)
  | .setcc c rm => settle s (setcc c rm len s)
  | .table t p rm => settle s (storeTable (Spec.tableValue s t) p rm len s)
  | .word v rm => settle s (storeWordName v rm len s)
  | .dshift op w src rm r => settle s (dshiftRM op w src rm r len s)

/-- The meaning of every instruction is that of its row. -/
theorem exec_eq_runRow (i : Instr) (s : State) : exec i s = runRow i.length s (Spec.row i) := by
  cases i <;> rfl

/-- Completing an instruction is the move of EIP by R14, as the statements write it. -/
theorem complete_eq_advanced (i : Instr) (s : State) : s.complete i.length = Spec.advanced i s := by
  have h : offsetSpan s.defaultSize = Spec.offsetLimit s := by
    simp only [offsetSpan, Spec.offsetLimit]; cases s.defaultSize <;> rfl
  simp only [State.complete, Spec.advanced, State.nextEip, State.wraps, h]

end Sys2Proof.Machine
end

