-- ==== Sys2Proof/Laws/Step.lean ====
section
/-! SUPPORT. What the fetch reads, and what a step can be. -/

namespace Sys2Proof.Machine

/-- A fetched byte lies inside the offset range and CodeRegion. -/
theorem State.fetchByte_eq_ok {s : State} {off : Nat} {b : Byte} :
    s.fetchByte off = .ok b ↔
      off < offsetSpan s.defaultSize ∧ s.codeStart ≤ off ∧ off < s.codeEnd ∧ s.readSeg .w8 .cs off = .ok b := by
  simp only [State.fetchByte]
  split
  · next h => simp; omega
  · next h =>
    split
    · next h1 => simp; omega
    · next h1 =>
      have h2 : off < offsetSpan s.defaultSize := by omega
      have h3 : s.codeStart ≤ off := by omega
      have h4 : off < s.codeEnd := by omega
      simp [h2, h3, h4]

theorem State.fetchByte_exc {s : State} {off : Nat} {x : Exc} (h : s.fetchByte off = .error (.exc x)) :
    s.operandAddrs .cs off 1 .read = .error (.exc x) := by
  simp only [State.fetchByte] at h
  split at h
  · cases h
  · split at h
    · cases h
    · rcases State.readSeg_error h with ⟨y, he, h1⟩ | ⟨f, he⟩
      · cases he; exact h1
      · cases he

/-- The bytes the fetch offers lie between EIP and End. -/
theorem State.fetchBytes_bound (s : State) (n off : Nat) :
    (s.fetchBytes n off).1.length ≤ n
      ∧ (0 < (s.fetchBytes n off).1.length →
          s.codeStart ≤ off ∧ off + (s.fetchBytes n off).1.length ≤ s.codeEnd
            ∧ off + (s.fetchBytes n off).1.length ≤ offsetSpan s.defaultSize) := by
  induction n generalizing off with
  | zero => simp [State.fetchBytes]
  | succ n ih =>
    simp only [State.fetchBytes]
    split
    · next b hb =>
      obtain ⟨h1, h2, h3, -⟩ := State.fetchByte_eq_ok.1 hb
      obtain ⟨ih1, ih2⟩ := ih (off + 1)
      simp only [List.length_cons]
      refine ⟨by omega, fun _ => ?_⟩
      by_cases hz : 0 < (s.fetchBytes n (off + 1)).1.length
      · have := ih2 hz; omega
      · omega
    · simp

theorem State.fetchBytes_exc {s : State} {n off : Nat} {x : Exc}
    (h : (s.fetchBytes n off).2 = some (.exc x)) :
    ∃ o, s.operandAddrs .cs o 1 .read = .error (.exc x) := by
  induction n generalizing off with
  | zero => simp [State.fetchBytes] at h
  | succ n ih =>
    simp only [State.fetchBytes] at h
    split at h
    · exact ih h
    · next e he => cases h; exact ⟨off, State.fetchByte_exc he⟩

theorem State.fetchInstr_eq_ok {s : State} {i : Instr} :
    s.fetchInstr = .ok i ↔ ∃ rest, decode s.defaultSize s.window.1 = .ok (i, rest) := by
  simp only [State.fetchInstr]
  split
  · next j r h => simp [h, eq_comm]
  · next h => split <;> simp [h]
  · next e _ h => simp [h]

/-- Once EIP has wrapped no byte is fetched. -/
theorem State.window_wrapped {s : State} (h : s.wrapped = true) :
    s.window = ([], some (.refuse .pastOffsetRange)) := by
  have h1 : offsetSpan s.defaultSize ≤ s.nextOffset := by simp [State.nextOffset, h]
  simp [State.window, maxInstrBytes, State.fetchBytes, State.fetchByte, h1]

theorem State.fetchInstr_wrapped {s : State} (h : s.wrapped = true) :
    s.fetchInstr = .error (.refuse .pastOffsetRange) := by
  simp only [State.fetchInstr, State.window_wrapped h]; rfl

/-- An instruction is fetched only while EIP has not wrapped. -/
theorem State.fetchInstr_ok_wrapped {s : State} {i : Instr} (h : s.fetchInstr = .ok i) : s.wrapped = false := by
  by_contra hw
  rw [State.fetchInstr_wrapped (by simpa using hw)] at h; cases h

theorem State.fetchInstr_exc {s : State} {x : Exc} (h : s.fetchInstr = .error (.exc x)) :
    ∃ off, s.operandAddrs .cs off 1 .read = .error (.exc x) := by
  simp only [State.fetchInstr] at h
  split at h
  · cases h
  · split at h
    · next e he => cases h; exact State.fetchBytes_exc he
    · cases h
  · cases h

theorem step_marked {s : State} {m : FaultMark} (h : s.faulted = some m) :
    step s = .fault (.afterException m.exc m.eip) := by simp [step, h]

theorem step_end {s : State} (h : s.faulted = none) (he : s.nextOffset = s.codeEnd) :
    step s = .fault .endOfRun := by simp [step, h, he]

/-- A step runs the fetched instruction. -/
theorem step_fetched {s : State} {i : Instr} (h : s.faulted = none) (he : s.nextOffset ≠ s.codeEnd)
    (hi : s.fetchInstr = .ok i) : step s = exec i s := by simp [step, h, he, hi]

/-- Everything a step that answers a next state can be. -/
theorem step_eq_next {s t : State} (h : step s = .next t) :
    s.faulted = none ∧ s.nextOffset ≠ s.codeEnd
      ∧ ((∃ i, s.fetchInstr = .ok i ∧ exec i s = .next t)
        ∨ ∃ x, s.fetchInstr = .error (.exc x) ∧ t = s.takeException x) := by
  simp only [step] at h
  split at h
  · cases h
  · next hf =>
    split at h
    · cases h
    · next he =>
      refine ⟨hf, he, ?_⟩
      split at h
      · next i hi => exact .inl ⟨i, hi, h⟩
      · next e he' =>
        rcases settle_eq_next.1 h with h1 | ⟨x, h1, rfl⟩
        · cases h1
        · obtain rfl := Except.error.inj h1; exact .inr ⟨x, he', rfl⟩

end Sys2Proof.Machine
end

