-- ==== Sys2Proof/Tests/Slice0.lean ====
section
/-! SUPPORT. Tests: ill-formed terms are refused, words written out from the spec's encodings decode, the
spec's own vectors (spec/95_test_vectors.md, by their names) run as it says, and every statement's hypotheses
are met by a concrete state. -/

open Sys2Proof Sys2Proof.Machine

namespace Sys2Proof.Tests

/-! ### WellFormed: each check refuses an ill-formed term -/

/-- No size prefix. -/
abbrev p0 : Pfx := ⟨false, false⟩

/-- Prefix 66. -/
abbrev p66 : Pfx := ⟨true, false⟩

/-- Prefix 67. -/
abbrev p67 : Pfx := ⟨false, true⟩

/-- A 16-bit addressing form without an override. -/
abbrev m16 (a : Addr16) : RM := .mem ⟨none, .a16 a⟩

/-- A 32-bit addressing form without an override. -/
abbrev m32 (a : Addr32) : RM := .mem ⟨none, .a32 a⟩

theorem test_wf_address16_under_size32 :
    (Instr.setb p0 (m16 (.direct 0#16))).wf .s32 = false ∧ (Instr.setb p67 (m16 (.direct 0#16))).wf .s32 = true := by
  decide

theorem test_wf_address32_under_size16 :
    (Instr.setb p0 (m32 (.direct 0#32))).wf .s16 = false ∧ (Instr.setb p67 (m32 (.direct 0#32))).wf .s16 = true := by
  decide

theorem test_wf_bp_without_displacement :
    (Instr.setb p0 (m16 (.based .bp .none))).wf .s16 = false
      ∧ (Instr.setb p0 (m16 (.based .bp (.d8 0#8)))).wf .s16 = true := by decide

theorem test_wf_esp_is_the_sib_escape :
    (Instr.setb p0 (m32 (.based .n4 .none))).wf .s32 = false
      ∧ (Instr.setb p0 (m32 (.sib .n4 none .none))).wf .s32 = true := by decide

theorem test_wf_ebp_without_displacement :
    (Instr.setb p0 (m32 (.based .n5 .none))).wf .s32 = false
      ∧ (Instr.setb p0 (m32 (.based .n5 (.d8 0#8)))).wf .s32 = true := by decide

theorem test_wf_esp_as_index :
    (Instr.setb p0 (m32 (.sib .n0 (some (.n4, .x1)) .none))).wf .s32 = false
      ∧ (Instr.setb p0 (m32 (.sibDirect (some (.n4, .x2)) 0#32))).wf .s32 = false
      ∧ (Instr.setb p0 (m32 (.sib .n0 (some (.n5, .x1)) .none))).wf .s32 = true := by decide

theorem test_wf_sib_base_ebp_without_displacement :
    (Instr.setb p0 (m32 (.sib .n5 none .none))).wf .s32 = false
      ∧ (Instr.setb p0 (m32 (.sib .n5 none (.d32 0#32)))).wf .s32 = true := by decide

theorem test_wf_operand_size_of_the_form :
    (Instr.subAxImm16 p0 0#16).wf .s32 = false ∧ (Instr.subEaxImm32 p66 0#32).wf .s32 = false
      ∧ (Instr.subAxImm16 p66 0#16).wf .s32 = true ∧ (Instr.shlRm32One p0 (.reg .n0)).wf .s16 = false := by decide

/-! ### Decode: words written from the encodings R72 to R91, for every constructor -/

theorem test_decode_flag_operations :
    decode .s16 [0x9E#8] = .ok (.sahf p0, []) ∧ decode .s32 [0xF9#8] = .ok (.stc p0, [])
      ∧ decode .s16 [0xFD#8] = .ok (.std p0, []) ∧ decode .s32 [0xFB#8] = .ok (.sti p0, []) := ⟨rfl, rfl, rfl, rfl⟩

theorem test_decode_shl :
    decode .s16 [0xD0#8, 0xE0#8] = .ok (.shlRm8One p0 (.reg .n0), [])
      ∧ decode .s32 [0xD2#8, 0xE1#8] = .ok (.shlRm8Cl p0 (.reg .n1), [])
      ∧ decode .s32 [0xC0#8, 0xE7#8, 0x08#8] = .ok (.shlRm8Imm8 p0 (.reg .n7) 0x08#8, [])
      ∧ decode .s16 [0xD1#8, 0x26#8, 0xFF#8, 0x7F#8] = .ok (.shlRm16One p0 (m16 (.direct 0x7FFF#16)), [])
      ∧ decode .s16 [0xD3#8, 0x20#8] = .ok (.shlRm16Cl p0 (m16 (.based .bxsi .none)), [])
      ∧ decode .s32 [0x66#8, 0xC1#8, 0xE2#8, 0x05#8] = .ok (.shlRm16Imm8 p66 (.reg .n2) 0x05#8, [])
      ∧ decode .s32 [0xD1#8, 0xE6#8] = .ok (.shlRm32One p0 (.reg .n6), [])
      ∧ decode .s16 [0x66#8, 0xD3#8, 0xE7#8] = .ok (.shlRm32Cl p66 (.reg .n7), [])
      ∧ decode .s32 [0xC1#8, 0x64#8, 0xB3#8, 0x08#8, 0x00#8]
        = .ok (.shlRm32Imm8 p0 (m32 (.sib .n3 (some (.n6, .x4)) (.d8 0x08#8))) 0x00#8, []) :=
  ⟨rfl, rfl, rfl, rfl, rfl, rfl, rfl, rfl, rfl⟩

theorem test_decode_shr :
    decode .s16 [0xD0#8, 0xEC#8] = .ok (.shrRm8One p0 (.reg .n4), [])
      ∧ decode .s32 [0xD2#8, 0xEB#8] = .ok (.shrRm8Cl p0 (.reg .n3), [])
      ∧ decode .s32 [0xC0#8, 0xEB#8, 0x03#8] = .ok (.shrRm8Imm8 p0 (.reg .n3) 0x03#8, [])
      ∧ decode .s16 [0xD1#8, 0xE8#8] = .ok (.shrRm16One p0 (.reg .n0), [])
      ∧ decode .s16 [0xD3#8, 0x28#8] = .ok (.shrRm16Cl p0 (m16 (.based .bxsi .none)), [])
      ∧ decode .s32 [0x66#8, 0xC1#8, 0xE8#8, 0x0F#8] = .ok (.shrRm16Imm8 p66 (.reg .n0) 0x0F#8, [])
      ∧ decode .s32 [0xD1#8, 0xE8#8] = .ok (.shrRm32One p0 (.reg .n0), [])
      ∧ decode .s32 [0xD3#8, 0xEA#8] = .ok (.shrRm32Cl p0 (.reg .n2), [])
      ∧ decode .s32 [0xC1#8, 0xE8#8, 0x1F#8] = .ok (.shrRm32Imm8 p0 (.reg .n0) 0x1F#8, []) :=
  ⟨rfl, rfl, rfl, rfl, rfl, rfl, rfl, rfl, rfl⟩

theorem test_decode_sar :
    decode .s16 [0xD0#8, 0xF8#8] = .ok (.sarRm8One p0 (.reg .n0), [])
      ∧ decode .s32 [0xD2#8, 0xFB#8] = .ok (.sarRm8Cl p0 (.reg .n3), [])
      ∧ decode .s32 [0xC0#8, 0xF8#8, 0x07#8] = .ok (.sarRm8Imm8 p0 (.reg .n0) 0x07#8, [])
      ∧ decode .s16 [0xD1#8, 0xF9#8] = .ok (.sarRm16One p0 (.reg .n1), [])
      ∧ decode .s16 [0xD3#8, 0x38#8] = .ok (.sarRm16Cl p0 (m16 (.based .bxsi .none)), [])
      ∧ decode .s32 [0x66#8, 0xC1#8, 0xF8#8, 0x0F#8] = .ok (.sarRm16Imm8 p66 (.reg .n0) 0x0F#8, [])
      ∧ decode .s32 [0xD1#8, 0xF8#8] = .ok (.sarRm32One p0 (.reg .n0), [])
      ∧ decode .s32 [0xD3#8, 0xF8#8] = .ok (.sarRm32Cl p0 (.reg .n0), [])
      ∧ decode .s32 [0xC1#8, 0x7D#8, 0xFC#8, 0x02#8]
        = .ok (.sarRm32Imm8 p0 (m32 (.based .n5 (.d8 0xFC#8))) 0x02#8, []) :=
  ⟨rfl, rfl, rfl, rfl, rfl, rfl, rfl, rfl, rfl⟩

theorem test_decode_sbb :
    decode .s16 [0x1C#8, 0xFF#8] = .ok (.sbbAlImm8 p0 0xFF#8, [])
      ∧ decode .s16 [0x1D#8, 0x34#8, 0x12#8] = .ok (.sbbAxImm16 p0 0x1234#16, [])
      ∧ decode .s32 [0x1D#8, 0xFF#8, 0xFF#8, 0xFF#8, 0x7F#8] = .ok (.sbbEaxImm32 p0 0x7FFFFFFF#32, [])
      ∧ decode .s32 [0x80#8, 0xDB#8, 0x10#8] = .ok (.sbbRm8Imm8 p0 (.reg .n3) 0x10#8, [])
      ∧ decode .s16 [0x81#8, 0x1E#8, 0x00#8, 0x01#8, 0x02#8, 0x03#8]
        = .ok (.sbbRm16Imm16 p0 (m16 (.direct 0x0100#16)) 0x0302#16, [])
      ∧ decode .s32 [0x81#8, 0xD8#8, 0x78#8, 0x56#8, 0x34#8, 0x12#8]
        = .ok (.sbbRm32Imm32 p0 (.reg .n0) 0x12345678#32, [])
      ∧ decode .s16 [0x83#8, 0x5F#8, 0x02#8, 0xFF#8]
        = .ok (.sbbRm16Imm8 p0 (m16 (.based .bx (.d8 0x02#8))) 0xFF#8, [])
      ∧ decode .s32 [0x83#8, 0xDB#8, 0xFF#8] = .ok (.sbbRm32Imm8 p0 (.reg .n3) 0xFF#8, [])
      ∧ decode .s32 [0x18#8, 0x08#8] = .ok (.sbbRm8R8 p0 (m32 (.based .n0 .none)) .n1, [])
      ∧ decode .s16 [0x19#8, 0xC8#8] = .ok (.sbbRm16R16 p0 (.reg .n0) .n1, [])
      ∧ decode .s32 [0x19#8, 0xCA#8] = .ok (.sbbRm32R32 p0 (.reg .n2) .n1, [])
      ∧ decode .s16 [0x1A#8, 0x07#8] = .ok (.sbbR8Rm8 p0 (m16 (.based .bx .none)) .n0, [])
      ∧ decode .s16 [0x1B#8, 0x0C#8] = .ok (.sbbR16Rm16 p0 (m16 (.based .si .none)) .n1, [])
      ∧ decode .s32 [0x1B#8, 0x74#8, 0x24#8, 0x04#8]
        = .ok (.sbbR32Rm32 p0 (m32 (.sib .n4 none (.d8 0x04#8))) .n6, []) :=
  ⟨rfl, rfl, rfl, rfl, rfl, rfl, rfl, rfl, rfl, rfl, rfl, rfl, rfl, rfl⟩

theorem test_decode_sub :
    decode .s32 [0x2C#8, 0x01#8] = .ok (.subAlImm8 p0 0x01#8, [])
      ∧ decode .s32 [0x66#8, 0x2D#8, 0x01#8, 0x00#8] = .ok (.subAxImm16 p66 0x0001#16, [])
      ∧ decode .s32 [0x2D#8, 0x00#8, 0x00#8, 0x00#8, 0x80#8] = .ok (.subEaxImm32 p0 0x80000000#32, [])
      ∧ decode .s32 [0x80#8, 0xE9#8, 0x00#8] = .ok (.subRm8Imm8 p0 (.reg .n1) 0x00#8, [])
      ∧ decode .s16 [0x81#8, 0x2E#8, 0xFF#8, 0xFF#8, 0x01#8, 0x00#8]
        = .ok (.subRm16Imm16 p0 (m16 (.direct 0xFFFF#16)) 0x0001#16, [])
      ∧ decode .s32 [0x81#8, 0xEB#8, 0x01#8, 0x00#8, 0x00#8, 0x00#8]
        = .ok (.subRm32Imm32 p0 (.reg .n3) 0x00000001#32, [])
      ∧ decode .s16 [0x83#8, 0x68#8, 0x10#8, 0x05#8]
        = .ok (.subRm16Imm8 p0 (m16 (.based .bxsi (.d8 0x10#8))) 0x05#8, [])
      ∧ decode .s32 [0x83#8, 0xEC#8, 0x80#8] = .ok (.subRm32Imm8 p0 (.reg .n4) 0x80#8, [])
      ∧ decode .s32 [0x28#8, 0xE0#8] = .ok (.subRm8R8 p0 (.reg .n0) .n4, [])
      ∧ decode .s32 [0x66#8, 0x29#8, 0x17#8] = .ok (.subRm16R16 p66 (m32 (.based .n7 .none)) .n2, [])
      ∧ decode .s32 [0x29#8, 0xD8#8] = .ok (.subRm32R32 p0 (.reg .n0) .n3, [])
      ∧ decode .s32 [0x2A#8, 0xF3#8] = .ok (.subR8Rm8 p0 (.reg .n3) .n6, [])
      ∧ decode .s16 [0x2B#8, 0x0C#8] = .ok (.subR16Rm16 p0 (m16 (.based .si .none)) .n1, [])
      ∧ decode .s32 [0x2B#8, 0x45#8, 0x00#8] = .ok (.subR32Rm32 p0 (m32 (.based .n5 (.d8 0x00#8))) .n0, []) :=
  ⟨rfl, rfl, rfl, rfl, rfl, rfl, rfl, rfl, rfl, rfl, rfl, rfl, rfl, rfl⟩

theorem test_decode_strings :
    decode .s16 [0xAE#8] = .ok (.scasb p0 none, []) ∧ decode .s16 [0xAF#8] = .ok (.scasw p0 none, [])
      ∧ decode .s32 [0xAF#8] = .ok (.scasd p0 none, [])
      ∧ decode .s16 [0xF2#8, 0xAE#8] = .ok (.scasb p0 (some .repne), [])
      ∧ decode .s16 [0xF3#8, 0x66#8, 0x67#8, 0xAF#8] = .ok (.scasd ⟨true, true⟩ (some .repe), [])
      ∧ decode .s16 [0xAA#8] = .ok (.stosb p0 false, []) ∧ decode .s16 [0xAB#8] = .ok (.stosw p0 false, [])
      ∧ decode .s32 [0xF3#8, 0xAB#8] = .ok (.stosd p0 true, []) := ⟨rfl, rfl, rfl, rfl, rfl, rfl, rfl, rfl⟩

theorem test_decode_setcc :
    decode .s16 [0x0F#8, 0x90#8, 0xC0#8] = .ok (.seto p0 (.reg .n0), [])
      ∧ decode .s16 [0x0F#8, 0x91#8, 0xC1#8] = .ok (.setno p0 (.reg .n1), [])
      ∧ decode .s16 [0x0F#8, 0x92#8, 0x43#8, 0x05#8] = .ok (.setb p0 (m16 (.based .bpdi (.d8 0x05#8))), [])
      ∧ decode .s16 [0x0F#8, 0x93#8, 0xC2#8] = .ok (.setae p0 (.reg .n2), [])
      ∧ decode .s32 [0x0F#8, 0x94#8, 0x03#8] = .ok (.sete p0 (m32 (.based .n3 .none)), [])
      ∧ decode .s32 [0x0F#8, 0x95#8, 0xC2#8] = .ok (.setne p0 (.reg .n2), [])
      ∧ decode .s32 [0x0F#8, 0x96#8, 0xC3#8] = .ok (.setbe p0 (.reg .n3), [])
      ∧ decode .s32 [0x0F#8, 0x97#8, 0xC4#8] = .ok (.seta p0 (.reg .n4), [])
      ∧ decode .s32 [0x0F#8, 0x98#8, 0xC0#8] = .ok (.sets p0 (.reg .n0), [])
      ∧ decode .s32 [0x0F#8, 0x99#8, 0xC0#8] = .ok (.setns p0 (.reg .n0), [])
      ∧ decode .s32 [0x0F#8, 0x9A#8, 0xC0#8] = .ok (.setp p0 (.reg .n0), [])
      ∧ decode .s32 [0x0F#8, 0x9B#8, 0xC0#8] = .ok (.setnp p0 (.reg .n0), [])
      ∧ decode .s32 [0x0F#8, 0x9C#8, 0xC3#8] = .ok (.setl p0 (.reg .n3), [])
      ∧ decode .s32 [0x0F#8, 0x9D#8, 0xC0#8] = .ok (.setge p0 (.reg .n0), [])
      ∧ decode .s32 [0x0F#8, 0x9E#8, 0xC0#8] = .ok (.setle p0 (.reg .n0), [])
      ∧ decode .s32 [0x0F#8, 0x9F#8, 0xF8#8] = .ok (.setg p0 (.reg .n0), []) :=
  ⟨rfl, rfl, rfl, rfl, rfl, rfl, rfl, rfl, rfl, rfl, rfl, rfl, rfl, rfl, rfl, rfl⟩

theorem test_decode_system_stores :
    decode .s32 [0x0F#8, 0x01#8, 0x05#8, 0x00#8, 0x05#8, 0x00#8, 0x00#8]
        = .ok (.sgdt p0 (m32 (.direct 0x500#32)), [])
      ∧ decode .s16 [0x0F#8, 0x01#8, 0x0F#8] = .ok (.sidt p0 (m16 (.based .bx .none)), [])
      ∧ decode .s32 [0x0F#8, 0x00#8, 0xC0#8] = .ok (.sldt p0 (.reg .n0), [])
      ∧ decode .s16 [0x0F#8, 0x01#8, 0x24#8] = .ok (.smsw p0 (m16 (.based .si .none)), [])
      ∧ decode .s16 [0x0F#8, 0x00#8, 0x0E#8, 0x00#8, 0x01#8] = .ok (.str p0 (m16 (.direct 0x0100#16)), []) :=
  ⟨rfl, rfl, rfl, rfl, rfl⟩

theorem test_decode_double_shifts :
    decode .s16 [0x0F#8, 0xA4#8, 0xC8#8, 0x04#8] = .ok (.shldRm16R16Imm8 p0 (.reg .n0) .n1 0x04#8, [])
      ∧ decode .s32 [0x0F#8, 0xA4#8, 0xD8#8, 0x04#8] = .ok (.shldRm32R32Imm8 p0 (.reg .n0) .n3 0x04#8, [])
      ∧ decode .s16 [0x0F#8, 0xA5#8, 0xC8#8] = .ok (.shldRm16R16Cl p0 (.reg .n0) .n1, [])
      ∧ decode .s32 [0x0F#8, 0xA5#8, 0xD1#8] = .ok (.shldRm32R32Cl p0 (.reg .n1) .n2, [])
      ∧ decode .s16 [0x0F#8, 0xAC#8, 0x16#8, 0x00#8, 0x07#8, 0x01#8]
        = .ok (.shrdRm16R16Imm8 p0 (m16 (.direct 0x0700#16)) .n2 0x01#8, [])
      ∧ decode .s32 [0x0F#8, 0xAC#8, 0xD8#8, 0x04#8] = .ok (.shrdRm32R32Imm8 p0 (.reg .n0) .n3 0x04#8, [])
      ∧ decode .s16 [0x0F#8, 0xAD#8, 0xC8#8] = .ok (.shrdRm16R16Cl p0 (.reg .n0) .n1, [])
      ∧ decode .s32 [0x0F#8, 0xAD#8, 0xC3#8] = .ok (.shrdRm32R32Cl p0 (.reg .n3) .n0, []) :=
  ⟨rfl, rfl, rfl, rfl, rfl, rfl, rfl, rfl⟩

/-- The synonym rows of SAL (R97): their words, which `test_decode_shl` shows for SHL. -/
theorem test_words_of_sal :
    encode (.salRm8One p0 (.reg .n0)) = [0xD0#8, 0xE0#8] ∧ encode (.salRm8Cl p0 (.reg .n1)) = [0xD2#8, 0xE1#8]
      ∧ encode (.salRm8Imm8 p0 (.reg .n7) 0x08#8) = [0xC0#8, 0xE7#8, 0x08#8]
      ∧ encode (.salRm16One p0 (m16 (.direct 0x7FFF#16))) = [0xD1#8, 0x26#8, 0xFF#8, 0x7F#8]
      ∧ encode (.salRm16Cl p0 (m16 (.based .bxsi .none))) = [0xD3#8, 0x20#8]
      ∧ encode (.salRm16Imm8 p66 (.reg .n2) 0x05#8) = [0x66#8, 0xC1#8, 0xE2#8, 0x05#8]
      ∧ encode (.salRm32One p0 (.reg .n6)) = [0xD1#8, 0xE6#8]
      ∧ encode (.salRm32Cl p66 (.reg .n7)) = [0x66#8, 0xD3#8, 0xE7#8]
      ∧ encode (.salRm32Imm8 p0 (m32 (.sib .n3 (some (.n6, .x4)) (.d8 0x08#8))) 0x00#8)
        = [0xC1#8, 0x64#8, 0xB3#8, 0x08#8, 0x00#8] := by decide

/-- The synonym rows of SCAS and STOS with an operand (R97): the words of the operand-less rows. -/
theorem test_words_of_string_operand_forms :
    encode (.scasM8 p0 none) = [0xAE#8] ∧ encode (.scasM16 p0 none) = [0xAF#8]
      ∧ encode (.scasM32 p0 (some .repe)) = [0xF3#8, 0xAF#8] ∧ encode (.stosM8 p0 false) = [0xAA#8]
      ∧ encode (.stosM16 p0 false) = [0xAB#8] ∧ encode (.stosM32 p0 true) = [0xF3#8, 0xAB#8] := by decide

/-- The synonym rows of SETcc (R97), each with the condition number of its opcode (R151). -/
theorem test_words_of_setcc_synonyms :
    encode (.setc p0 (.reg .n0)) = [0x0F#8, 0x92#8, 0xC0#8]
      ∧ encode (.setnae p0 (.reg .n0)) = [0x0F#8, 0x92#8, 0xC0#8]
      ∧ encode (.setnb p0 (.reg .n0)) = [0x0F#8, 0x93#8, 0xC0#8]
      ∧ encode (.setnc p0 (.reg .n0)) = [0x0F#8, 0x93#8, 0xC0#8]
      ∧ encode (.setz p0 (.reg .n0)) = [0x0F#8, 0x94#8, 0xC0#8]
      ∧ encode (.setnz p0 (.reg .n0)) = [0x0F#8, 0x95#8, 0xC0#8]
      ∧ encode (.setna p0 (.reg .n0)) = [0x0F#8, 0x96#8, 0xC0#8]
      ∧ encode (.setnbe p0 (.reg .n0)) = [0x0F#8, 0x97#8, 0xC0#8]
      ∧ encode (.setpe p0 (.reg .n0)) = [0x0F#8, 0x9A#8, 0xC0#8]
      ∧ encode (.setpo p0 (.reg .n0)) = [0x0F#8, 0x9B#8, 0xC0#8]
      ∧ encode (.setnge p0 (.reg .n0)) = [0x0F#8, 0x9C#8, 0xC0#8]
      ∧ encode (.setnl p0 (.reg .n0)) = [0x0F#8, 0x9D#8, 0xC0#8]
      ∧ encode (.setng p0 (.reg .n0)) = [0x0F#8, 0x9E#8, 0xC0#8]
      ∧ encode (.setnle p0 (.reg .n0)) = [0x0F#8, 0x9F#8, 0xC0#8] := by decide

/-- The refusals V-ENC-24 to V-ENC-30, V-SCAS-9, V-STOS-9 (R73, R74, R76, R77, R83, R93). -/
theorem test_decode_refusals :
    decode .s32 [0x80#8, 0x2C#8, 0x60#8, 0x01#8] = .error .sibScaleWithoutIndex
      ∧ decode .s32 [0x66#8, 0x66#8, 0x29#8, 0xC0#8] = .error .repeatedPrefix
      ∧ decode .s32 [0xF3#8, 0x29#8, 0xC0#8] = .error .repNotAllowed
      ∧ decode .s32 [0x2E#8, 0x29#8, 0xC0#8] = .error .overrideNotAllowed
      ∧ decode .s32 [0x90#8] = .error .outOfScope
      ∧ decode .s32 [0xF0#8, 0x29#8, 0x03#8] = .error .lock
      ∧ decode .s32 [0x0F#8, 0x01#8, 0xF8#8] = .error .outOfScope
      ∧ decode .s32 [0x26#8, 0xAE#8] = .error .overrideNotAllowed
      ∧ decode .s32 [0xF2#8, 0xAA#8] = .error .repNotAllowed
      ∧ decode .s32 [0x0F#8] = .error .short := ⟨rfl, rfl, rfl, rfl, rfl, rfl, rfl, rfl, rfl, rfl⟩

/-! ### The host's two questions -/

theorem test_table_word_decodes :
    decodeTableWord 16 0x20D0 = some (.shlRm8One p0 (m16 (.based .bxsi .none)))
      ∧ decodeTableWord 8 0xFD = some (.std p0)
      ∧ decodeTableWord 24 0x00920F = some (.setb p0 (m16 (.based .bxsi .none))) := by
  decide

theorem test_step_runs_table_word :
    (match step (State.reset.withFetchWord 8 0xFD) with
      | .next t => t.flags.df && t.eip == 0xFFF1#32
      | _ => false) = true := by decide

/-! ### One step of each instruction: the vectors of spec/95_test_vectors.md -/

/-- All registers 0. -/
def noRegs : Regs := ⟨0#32, 0#32, 0#32, 0#32, 0#32, 0#32, 0#32, 0#32⟩

/-- All flags 0. -/
def noFlags : Flags := ⟨false, false, false, false, false, false, false, false, false, false, false⟩

/-- A segment at base 0 that passes every access. -/
def flatSeg : SegReg := ⟨0#16, 0#32, 0xFFFFFFFF#32, .data true false false, []⟩

/-- The launch state of spec/95_test_vectors.md: registers and flags 0, segments at 0, EIP 0, all memory
allocated, no byte with a value, the system registers of its parts 2.6 and 2.8. -/
def lab (m : Mode) (d : Size) : State :=
  { State.reset with
    regs := noRegs
    flags := noFlags
    eip := 0#32
    segs := ⟨flatSeg, { flatSeg with kind := .code true }, flatSeg, flatSeg, flatSeg, flatSeg⟩
    gdtr := ⟨0x03FF#16, 0x00123456#32⟩
    idtr := ⟨0x07FF#16, 0x89ABCDEF#32⟩
    ldtr := ⟨0x0028#16, 0#32, 0#32⟩
    tr := ⟨0x0040#16, 0#32, 0#32⟩
    cr0 := 0x0011#32
    mode := m
    defaultSize := d
    mem := ⟨[], none⟩ }

/-- One instruction, from its bytes. -/
def run1 (s : State) (bs : List Byte) : Host.Outcome State Fault Refusal :=
  match decode s.defaultSize bs with
  | .ok (i, []) => exec i s
  | .ok _ => .refused .outsideCodeRegion
  | .error e => .refused (.undecoded e)

/-- Whether one instruction answers a next state that meets `p`. -/
def after (s : State) (bs : List Byte) (p : State → Bool) : Bool :=
  match run1 s bs with
  | .next t => p t
  | .fault _ => false
  | .refused _ => false

/-- Whether one instruction takes the exception `x` with everything else as before (R232). -/
def takes (s : State) (bs : List Byte) (x : Exc) : Bool :=
  after s bs fun t => decide (t = { s with faulted := some ⟨x, s.eip⟩ })

/-- V-SAHF-1: SAHF. -/
theorem test_sahf_1 :
    after { lab .prot .s32 with
      flags := ⟨true, true, true, true, true, false, true, true, true, false, false⟩ }
      [0x9E#8] (fun t =>
        t.flags.cf == false && t.flags.pf == false && t.flags.af == false && t.flags.zf == false
          && t.flags.sf == false && t.flags.ofl == true && t.flags.df == true && t.flags.ifl == true
          && t.eip == 1#32) = true := by decide

/-- V-SAHF-3: SAHF. -/
theorem test_sahf_3 :
    after { lab .prot .s32 with regs := { noRegs with eax := 0xD500#32 } }
      [0x9E#8] (fun t =>
        t.regs.eax == 0xD500#32 && t.flags.cf == true && t.flags.pf == true && t.flags.af == true
          && t.flags.zf == true && t.flags.sf == true && t.flags.ofl == false && t.eip == 1#32) = true :=
      by decide

/-- V-SHIFT-2: SHL AL,1. -/
theorem test_shift_2 :
    after { lab .prot .s32 with regs := { noRegs with eax := 0x40#32 } }
      [0xD0#8, 0xE0#8] (fun t =>
        t.regs.eax == 0x80#32 && t.flags.cf == false && t.flags.pf == false && t.flags.zf == false
          && t.flags.sf == true && t.flags.ofl == true && t.eip == 2#32) = true := by decide

/-- V-SHIFT-9: SHL AL,8. -/
theorem test_shift_9 :
    after { lab .prot .s32 with regs := { noRegs with eax := 0x1#32 } }
      [0xC0#8, 0xE0#8, 0x08#8] (fun t =>
        t.regs.eax == 0x0#32 && t.flags.cf == true && t.flags.pf == true && t.flags.zf == true
          && t.flags.sf == false && t.eip == 3#32) = true := by decide

/-- V-SHIFT-11: SHL CL,CL. -/
theorem test_shift_11 :
    after { lab .prot .s32 with regs := { noRegs with ecx := 0x3#32 } }
      [0xD2#8, 0xE1#8] (fun t =>
        t.regs.ecx == 0x18#32 && t.flags.cf == false && t.flags.pf == true && t.flags.zf == false
          && t.flags.sf == false && t.eip == 2#32) = true := by decide

/-- V-SHIFT-12: SHR AX,1. -/
theorem test_shift_12 :
    after { lab .real .s16 with regs := { noRegs with eax := 0x8001#32 } }
      [0xD1#8, 0xE8#8] (fun t =>
        t.regs.eax == 0x4000#32 && t.flags.cf == true && t.flags.pf == true && t.flags.zf == false
          && t.flags.sf == false && t.flags.ofl == true && t.eip == 2#32) = true := by decide

/-- V-SHIFT-14: SHR BL,3. -/
theorem test_shift_14 :
    after { lab .prot .s32 with regs := { noRegs with ebx := 0xB4#32 } }
      [0xC0#8, 0xEB#8, 0x03#8] (fun t =>
        t.regs.ebx == 0x16#32 && t.flags.cf == true && t.flags.pf == false && t.flags.zf == false
          && t.flags.sf == false && t.eip == 3#32) = true := by decide

/-- V-SHIFT-16: SHR EDX,CL. -/
theorem test_shift_16 :
    after { lab .prot .s32 with regs := { noRegs with ecx := 0x3C#32, edx := 0xF0000000#32 } }
      [0xD3#8, 0xEA#8] (fun t =>
        t.regs.ecx == 0x3C#32 && t.regs.edx == 0xF#32 && t.flags.cf == false && t.flags.pf == true
          && t.flags.zf == false && t.flags.sf == false && t.eip == 2#32) = true := by decide

/-- V-SHIFT-17: SAR AL,1. -/
theorem test_shift_17 :
    after { lab .prot .s32 with regs := { noRegs with eax := 0xF7#32 } }
      [0xD0#8, 0xF8#8] (fun t =>
        t.regs.eax == 0xFB#32 && t.flags.cf == true && t.flags.pf == false && t.flags.zf == false
          && t.flags.sf == true && t.flags.ofl == false && t.eip == 2#32) = true := by decide

/-- V-SHIFT-19: SAR AL,31. -/
theorem test_shift_19 :
    after { lab .prot .s32 with regs := { noRegs with eax := 0x80#32 } }
      [0xC0#8, 0xF8#8, 0x1F#8] (fun t =>
        t.regs.eax == 0xFF#32 && t.flags.cf == true && t.flags.pf == true && t.flags.zf == false
          && t.flags.sf == true && t.eip == 3#32) = true := by decide

/-- V-SHIFT-20: SAR AX,15. -/
theorem test_shift_20 :
    after { lab .prot .s32 with regs := { noRegs with eax := 0x7FFF#32 } }
      [0x66#8, 0xC1#8, 0xF8#8, 0x0F#8] (fun t =>
        t.regs.eax == 0x0#32 && t.flags.cf == true && t.flags.pf == true && t.flags.zf == true
          && t.flags.sf == false && t.eip == 4#32) = true := by decide

/-- V-SHIFT-21: SAR EAX,CL. -/
theorem test_shift_21 :
    after { lab .prot .s32 with regs := { noRegs with eax := 0x80000000#32, ecx := 0x4#32 } }
      [0xD3#8, 0xF8#8] (fun t =>
        t.regs.eax == 0xF8000000#32 && t.regs.ecx == 0x4#32 && t.flags.cf == false
          && t.flags.pf == true && t.flags.zf == false && t.flags.sf == true && t.eip == 2#32) = true :=
      by decide

/-- V-SHIFT-22: SHL byte [0x2000],1. -/
theorem test_shift_22 :
    after { lab .prot .s32 with mem := ⟨[(0x2000, 0x81#8)], none⟩ }
      [0xD0#8, 0x25#8, 0x00#8, 0x20#8, 0x00#8, 0x00#8] (fun t =>
        t.flags.cf == true && t.flags.pf == false && t.flags.zf == false && t.flags.sf == false
          && t.flags.ofl == true && t.mem.cells == [(0x2000, 0x02#8)] && t.eip == 6#32) = true := by decide

/-- V-SHIFT-23: SHR word [BX+SI],CL. -/
theorem test_shift_23 :
    after { lab .real .s16 with
      regs := { noRegs with ecx := 0xF#32, ebx := 0x100#32, esi := 0x50#32 }
      mem := ⟨[(0x150, 0x00#8), (0x151, 0x80#8)], none⟩ }
      [0xD3#8, 0x28#8] (fun t =>
        t.regs.ecx == 0xF#32 && t.regs.ebx == 0x100#32 && t.regs.esi == 0x50#32 && t.flags.cf == false
          && t.flags.pf == false && t.flags.zf == false && t.flags.sf == false
          && t.mem.cells == [(0x150, 0x01#8), (0x151, 0x00#8)] && t.eip == 2#32) = true := by decide

/-- V-SHIFT-24: SHL dword [EBX+ESI*4+8],0. -/
theorem test_shift_24 :
    after { lab .prot .s32 with
      regs := { noRegs with ebx := 0x1000#32, esi := 0x4#32 }
      flags := { noFlags with cf := true, ofl := true }
      mem := ⟨[(0x1018, 0x78#8), (0x1019, 0x56#8), (0x101A, 0x34#8), (0x101B, 0x12#8)], none⟩ }
      [0xC1#8, 0x64#8, 0xB3#8, 0x08#8, 0x00#8] (fun t =>
        t.regs.ebx == 0x1000#32 && t.regs.esi == 0x4#32 && t.flags.cf == true && t.flags.pf == false
          && t.flags.af == false && t.flags.zf == false && t.flags.sf == false && t.flags.ofl == true
          && t.mem.cells == [(0x1018, 0x78#8), (0x1019, 0x56#8), (0x101A, 0x34#8), (0x101B, 0x12#8)]
          && t.eip == 5#32) = true := by decide

/-- V-SHIFT-25: SHL word [0xFFFF],1. -/
theorem test_shift_25 :
    takes (lab .real .s16)
      [0xD1#8, 0x26#8, 0xFF#8, 0xFF#8] .int13 = true := by decide

/-- V-SBB-1: SBB AL,0. -/
theorem test_sbb_1 :
    after { lab .prot .s32 with flags := { noFlags with cf := true } }
      [0x1C#8, 0x00#8] (fun t =>
        t.regs.eax == 0xFF#32 && t.flags.cf == true && t.flags.pf == true && t.flags.af == true
          && t.flags.zf == false && t.flags.sf == true && t.flags.ofl == false && t.eip == 2#32) = true :=
      by decide

/-- V-SBB-4: SBB EAX,1. -/
theorem test_sbb_4 :
    after { lab .prot .s32 with regs := { noRegs with eax := 0x80000000#32 } }
      [0x1D#8, 0x01#8, 0x00#8, 0x00#8, 0x00#8] (fun t =>
        t.regs.eax == 0x7FFFFFFF#32 && t.flags.cf == false && t.flags.pf == true && t.flags.af == true
          && t.flags.zf == false && t.flags.sf == false && t.flags.ofl == true && t.eip == 5#32) = true :=
      by decide

/-- V-SBB-6: SBB BL,10h. -/
theorem test_sbb_6 :
    after { lab .prot .s32 with regs := { noRegs with ebx := 0xF#32 } }
      [0x80#8, 0xDB#8, 0x10#8] (fun t =>
        t.regs.ebx == 0xFF#32 && t.flags.cf == true && t.flags.pf == true && t.flags.af == false
          && t.flags.zf == false && t.flags.sf == true && t.flags.ofl == false && t.eip == 3#32) = true :=
      by decide

/-- V-SBB-7: SBB word [0x0100],1. -/
theorem test_sbb_7 :
    after { lab .real .s16 with mem := ⟨[(0x100, 0x00#8), (0x101, 0x00#8)], none⟩ }
      [0x81#8, 0x1E#8, 0x00#8, 0x01#8, 0x01#8, 0x00#8] (fun t =>
        t.flags.cf == true && t.flags.pf == true && t.flags.af == true && t.flags.zf == false
          && t.flags.sf == true && t.flags.ofl == false
          && t.mem.cells == [(0x100, 0xFF#8), (0x101, 0xFF#8)] && t.eip == 6#32) = true := by decide

/-- V-SBB-9: SBB BX,-1. -/
theorem test_sbb_9 :
    after { lab .prot .s32 with regs := { noRegs with ebx := 0x10005#32 } }
      [0x66#8, 0x83#8, 0xDB#8, 0xFF#8] (fun t =>
        t.regs.ebx == 0x10006#32 && t.flags.cf == true && t.flags.pf == true && t.flags.af == true
          && t.flags.zf == false && t.flags.sf == false && t.flags.ofl == false && t.eip == 4#32) = true :=
      by decide

/-- V-SBB-10: SBB EDX,ECX. -/
theorem test_sbb_10 :
    after { lab .prot .s32 with
      regs := { noRegs with edx := 0x1#32 }
      flags := { noFlags with cf := true } }
      [0x19#8, 0xCA#8] (fun t =>
        t.regs.edx == 0x0#32 && t.flags.cf == false && t.flags.pf == true && t.flags.af == false
          && t.flags.zf == true && t.flags.sf == false && t.flags.ofl == false && t.eip == 2#32) = true :=
      by decide

/-- V-SBB-11: SBB [EAX],CL. -/
theorem test_sbb_11 :
    after { lab .prot .s32 with
      regs := { noRegs with eax := 0x3000#32 }
      flags := { noFlags with cf := true }
      mem := ⟨[(0x3000, 0x00#8)], none⟩ }
      [0x18#8, 0x08#8] (fun t =>
        t.regs.eax == 0x3000#32 && t.flags.cf == true && t.flags.pf == true && t.flags.af == true
          && t.flags.zf == false && t.flags.sf == true && t.flags.ofl == false
          && t.mem.cells == [(0x3000, 0xFF#8)] && t.eip == 2#32) = true := by decide

/-- V-SBB-12: SBB AL,[BX]. -/
theorem test_sbb_12 :
    after { lab .real .s16 with
      regs := { noRegs with eax := 0x10#32, ebx := 0x200#32 }
      mem := ⟨[(0x200, 0x20#8)], none⟩ }
      [0x1A#8, 0x07#8] (fun t =>
        t.regs.eax == 0xF0#32 && t.regs.ebx == 0x200#32 && t.flags.cf == true && t.flags.pf == true
          && t.flags.af == false && t.flags.zf == false && t.flags.sf == true && t.flags.ofl == false
          && t.mem.cells == [(0x200, 0x20#8)] && t.eip == 2#32) = true := by decide

/-- V-SBB-13: SBB ESI,[ESP+4]. -/
theorem test_sbb_13 :
    after { lab .prot .s32 with
      regs := { noRegs with esp := 0x8000#32 }
      flags := { noFlags with cf := true }
      mem := ⟨[(0x8004, 0xFF#8), (0x8005, 0xFF#8), (0x8006, 0xFF#8), (0x8007, 0xFF#8)], none⟩ }
      [0x1B#8, 0x74#8, 0x24#8, 0x04#8] (fun t =>
        t.regs.esp == 0x8000#32 && t.flags.cf == true && t.flags.pf == true && t.flags.af == true
          && t.flags.zf == true && t.flags.sf == false && t.flags.ofl == false
          && t.mem.cells == [(0x8004, 0xFF#8), (0x8005, 0xFF#8), (0x8006, 0xFF#8), (0x8007, 0xFF#8)]
          && t.eip == 4#32) = true := by decide

/-- V-SCAS-2: SCASW. -/
theorem test_scas_2 :
    after { lab .real .s16 with
      regs := { noRegs with eax := 0x1#32, edi := 0x10#32 }
      flags := { noFlags with df := true }
      mem := ⟨[(0x10, 0x02#8), (0x11, 0x00#8)], none⟩ }
      [0xAF#8] (fun t =>
        t.regs.eax == 0x1#32 && t.regs.edi == 0xE#32 && t.flags.cf == true && t.flags.pf == true
          && t.flags.af == true && t.flags.zf == false && t.flags.sf == true && t.flags.ofl == false
          && t.mem.cells == [(0x10, 0x02#8), (0x11, 0x00#8)] && t.eip == 1#32) = true := by decide

/-- V-SCAS-5: SCASB with 16-bit address size in a 32-bit segment. -/
theorem test_scas_5 :
    after { lab .prot .s32 with
      regs := { noRegs with eax := 0x1#32, edi := 0xABCDFFFF#32 }
      mem := ⟨[(0xFFFF, 0x00#8)], none⟩ }
      [0x67#8, 0xAE#8] (fun t =>
        t.regs.eax == 0x1#32 && t.regs.edi == 0xABCD0000#32 && t.flags.cf == false
          && t.flags.pf == false && t.flags.af == false && t.flags.zf == false && t.flags.sf == false
          && t.flags.ofl == false && t.mem.cells == [(0xFFFF, 0x00#8)] && t.eip == 2#32) = true := by decide

/-- V-SCAS-6: SCASD with 32-bit sizes in a 16-bit segment. -/
theorem test_scas_6 :
    after { lab .real .s16 with
      regs := { noRegs with eax := 0xDEADBEEF#32, edi := 0x100#32 }
      flags := { noFlags with df := true }
      mem := ⟨[(0x100, 0xEF#8), (0x101, 0xBE#8), (0x102, 0xAD#8), (0x103, 0xDE#8)], none⟩ }
      [0x66#8, 0x67#8, 0xAF#8] (fun t =>
        t.regs.eax == 0xDEADBEEF#32 && t.regs.edi == 0xFC#32 && t.flags.cf == false
          && t.flags.pf == true && t.flags.af == false && t.flags.zf == true && t.flags.sf == false
          && t.flags.ofl == false
          && t.mem.cells == [(0x100, 0xEF#8), (0x101, 0xBE#8), (0x102, 0xAD#8), (0x103, 0xDE#8)]
          && t.eip == 3#32) = true := by decide

/-- V-SCAS-8: SCASW at DI=FFFF. -/
theorem test_scas_8 :
    takes { lab .real .s16 with regs := { noRegs with edi := 0xFFFF#32 } }
      [0xAF#8] .int13 = true := by decide

/-- V-SCAS-11: REPE SCASB with CX=0. -/
theorem test_scas_11 :
    after { lab .real .s16 with
      regs := { noRegs with eax := 0x30#32, edi := 0x300#32 }
      flags := { noFlags with cf := true } }
      [0xF3#8, 0xAE#8] (fun t =>
        t.regs.eax == 0x30#32 && t.regs.edi == 0x300#32 && t.flags.cf == true && t.flags.pf == false
          && t.flags.af == false && t.flags.zf == false && t.flags.sf == false && t.flags.ofl == false
          && t.eip == 2#32) = true := by decide

/-- V-SET-1: SETE [EBX]. -/
theorem test_set_1 :
    after { lab .prot .s32 with
      regs := { noRegs with ebx := 0x5000#32 }
      flags := { noFlags with zf := true }
      mem := ⟨[(0x5000, 0xCC#8), (0x5001, 0xCC#8)], none⟩ }
      [0x0F#8, 0x94#8, 0x03#8] (fun t =>
        t.regs.ebx == 0x5000#32 && t.mem.cells == [(0x5000, 0x01#8), (0x5001, 0xCC#8)]
          && t.eip == 3#32) = true := by decide

/-- V-SET-3: SETA AH. -/
theorem test_set_3 :
    after (lab .prot .s32)
      [0x0F#8, 0x97#8, 0xC4#8] (fun t =>
        t.regs.eax == 0x100#32 && t.eip == 3#32) = true := by decide

/-- V-SET-4: SETB [BP+DI+5]. -/
theorem test_set_4 :
    after { lab .real .s16 with
      regs := { noRegs with ebp := 0x10#32, edi := 0x20#32 }
      flags := { noFlags with cf := true }
      mem := ⟨[(0x35, 0xCC#8)], none⟩ }
      [0x0F#8, 0x92#8, 0x43#8, 0x05#8] (fun t =>
        t.regs.ebp == 0x10#32 && t.regs.edi == 0x20#32 && t.mem.cells == [(0x35, 0x01#8)]
          && t.eip == 4#32) = true := by decide

/-- V-SDT-1: SGDT [0x500]. -/
theorem test_sdt_1 :
    after { lab .prot .s32 with
      mem := ⟨[(0x500, 0xCC#8), (0x501, 0xCC#8), (0x502, 0xCC#8), (0x503, 0xCC#8), (0x504, 0xCC#8),
         (0x505, 0xCC#8)], none⟩ }
      [0x0F#8, 0x01#8, 0x05#8, 0x00#8, 0x05#8, 0x00#8, 0x00#8] (fun t =>
        
         t.mem.cells == [(0x500, 0xFF#8), (0x501, 0x03#8), (0x502, 0x56#8),
             (0x503, 0x34#8), (0x504, 0x12#8), (0x505, 0x00#8)]
          && t.eip == 7#32) = true := by decide

/-- V-SDT-3: SIDT [0x500], operand size 16, SGDT16_TOP = 00. -/
theorem test_sdt_3 :
    after { lab .prot .s32 with
      mem := ⟨[(0x500, 0xCC#8), (0x501, 0xCC#8), (0x502, 0xCC#8), (0x503, 0xCC#8), (0x504, 0xCC#8),
         (0x505, 0xCC#8)], none⟩ }
      [0x66#8, 0x0F#8, 0x01#8, 0x0D#8, 0x00#8, 0x05#8, 0x00#8, 0x00#8] (fun t =>
        
         t.mem.cells == [(0x500, 0xFF#8), (0x501, 0x07#8), (0x502, 0xEF#8),
             (0x503, 0xCD#8), (0x504, 0xAB#8), (0x505, 0x00#8)]
          && t.eip == 8#32) = true := by decide

/-- V-SDT-5: SGDT EAX (mod = 3). -/
theorem test_sdt_5 :
    takes (lab .prot .s32)
      [0x0F#8, 0x01#8, 0xC0#8] .ud = true := by decide

/-- V-SDT-6: SGDT [0xFFFB], real mode. -/
theorem test_sdt_6 :
    takes (lab .real .s16)
      [0x0F#8, 0x01#8, 0x06#8, 0xFB#8, 0xFF#8] .int13 = true := by decide

/-- V-DSH-1: SHLD EAX,EBX,4. -/
theorem test_dsh_1 :
    after { lab .prot .s32 with regs := { noRegs with eax := 0x12345678#32, ebx := 0x9ABCDEF0#32 } }
      [0x0F#8, 0xA4#8, 0xD8#8, 0x04#8] (fun t =>
        t.regs.eax == 0x23456789#32 && t.regs.ebx == 0x9ABCDEF0#32 && t.flags.cf == true
          && t.flags.pf == false && t.flags.zf == false && t.flags.sf == false && t.eip == 4#32) = true :=
      by decide

/-- V-DSH-2: SHRD EAX,EBX,4. -/
theorem test_dsh_2 :
    after { lab .prot .s32 with regs := { noRegs with eax := 0x12345678#32, ebx := 0x9ABCDEF0#32 } }
      [0x0F#8, 0xAC#8, 0xD8#8, 0x04#8] (fun t =>
        t.regs.eax == 0x1234567#32 && t.regs.ebx == 0x9ABCDEF0#32 && t.flags.cf == true
          && t.flags.pf == false && t.flags.zf == false && t.flags.sf == false && t.eip == 4#32) = true :=
      by decide

/-- V-DSH-4: SHRD EBX,EAX,CL. -/
theorem test_dsh_4 :
    after { lab .prot .s32 with regs := { noRegs with ecx := 0x1#32, ebx := 0x1#32 } }
      [0x0F#8, 0xAD#8, 0xC3#8] (fun t =>
        t.regs.ecx == 0x1#32 && t.regs.ebx == 0x0#32 && t.flags.cf == true && t.flags.pf == true
          && t.flags.zf == true && t.flags.sf == false && t.eip == 3#32) = true := by decide

/-- V-DSH-6: SHLD AX,BX,16. -/
theorem test_dsh_6 :
    after { lab .prot .s32 with regs := { noRegs with eax := 0x1234#32, ebx := 0x5678#32 } }
      [0x66#8, 0x0F#8, 0xA4#8, 0xD8#8, 0x10#8] (fun t =>
        t.regs.ebx == 0x5678#32 && t.eip == 5#32) = true := by decide

/-- V-DSH-7: SHLD EAX,EBX,32. -/
theorem test_dsh_7 :
    after { lab .prot .s32 with
      regs := { noRegs with eax := 0x12345678#32, ebx := 0x9ABCDEF0#32 }
      flags := { noFlags with cf := true, ofl := true } }
      [0x0F#8, 0xA4#8, 0xD8#8, 0x20#8] (fun t =>
        t.regs.eax == 0x12345678#32 && t.regs.ebx == 0x9ABCDEF0#32 && t.flags.cf == true
          && t.flags.pf == false && t.flags.af == false && t.flags.zf == false && t.flags.sf == false
          && t.flags.ofl == true && t.eip == 4#32) = true := by decide

/-- V-DSH-9: SHLD ECX,EDX,CL. -/
theorem test_dsh_9 :
    after { lab .prot .s32 with regs := { noRegs with ecx := 0x80000004#32, edx := 0xF0000000#32 } }
      [0x0F#8, 0xA5#8, 0xD1#8] (fun t =>
        t.regs.ecx == 0x4F#32 && t.regs.edx == 0xF0000000#32 && t.flags.cf == false
          && t.flags.pf == false && t.flags.zf == false && t.flags.sf == false && t.eip == 3#32) = true :=
      by decide

/-- V-DSH-10: SHRD [0x700],DX,1. -/
theorem test_dsh_10 :
    after { lab .real .s16 with
      regs := { noRegs with edx := 0x1#32 }
      mem := ⟨[(0x700, 0x01#8), (0x701, 0x00#8)], none⟩ }
      [0x0F#8, 0xAC#8, 0x16#8, 0x00#8, 0x07#8, 0x01#8] (fun t =>
        t.regs.edx == 0x1#32 && t.flags.cf == true && t.flags.pf == true && t.flags.zf == false
          && t.flags.sf == true && t.mem.cells == [(0x700, 0x00#8), (0x701, 0x80#8)] && t.eip == 6#32) = true :=
      by decide

/-- V-SYS-1: SLDT AX. -/
theorem test_sys_1 :
    after { lab .prot .s32 with regs := { noRegs with eax := 0xFFFFFFFF#32 } }
      [0x0F#8, 0x00#8, 0xC0#8] (fun t =>
        t.regs.eax == 0xFFFF0028#32 && t.eip == 3#32) = true := by decide

/-- V-SYS-2: SLDT word [0x800]. -/
theorem test_sys_2 :
    after { lab .prot .s32 with
      mem := ⟨[(0x800, 0xCC#8), (0x801, 0xCC#8), (0x802, 0xCC#8), (0x803, 0xCC#8)], none⟩ }
      [0x0F#8, 0x00#8, 0x05#8, 0x00#8, 0x08#8, 0x00#8, 0x00#8] (fun t =>
        t.mem.cells == [(0x800, 0x28#8), (0x801, 0x00#8), (0x802, 0xCC#8), (0x803, 0xCC#8)]
          && t.eip == 7#32) = true := by decide

/-- V-SYS-3: SLDT AX in Real mode. -/
theorem test_sys_3 :
    takes (lab .real .s16)
      [0x0F#8, 0x00#8, 0xC0#8] .ud = true := by decide

/-- V-SYS-4: STR CX. -/
theorem test_sys_4 :
    after { lab .prot .s32 with regs := { noRegs with ecx := 0x12345678#32 } }
      [0x0F#8, 0x00#8, 0xC9#8] (fun t =>
        t.regs.ecx == 0x12340040#32 && t.eip == 3#32) = true := by decide

/-- V-SYS-6: STR CX in V86 mode. -/
theorem test_sys_6 :
    takes { lab .v86 .s16 with cpl := 3#2 }
      [0x0F#8, 0x00#8, 0xC9#8] .ud = true := by decide

/-- V-SYS-7: SMSW BX. -/
theorem test_sys_7 :
    after { lab .prot .s32 with regs := { noRegs with ebx := 0xAAAAAAAA#32 } }
      [0x0F#8, 0x01#8, 0xE3#8] (fun t =>
        t.regs.ebx == 0xAAAA0011#32 && t.eip == 3#32) = true := by decide

/-- V-SUB-1: SUB AL,1. -/
theorem test_sub_1 :
    after { lab .prot .s32 with
      regs := { noRegs with eax := 0x80#32 }
      flags := { noFlags with cf := true } }
      [0x2C#8, 0x01#8] (fun t =>
        t.regs.eax == 0x7F#32 && t.flags.cf == false && t.flags.pf == false && t.flags.af == true
          && t.flags.zf == false && t.flags.sf == false && t.flags.ofl == true && t.eip == 2#32) = true :=
      by decide

/-- V-SUB-3: SUB EAX,80000000h. -/
theorem test_sub_3 :
    after (lab .prot .s32)
      [0x2D#8, 0x00#8, 0x00#8, 0x00#8, 0x80#8] (fun t =>
        t.regs.eax == 0x80000000#32 && t.flags.cf == true && t.flags.pf == true && t.flags.af == false
          && t.flags.zf == false && t.flags.sf == true && t.flags.ofl == true && t.eip == 5#32) = true :=
      by decide

/-- V-SUB-4: SUB CL,0. -/
theorem test_sub_4 :
    after (lab .prot .s32)
      [0x80#8, 0xE9#8, 0x00#8] (fun t =>
        t.flags.cf == false && t.flags.pf == true && t.flags.af == false && t.flags.zf == true
          && t.flags.sf == false && t.flags.ofl == false && t.eip == 3#32) = true := by decide

/-- V-SUB-6: SUB word [BX+SI+10h],5. -/
theorem test_sub_6 :
    after { lab .real .s16 with
      regs := { noRegs with ebx := 0x100#32, esi := 0x20#32 }
      mem := ⟨[(0x130, 0x03#8), (0x131, 0x00#8)], none⟩ }
      [0x83#8, 0x68#8, 0x10#8, 0x05#8] (fun t =>
        t.regs.ebx == 0x100#32 && t.regs.esi == 0x20#32 && t.flags.cf == true && t.flags.pf == false
          && t.flags.af == true && t.flags.zf == false && t.flags.sf == true && t.flags.ofl == false
          && t.mem.cells == [(0x130, 0xFE#8), (0x131, 0xFF#8)] && t.eip == 4#32) = true := by decide

/-- V-SUB-7: SUB ESP,-128. -/
theorem test_sub_7 :
    after { lab .prot .s32 with regs := { noRegs with esp := 0x1000#32 } }
      [0x83#8, 0xEC#8, 0x80#8] (fun t =>
        t.regs.esp == 0x1080#32 && t.flags.cf == true && t.flags.pf == false && t.flags.af == false
          && t.flags.zf == false && t.flags.sf == false && t.flags.ofl == false && t.eip == 3#32) = true :=
      by decide

/-- V-SUB-9: SUB EAX,EAX. -/
theorem test_sub_9 :
    after { lab .prot .s32 with
      regs := { noRegs with eax := 0xDEADBEEF#32 }
      flags := { noFlags with cf := true, ofl := true, sf := true } }
      [0x29#8, 0xC0#8] (fun t =>
        t.regs.eax == 0x0#32 && t.flags.cf == false && t.flags.pf == true && t.flags.af == false
          && t.flags.zf == true && t.flags.sf == false && t.flags.ofl == false && t.eip == 2#32) = true :=
      by decide

/-- V-SUB-10: SUB [EDI],DX. -/
theorem test_sub_10 :
    after { lab .prot .s32 with
      regs := { noRegs with edx := 0x1#32, edi := 0x4000#32 }
      mem := ⟨[(0x4000, 0x00#8), (0x4001, 0x10#8)], none⟩ }
      [0x66#8, 0x29#8, 0x17#8] (fun t =>
        t.regs.edx == 0x1#32 && t.regs.edi == 0x4000#32 && t.flags.cf == false && t.flags.pf == true
          && t.flags.af == true && t.flags.zf == false && t.flags.sf == false && t.flags.ofl == false
          && t.mem.cells == [(0x4000, 0xFF#8), (0x4001, 0x0F#8)] && t.eip == 3#32) = true := by decide

/-- V-SUB-11: SUB CX,[SI]. -/
theorem test_sub_11 :
    after { lab .real .s16 with
      regs := { noRegs with ecx := 0x8000#32, esi := 0x40#32 }
      mem := ⟨[(0x40, 0x01#8), (0x41, 0x00#8)], none⟩ }
      [0x2B#8, 0x0C#8] (fun t =>
        t.regs.ecx == 0x7FFF#32 && t.regs.esi == 0x40#32 && t.flags.cf == false && t.flags.pf == true
          && t.flags.af == true && t.flags.zf == false && t.flags.sf == false && t.flags.ofl == true
          && t.mem.cells == [(0x40, 0x01#8), (0x41, 0x00#8)] && t.eip == 2#32) = true := by decide

/-- V-SUB-12: SUB DH,BL. -/
theorem test_sub_12 :
    after { lab .prot .s32 with regs := { noRegs with edx := 0x1000#32, ebx := 0x1#32 } }
      [0x2A#8, 0xF3#8] (fun t =>
        t.regs.edx == 0xF00#32 && t.regs.ebx == 0x1#32 && t.flags.cf == false && t.flags.pf == true
          && t.flags.af == true && t.flags.zf == false && t.flags.sf == false && t.flags.ofl == false
          && t.eip == 2#32) = true := by decide

/-- V-SUB-13: SUB AL,AH. -/
theorem test_sub_13 :
    after { lab .prot .s32 with regs := { noRegs with eax := 0x605#32 } }
      [0x28#8, 0xE0#8] (fun t =>
        t.regs.eax == 0x6FF#32 && t.flags.cf == true && t.flags.pf == true && t.flags.af == true
          && t.flags.zf == false && t.flags.sf == true && t.flags.ofl == false && t.eip == 2#32) = true :=
      by decide

/-- V-SUB-14: SUB EAX,[EBP]. -/
theorem test_sub_14 :
    after { lab .prot .s32 with
      regs := { noRegs with eax := 0x30#32, ebp := 0x9000#32 }
      mem := ⟨[(0x9000, 0x10#8), (0x9001, 0x00#8), (0x9002, 0x00#8), (0x9003, 0x00#8)], none⟩ }
      [0x2B#8, 0x45#8, 0x00#8] (fun t =>
        t.regs.eax == 0x20#32 && t.regs.ebp == 0x9000#32 && t.flags.cf == false && t.flags.pf == false
          && t.flags.af == false && t.flags.zf == false && t.flags.sf == false && t.flags.ofl == false
          && t.mem.cells == [(0x9000, 0x10#8), (0x9001, 0x00#8), (0x9002, 0x00#8), (0x9003, 0x00#8)]
          && t.eip == 3#32) = true := by decide

/-- V-FLAG-1: STC. -/
theorem test_flag_1 :
    after { lab .prot .s32 with flags := { noFlags with zf := true } }
      [0xF9#8] (fun t =>
        t.flags.cf == true && t.flags.pf == false && t.flags.af == false && t.flags.zf == true
          && t.flags.sf == false && t.flags.df == false && t.flags.ifl == false
          && t.flags.ofl == false && t.eip == 1#32) = true := by decide

/-- V-FLAG-3: STD. -/
theorem test_flag_3 :
    after { lab .prot .s32 with flags := { noFlags with cf := true } }
      [0xFD#8] (fun t =>
        t.flags.cf == true && t.flags.pf == false && t.flags.af == false && t.flags.zf == false
          && t.flags.sf == false && t.flags.df == true && t.flags.ifl == false && t.flags.ofl == false
          && t.eip == 1#32) = true := by decide

/-- V-FLAG-4: STI, CPL=0 IOPL=0. -/
theorem test_flag_4 :
    after { lab .prot .s32 with cpl := 0#2, iopl := 0#2 }
      [0xFB#8] (fun t =>
        t.flags.cf == false && t.flags.pf == false && t.flags.af == false && t.flags.zf == false
          && t.flags.sf == false && t.flags.df == false && t.flags.ifl == true && t.flags.ofl == false
          && t.eip == 1#32 && t.intInhibit) = true := by decide

/-- V-FLAG-6: STI, CPL=3 IOPL=0. -/
theorem test_flag_6 :
    takes { lab .prot .s32 with cpl := 3#2, iopl := 0#2 }
      [0xFB#8] .gp0 = true := by decide

/-- V-FLAG-9: STI, V86, IOPL=0. -/
theorem test_flag_9 :
    run1 { lab .v86 .s16 with cpl := 3#2, iopl := 0#2 } [0xFB#8] = .refused .stiV86Iopl := by
  rfl

/-- V-STOS-2: STOSW, DF=1. -/
theorem test_stos_2 :
    after { lab .real .s16 with
      regs := { noRegs with eax := 0x1234#32, edi := 0x10#32 }
      flags := { noFlags with df := true }
      mem := ⟨[(0x10, 0x00#8), (0x11, 0x00#8)], none⟩ }
      [0xAB#8] (fun t =>
        t.regs.eax == 0x1234#32 && t.regs.edi == 0xE#32
          && t.mem.cells == [(0x10, 0x34#8), (0x11, 0x12#8)] && t.eip == 1#32) = true := by decide

/-- V-STOS-4: STOSD in a 16-bit segment. -/
theorem test_stos_4 :
    after { lab .real .s16 with
      regs := { noRegs with eax := 0x11223344#32, edi := 0x55550020#32 }
      mem := ⟨[(0x20, 0x00#8), (0x21, 0x00#8), (0x22, 0x00#8), (0x23, 0x00#8)], none⟩ }
      [0x66#8, 0xAB#8] (fun t =>
        t.regs.eax == 0x11223344#32 && t.regs.edi == 0x55550024#32
          && t.mem.cells == [(0x20, 0x44#8), (0x21, 0x33#8), (0x22, 0x22#8), (0x23, 0x11#8)]
          && t.eip == 2#32) = true := by decide

/-- V-STOS-5: STOSB, 16-bit address in 32-bit segment, DI=FFFF. -/
theorem test_stos_5 :
    after { lab .prot .s32 with
      regs := { noRegs with eax := 0x77#32, edi := 0x1FFFF#32 }
      mem := ⟨[(0xFFFF, 0x00#8)], none⟩ }
      [0x67#8, 0xAA#8] (fun t =>
        t.regs.eax == 0x77#32 && t.regs.edi == 0x10000#32 && t.mem.cells == [(0xFFFF, 0x77#8)]
          && t.eip == 2#32) = true := by decide

/-- V-STOS-6: STOSW at DI=FFFF. -/
theorem test_stos_6 :
    takes { lab .real .s16 with regs := { noRegs with eax := 0x1234#32, edi := 0xFFFF#32 } }
      [0xAB#8] .int13 = true := by decide

/-- V-STOS-8: REP STOSB, CX=0. -/
theorem test_stos_8 :
    after { lab .real .s16 with regs := { noRegs with eax := 0x1#32, edi := 0x100#32 } }
      [0xF3#8, 0xAA#8] (fun t =>
        t.regs.eax == 0x1#32 && t.regs.edi == 0x100#32 && t.eip == 2#32) = true := by decide

/-! ### Witnesses: states and operands that meet the hypotheses of the statements, at the edges of each
clause -/

/-- A data segment read-only (`w` false) or expand-down (`e`), with limit 0x0FFF, for DS. -/
def withDs (s : State) (k : SegKind) : State :=
  { s with segs := { s.segs with ds := ⟨0#16, 0#32, 0x0FFF#32, k, []⟩ } }

/-- The flat Protected Mode launch state. -/
abbrev flat : State := lab .prot .s32

/-- `flat` with a value at every byte. -/
abbrev full : State := { flat with mem := ⟨[], some 0x5A#8⟩ }

/-- The byte at DS:0x100 in 32-bit addressing. -/
abbrev cell : RM := m32 (.direct 0x100#32)

theorem witness_StepRunsDecodedInstruction :
    let s := State.reset.withFetchWord 8 0x9E
    s.faulted = none ∧ s.nextOffset ≠ s.codeEnd ∧ decode s.defaultSize [0x9E#8] = .ok (.sahf p0, [])
      ∧ ∀ k (h : k < [0x9E#8].length), s.fetchByte (s.nextOffset + k) = .ok [0x9E#8][k] := by
  refine ⟨rfl, by decide, rfl, fun k h => ?_⟩
  obtain rfl : k = 0 := by simpa using h
  rfl

theorem witness_DecodeOfEncode :
    (Instr.salRm8One p0 (.reg .n0)).wf .s16 = true
      ∧ (Instr.sbbRm32Imm32 ⟨false, false⟩ (.mem ⟨some .gs, .a32 (.sib .n5 (some (.n7, .x8)) (.d32 0xFFFFFFFF#32))⟩)
        0xFFFFFFFF#32).wf .s32 = true := by decide

theorem witness_DecodedIsWellFormedAndMeasured :
    decode .s16 [0xF9#8, 0x90#8] = .ok (.stc p0, [0x90#8]) := rfl

theorem witness_LockIsRefused :
    (∀ b ∈ [0x66#8, 0xF0#8, 0x66#8], Spec.prefixGroup b ≠ none ∨ b = 0xF0#8) ∧ 0xF0#8 ∈ [0x66#8, 0xF0#8, 0x66#8] := by
  decide

theorem witness_OnePrefixOfEachGroup :
    ((∀ b ∈ [0x66#8, 0x67#8, 0x65#8, 0xF3#8], Spec.prefixGroup b ≠ none)
        ∧ ([0x66#8, 0x67#8, 0x65#8, 0xF3#8].map Spec.prefixGroup).Nodup
        ∧ [0x66#8, 0x67#8, 0x65#8, 0xF3#8].Perm [0xF3#8, 0x65#8, 0x67#8, 0x66#8])
      ∧ (∀ b ∈ [0x26#8, 0x3E#8], Spec.prefixGroup b ≠ none) ∧ ¬ ([0x26#8, 0x3E#8].map Spec.prefixGroup).Nodup := by
  decide

theorem witness_AcceptedPrefixesAreTheInstructions :
    (readPrefixes Prefixes.empty [0x36#8, 0x80#8, 0x28#8, 0x01#8]
        = .ok (⟨p0, some .ss, none⟩, [0x80#8, 0x28#8, 0x01#8])
      ∧ decode .s32 [0x36#8, 0x80#8, 0x28#8, 0x01#8]
        = .ok (.subRm8Imm8 p0 (.mem ⟨some .ss, .a32 (.based .n0 .none)⟩) 0x01#8, []))
      ∧ readPrefixes Prefixes.empty [0xF2#8, 0x67#8, 0xAE#8] = .ok (⟨p67, none, some .repne⟩, [0xAE#8])
      ∧ decode .s32 [0xF2#8, 0x67#8, 0xAE#8] = .ok (.scasb p67 (some .repne), []) := ⟨⟨rfl, rfl⟩, rfl, rfl⟩

theorem witness_UnlistedDigitsAreOutOfScope :
    midField 0xF0#8 ∉ [4#3, 5#3, 7#3] ∧ midField 0xC0#8 ∉ [4#3, 5#3, 7#3] ∧ midField 0x10#8 ∉ [3#3, 5#3]
      ∧ midField 0xFF#8 ∉ [3#3, 5#3] ∧ midField 0xD0#8 ∉ [0#3, 1#3] ∧ midField 0xD0#8 ∉ [0#3, 1#3, 4#3]
      ∧ midField 0xF8#8 ∉ [0#3, 1#3, 4#3] := by decide

theorem witness_RegisterAliasing :
    Spec.field .w8 .n4 = (.n0, 8) ∧ Spec.field .w8 .n3 = (.n3, 0) ∧ 15 < 8 + Width.bits .w8
      ∧ ¬ 16 < 8 + Width.bits .w8 ∧ 31 < 0 + Width.bits .w32 ∧ 7 < Width.bits .w8 := by decide

theorem witness_RealModeOffsetTest :
    (lab .real .s16).mode ≠ .prot ∧ (lab .v86 .s16).mode ≠ .prot ∧ (∃ j, j < 2 ∧ 0xFFFF < 0xFFFF + j)
      ∧ ¬ ∃ j, j < 2 ∧ 0xFFFF < 0xFFFE + j := by
  refine ⟨by decide, by decide, ⟨1, by decide⟩, ?_⟩
  rintro ⟨j, h, h'⟩; omega

/-- `flat` with a SegCheck of its own for DS: one-byte reads are illegal at 0x100 to 0x1FF, one-byte writes
fail as non-writable at 0x100, and two-byte writes pass from 0x1000 to the end. -/
abbrev judged : State :=
  { flat with segs := { flat.segs with ds :=
    ⟨0#16, 0#32, 0x0FFF#32, .data true false false,
      [⟨0x100, 0x1FF, 1, .read false⟩, ⟨0x100, 0x100, 1, .write .nonWritable⟩,
        ⟨0x1000, 0xFFFFFFFF, 2, .write .ok⟩]⟩ } }

/-- The rules of a launch at both sides of each range, then, with no rule, each kind of segment and the two
sides of each limit: offsets 0x0FFE and 0x0FFF of a word under limit 0x0FFF, offsets 0x1000 and 0x0FFF above
it, and the top of an expand-down segment. -/
theorem witness_ProtectedModeSegmentTest :
    judged.mode = .prot
      ∧ (let g := judged.segs.get .ds
        g.ruled 0x100 1 .read = some .illegal ∧ g.ruled 0x1FF 1 .read = some .illegal
        ∧ g.ruled 0x200 1 .read = none ∧ g.ruled 0x100 2 .read = none
        ∧ g.ruled 0x100 1 .write = some .nonWritable ∧ g.ruled 0x101 1 .write = none
        ∧ g.ruled 0x1000 2 .write = some .ok ∧ g.ruled 0x0FFF 2 .write = none
        ∧ g.ruled 0xFFFFFFFE 2 .write = some .ok ∧ g.ruled 0xFFFFFFFF 2 .write = none)
      ∧ ((withDs flat .unusable).segs.get .ds).ruled 0 1 .read = none
      ∧ flat.mode = .prot ∧ ((withDs flat .unusable).segs.get .ds).kind = .unusable
      ∧ ((withDs flat (.code false)).segs.get .ds).kind = .code false
      ∧ ((withDs flat (.code true)).segs.get .ds).kind = .code true
      ∧ ((withDs flat (.data false true false)).segs.get .ds).kind = .data false true false
      ∧ (let g := (withDs flat (.data true false false)).segs.get .ds
        g.kind = .data true false false ∧ 0x0FFE + (2 - 1) ≤ g.limit.toNat ∧ ¬ 0x0FFF + (2 - 1) ≤ g.limit.toNat)
      ∧ (let g := (withDs flat (.data true true false)).segs.get .ds
        g.kind = .data true true false ∧ g.limit.toNat < 0x1000 ∧ ¬ g.limit.toNat < 0x0FFF
          ∧ 0xFFFE + (2 - 1) ≤ 0xFFFF ∧ ¬ 0xFFFF + (2 - 1) ≤ 0xFFFF) := by decide

/-- The page of linear 0x2000 to 0x2FFF faults on a write at level 0. -/
def paged : State := { flat with pages := [⟨0x2000#32, 0x2FFF#32, .write, 0#2, .fault 0x7#32⟩] }

theorem witness_PageFaultOfLowestByte :
    segExc paged.mode .ds (segCheck paged.mode (paged.segs.get .ds) 0x1FFF 2 .write) = none
      ∧ paged.pageXlate 0x1FFF#32 .write = .phys 0x1FFF#32 ∧ paged.pageXlate 0x2000#32 .write = .fault 0x7#32
      ∧ paged.pageXlate 0x2FFF#32 .write = .fault 0x7#32 ∧ paged.pageXlate 0x3000#32 .write = .phys 0x3000#32
      ∧ paged.pageXlate 0x2000#32 .read = .phys 0x2000#32 := by decide

theorem witness_LittleEndian :
    [0x100, 0x101, 0x102, 0x103].Nodup ∧ 3 < [0x100, 0x101, 0x102, 0x103].length
      ∧ 0x104 ∉ [0x100, 0x101, 0x102, 0x103]
      ∧ full.operandAddrs .ds 0xFFFFFFFE 2 .read = .ok [0xFFFFFFFE, 0xFFFFFFFF]
      ∧ full.readAddrs [0xFFFFFFFE, 0xFFFFFFFF] = .ok [0x5A#8, 0x5A#8] := ⟨by decide, by decide, by decide, rfl, rfl⟩

theorem witness_LoadReturnsLastStore :
    full.storeAddrs .ds 0xFFFFFFFC 4 = .ok [0xFFFFFFFC, 0xFFFFFFFD, 0xFFFFFFFE, 0xFFFFFFFF]
      ∧ full.operandAddrs .ds 0xFFFFFFFC 4 .read = .ok [0xFFFFFFFC, 0xFFFFFFFD, 0xFFFFFFFE, 0xFFFFFFFF]
      ∧ [0xFFFFFFFC, 0xFFFFFFFD, 0xFFFFFFFE, 0xFFFFFFFF].Nodup := ⟨rfl, rfl, by decide⟩

theorem witness_CanonicalMemoryIsItsBytes :
    Memory.wf ⟨[(3, 0x5A#8), (0xFFFFFFFF, 0x01#8)], some 0#8⟩ ∧ Memory.wf ⟨[(0, 0#8)], none⟩ := by decide

/-- No memory above 0x100. -/
abbrev small : State := { full with allocated := [⟨0, 0x100⟩] }

/-- `full` with memory at 0x200 only, where reads of linear 0x100 go; writes of it go to 0x100. -/
def remapped : State :=
  { full with allocated := [⟨0x200, 0x200⟩], pages := [⟨0x100#32, 0x100#32, .read, 0#2, .phys 0x200#32⟩] }

theorem witness_StuckWithoutMemory :
    (Spec.checked small (Spec.row (.subR16Rm16 p66 cell .n0)) = some (.read, .ds, 0x100, 2)
        ∧ small.operandAddrs .ds 0x100 2 .read = .ok [0x100, 0x101]
        ∧ inRanges small.allocated 0x100 = true ∧ inRanges small.allocated 0x101 = false)
      ∧ (Spec.checked flat (Spec.row (.subR8Rm8 p0 cell .n0)) = some (.read, .ds, 0x100, 1)
        ∧ flat.operandAddrs .ds 0x100 1 .read = .ok [0x100] ∧ flat.mem.read 0x100 = none)
      ∧ Spec.checked small (Spec.row (.smsw p0 cell)) = some (.write, .ds, 0x100, 2)
      ∧ Spec.dest small (Spec.row (.smsw p0 cell)) ≠ none
      ∧ Spec.readsBack small (Spec.row (.smsw p0 cell)) = false
      ∧ small.operandAddrs .ds 0x100 2 .write = .ok [0x100, 0x101]
      ∧ (∀ a ∈ [0x100, 0x101], inRanges small.codeRegion a = false)
      ∧ (Spec.checked small (Spec.row (.shlRm16One p66 cell)) = some (.write, .ds, 0x100, 2)
        ∧ Spec.readsBack small (Spec.row (.shlRm16One p66 cell)) = true
        ∧ small.operandAddrs .ds 0x100 2 .write = .ok [0x100, 0x101]
        ∧ small.operandAddrs .ds 0x100 2 .read = .ok [0x100, 0x101])
      ∧ (Spec.checked flat (Spec.row (.shldRm32R32Imm8 p0 cell .n3 0x1#8)) = some (.write, .ds, 0x100, 4)
        ∧ Spec.readsBack flat (Spec.row (.shldRm32R32Imm8 p0 cell .n3 0x1#8)) = true
        ∧ flat.operandAddrs .ds 0x100 4 .write = .ok [0x100, 0x101, 0x102, 0x103]
        ∧ flat.operandAddrs .ds 0x100 4 .read = .ok [0x100, 0x101, 0x102, 0x103]
        ∧ flat.mem.read 0x103 = none)
      ∧ (remapped.operandAddrs .ds 0x100 1 .read = .ok [0x200] ∧ remapped.readAddrs [0x200] = .ok [0x5A#8]
        ∧ remapped.operandAddrs .ds 0x100 1 .write = .ok [0x100]
        ∧ inRanges remapped.allocated 0x100 = false) := by
  refine ⟨⟨rfl, rfl, rfl, rfl⟩, ⟨rfl, rfl, rfl⟩, rfl, ?_, rfl, rfl, by decide, ⟨rfl, rfl, rfl, rfl⟩,
    ⟨rfl, rfl, rfl, rfl, rfl⟩, rfl, rfl, rfl, rfl⟩
  simp [Spec.dest, Spec.row, Spec.rmDest]

/-- The program's bytes lie at 0x101. -/
abbrev coded : State := { full with codeRegion := [⟨0x101, 0x101⟩] }

theorem witness_StoreIntoCodeIsRefused :
    (Spec.checked coded (Spec.row (.smsw p0 cell)) = some (.write, .ds, 0x100, 2)
        ∧ Spec.dest coded (Spec.row (.smsw p0 cell)) ≠ none
        ∧ coded.operandAddrs .ds 0x100 2 .write = .ok [0x100, 0x101]
        ∧ inRanges coded.codeRegion 0x100 = false ∧ inRanges coded.codeRegion 0x101 = true
        ∧ (∀ a ∈ [0x100, 0x101], inRanges coded.allocated a = true)
        ∧ Spec.readsBack coded (Spec.row (.smsw p0 cell)) = false)
      ∧ Spec.readsBack coded (Spec.row (.shlRm16One p66 cell)) = true
      ∧ coded.operandAddrs .ds 0x100 2 .read = .ok [0x100, 0x101]
      ∧ coded.readAddrs [0x100, 0x101] = .ok [0x5A#8, 0x5A#8] := by
  refine ⟨⟨rfl, ?_, rfl, rfl, rfl, by decide, rfl⟩, rfl, rfl, rfl⟩
  simp [Spec.dest, Spec.row, Spec.rmDest]

theorem witness_ShiftEquivalences :
    Spec.row (.shlRm8One p0 cell) = .shift .shl .w8 .one cell
      ∧ Spec.row (.salRm8Imm8 p0 cell 0x21#8) = .shift .shl .w8 (.imm 0x21#8) cell
      ∧ CountSrc.count (.imm 0x21#8) full = 1
      ∧ CountSrc.count .cl { full with regs := { noRegs with ecx := 0xE1#32 } } = 1 := ⟨rfl, rfl, rfl, rfl⟩

theorem witness_ShldClosedForm_ShrdClosedForm :
    (0 < 1 ∧ 1 < Width.bits .w16) ∧ (0 < 15 ∧ 15 < Width.bits .w16) ∧ (0 < 7 ∧ 7 < Width.bits .w8)
      ∧ 0 < 31 ∧ 31 < Width.bits .w32 := by decide

/-- The three clauses of STI, at the edges of the level test (R197). -/
theorem witness_StiInEveryMode :
    (lab .real .s16).mode = .real
      ∧ (flat.mode = .prot ∧ ({ flat with cpl := 3#2, iopl := 3#2 } : State).cpl.toNat ≤ 3
        ∧ ({ flat with cpl := 1#2, iopl := 0#2 } : State).iopl.toNat < (1#2).toNat)
      ∧ (lab .v86 .s16).mode = .v86 ∧ (2#2).toNat < 3 ∧ ¬ (3#2).toNat < 3 := by decide

theorem witness_InterruptInhibitLastsOneInstruction :
    after { flat with intInhibit := true } [0xF9#8] (fun t => !t.intInhibit) = true
      ∧ after { full with intInhibit := true, regs := { noRegs with ecx := 2#32 } } [0xF3#8, 0xAA#8]
        (fun t => t.intInhibit && t.eip == 0#32 && t.regs.ecx == 1#32) = true
      ∧ Spec.row (.stc p0) = .stc ∧ (Instr.stosb p0 true).encoding.rep = some .repe
      ∧ State.mayTakeExternalInterrupt { flat with flags := { noFlags with ifl := true } } = true :=
  ⟨by decide, by decide, rfl, rfl, rfl⟩

/-- Counts 1, 31 and 0 of a shift of a register and of memory. -/
theorem witness_ShiftResult_ShiftByZero_OverflowOfSingleShift :
    Spec.row (.sarRm8Imm8 p0 cell 0x01#8) = .shift .sar .w8 (.imm 0x01#8) cell
      ∧ full.readRM .w8 cell = .ok 0x5A#8 ∧ full.rmPlace .w8 cell = .ok (.bytes [0x100])
      ∧ full.readRM .w16 (.reg .n1) = .ok 0#16 ∧ full.rmPlace .w16 (.reg .n1) = .ok (.reg .n1)
      ∧ CountSrc.count (.imm 0x01#8) full = 1 ∧ CountSrc.count (.imm 0x1F#8) full = 31
      ∧ CountSrc.count (.imm 0x20#8) full = 0 ∧ CountSrc.count .cl full = 0 :=
  ⟨rfl, rfl, rfl, rfl, rfl, rfl, rfl, rfl, rfl⟩

theorem witness_SubtractFromAccumulator :
    Spec.row (.sbbAxImm16 p66 0xFFFF#16) = .subAcc .w16 true 0xFFFF#16
      ∧ Spec.row (.subAlImm8 p0 0#8) = .subAcc .w8 false 0#8 := ⟨rfl, rfl⟩

theorem witness_SubtractFromRM :
    Spec.row (.sbbRm32Imm8 p0 cell 0x80#8) = .subToRM .w32 true cell (.imm 0xFFFFFF80#32)
      ∧ Spec.row (.subRm8R8 p0 cell .n4) = .subToRM .w8 false cell (.reg .n4)
      ∧ full.readRM .w32 cell = .ok 0x5A5A5A5A#32
      ∧ full.rmPlace .w32 cell = .ok (.bytes [0x100, 0x101, 0x102, 0x103])
      ∧ full.readRM .w8 cell = .ok 0x5A#8 ∧ full.rmPlace .w8 cell = .ok (.bytes [0x100]) :=
  ⟨rfl, rfl, rfl, rfl, rfl, rfl⟩

theorem witness_SubtractRMFromRegister :
    Spec.row (.sbbR32Rm32 p0 cell .n6) = .subFromRM .w32 true .n6 cell
      ∧ full.readRM .w32 cell = .ok 0x5A5A5A5A#32 ∧ full.readRM .w32 (.reg .n6) = .ok 0#32 := ⟨rfl, rfl, rfl⟩

/-- ES:0xFFFF with 16-bit addressing, count 0 and 1. -/
abbrev scanned : State :=
  { full with regs := { noRegs with edi := 0xABCDFFFF#32, ecx := 0x10001#32 } }

theorem witness_ScasOnce_ScasRepeated :
    Spec.row (.scasb p67 none) = .scas .w8 p67 none
      ∧ Spec.row (.scasM8 p67 (some .repne)) = .scas .w8 p67 (some .repne)
      ∧ scanned.addressSize p67 = .s16 ∧ scanned.index .s16 = 0xFFFF
      ∧ scanned.readSeg .w8 .es 0xFFFF = .ok 0x5A#8
      ∧ Spec.countOf .s16 scanned.regs = 1 ∧ Spec.countOf .s16 { noRegs with ecx := 0x10000#32 } = 0
      ∧ Spec.countOf .s16 { scanned.regs with ecx := 0x10002#32 } = 2 :=
  ⟨rfl, rfl, rfl, rfl, rfl, rfl, rfl, rfl⟩

theorem witness_StosOnce_StosRepeated :
    Spec.row (.stosb p67 false) = .stos .w8 p67 false ∧ Spec.row (.stosM8 p67 true) = .stos .w8 p67 true
      ∧ scanned.storeAddrs .es (scanned.index (scanned.addressSize p67)) 1 = .ok [0xFFFF]
      ∧ Spec.countOf (scanned.addressSize p67) scanned.regs = 1
      ∧ Spec.countOf .s16 { noRegs with ecx := 0x10000#32 } = 0
      ∧ Spec.countOf .s16 { scanned.regs with ecx := 0x10002#32 } = 2 := ⟨rfl, rfl, rfl, rfl, rfl, rfl⟩

theorem witness_SetccStoresCondition :
    Spec.row (.setnle p0 cell) = .setcc .g cell ∧ full.rmPlace .w8 cell = .ok (.bytes [0x100])
      ∧ Spec.condTrue full.flags .g ∧ ¬ Spec.condTrue full.flags .le := by
  refine ⟨rfl, rfl, ?_, ?_⟩ <;> simp [Spec.condTrue, lab, noFlags]

theorem witness_TableStoreLayout :
    Spec.row (.sgdt p66 cell) = .table .gdtr p66 cell ∧ Spec.row (.sidt p0 cell) = .table .idtr p0 cell
      ∧ full.storeAddrs .ds 0x100 6 = .ok [0x100, 0x101, 0x102, 0x103, 0x104, 0x105]
      ∧ full.operandSize p66 = .s16 ∧ full.operandSize p0 = .s32 ∧ full.sgdt16Top = .byte 0#8 :=
  ⟨rfl, rfl, rfl, rfl, rfl, rfl⟩

theorem witness_SystemWordStore :
    Spec.row (.sldt p0 cell) = .word .ldtr cell ∧ Spec.row (.str p0 (.reg .n1)) = .word .tr (.reg .n1)
      ∧ Spec.row (.smsw p0 cell) = .word .msw cell ∧ full.mode = .prot
      ∧ full.rmPlace .w16 cell = .ok (.bytes [0x100, 0x101]) ∧ full.rmPlace .w16 (.reg .n1) = .ok (.reg .n1) :=
  ⟨rfl, rfl, rfl, rfl, rfl, rfl⟩

/-- `flat` with DS read-only, so that a write to DS raises #GP(0). -/
abbrev readOnly : State := withDs full (.data false false false)

theorem witness_DoubleShiftByZero :
    Spec.row (.shldRm32R32Imm8 p0 cell .n3 0x20#8) = .dshift .shld .w32 (.imm 0x20#8) cell .n3
      ∧ CountSrc.count (.imm 0x20#8) full = 0 ∧ full.checkWriteRM .w32 cell = .ok ()
      ∧ readOnly.checkWriteRM .w32 cell = .error (.exc .gp0) := ⟨rfl, rfl, rfl, rfl⟩

/-- Counts 1, N - 1 and, for N = 16, N and 31, and a write check that raises. -/
theorem witness_DoubleShiftResult_DoubleShiftBadParameters :
    Spec.row (.shrdRm16R16Imm8 p66 cell .n3 0x0F#8) = .dshift .shrd .w16 (.imm 0x0F#8) cell .n3
      ∧ full.readRM .w16 cell = .ok 0x5A5A#16 ∧ full.rmPlace .w16 cell = .ok (.bytes [0x100, 0x101])
      ∧ CountSrc.count (.imm 0x01#8) full = 1 ∧ CountSrc.count (.imm 0x0F#8) full = 15
      ∧ CountSrc.count (.imm 0x10#8) full = 16 ∧ CountSrc.count (.imm 0x1F#8) full = 31
      ∧ readOnly.checkWriteRM .w16 cell = .error (.exc .gp0) :=
  ⟨rfl, rfl, rfl, rfl, rfl, rfl, rfl, rfl⟩

/-- A step that takes an exception: SIDT of a register as the program at EIP. -/
theorem witness_ExceptionMarksAndEnds :
    (match step (State.reset.withFetchWord 24 0xC8010F) with
      | .next t => decide (t.faulted = some ⟨.ud, 0x0000FFF0#32⟩)
      | _ => false) = true
      ∧ State.faulted { flat with faulted := some ⟨.pf 7#32, 0#32⟩ } = some ⟨.pf 7#32, 0#32⟩ :=
  ⟨by decide, rfl⟩

/-- `full` with a page that may be written but faults on a read. -/
abbrev unread : State := { full with pages := [⟨0x100#32, 0x100#32, .read, 0#2, .fault 0x5#32⟩] }

theorem witness_OperandCheckIsTaken :
    Spec.checked (lab .real .s16) (Spec.row (.subRm16Imm16 p0 (m16 (.direct 0xFFFF#16)) 0x0001#16))
        = some (.write, .ds, 0xFFFF, 2)
      ∧ (lab .real .s16).operandAddrs .ds 0xFFFF 2 .write = .error (.exc .int13)
      ∧ Spec.checked readOnly (Spec.row (.setb p0 cell)) = some (.write, .ds, 0x100, 1)
      ∧ readOnly.operandAddrs .ds 0x100 1 .write = .error (.exc .gp0)
      ∧ Spec.checked paged (Spec.row (.smsw p0 (m32 (.direct 0x1FFF#32)))) = some (.write, .ds, 0x1FFF, 2)
      ∧ paged.operandAddrs .ds 0x1FFF 2 .write = .error (.exc (.pf 0x7#32))
      ∧ Spec.checked unread (Spec.row (.shlRm8One p0 cell)) = some (.write, .ds, 0x100, 1)
      ∧ Spec.readsBack unread (Spec.row (.shlRm8One p0 cell)) = true
      ∧ unread.operandAddrs .ds 0x100 1 .write = .ok [0x100]
      ∧ unread.operandAddrs .ds 0x100 1 .read = .error (.exc (.pf 0x5#32)) :=
  ⟨rfl, rfl, rfl, rfl, rfl, rfl, rfl, rfl, rfl, rfl⟩

/-- The three causes: `#UD`, STI above IOPL, an operand check, and the read check of a segment or page that
lets the operand be written. -/
theorem witness_ExceptionsHaveListedCauses :
    takes flat [0x0F#8, 0x01#8, 0xC0#8] .ud = true
      ∧ takes { flat with cpl := 1#2 } [0xFB#8] .gp0 = true
      ∧ takes readOnly [0x0F#8, 0x92#8, 0x05#8, 0x00#8, 0x01#8, 0x00#8, 0x00#8] .gp0 = true
      ∧ takes unread [0xD0#8, 0x25#8, 0x00#8, 0x01#8, 0x00#8, 0x00#8] (.pf 0x5#32) = true := by decide

theorem witness_UndefinedOpcodeExactly :
    Spec.udCause flat (Spec.row (.sgdt p0 (.reg .n0)))
      ∧ Spec.udCause (lab .real .s16) (Spec.row (.sldt p0 cell))
      ∧ Spec.udCause (lab .v86 .s16) (Spec.row (.str p0 (.reg .n1)))
      ∧ ¬ Spec.udCause flat (Spec.row (.sldt p0 cell)) := by
  refine ⟨trivial, ?_, ?_, ?_⟩ <;> simp [Spec.udCause, Spec.row, lab]

theorem witness_ExceptionsOfTheMode :
    (lab .v86 .s16).operandAddrs .gs 0x10000 1 .read = .error (.exc .int13)
      ∧ readOnly.operandAddrs .ds 0 1 .write = .error (.exc .gp0)
      ∧ State.operandAddrs { flat with segs := { flat.segs with ss := ⟨0#16, 0#32, 0#32, .unusable, []⟩ } } .ss 0 1 .read
        = .error (.exc .ss0)
      ∧ paged.operandAddrs .ds 0x2FFF 1 .write = .error (.exc (.pf 0x7#32)) := ⟨rfl, rfl, rfl, rfl⟩

/-- A store whose frame is not empty: one byte at DS:0x100. -/
theorem witness_FrameOfEveryInstruction :
    after full [0x0F#8, 0x93#8, 0x05#8, 0x00#8, 0x01#8, 0x00#8, 0x00#8]
        (fun t => t.mem.read 0x100 == some 0x01#8 && t.mem.read 0x101 == some 0x5A#8) = true
      ∧ Spec.storedAddrs full (Spec.row (.setae p0 cell)) = [0x100]
      ∧ Spec.writtenRegs full (Spec.row (.subR8Rm8 p0 cell .n4)) = [.n0]
      ∧ Spec.writtenFlags full (Spec.row (.stc p0)) = [.cf] := ⟨by decide, rfl, rfl, rfl⟩

theorem witness_StepKeepsInvariant_StepKeepsLaunchPart :
    State.Inv (State.reset.withFetchWord 8 0xF9)
      ∧ ∃ t, step (State.reset.withFetchWord 8 0xF9) = .next t :=
  ⟨⟨by decide, by decide, by simp [State.withFetchWord], by decide, by decide⟩, _, rfl⟩

theorem witness_EndOfRunExactlyAtEnd :
    State.Final State.reset ∧ ¬ State.Final (State.reset.withFetchWord 8 0xF9) := by
  refine ⟨⟨rfl, by decide⟩, ?_⟩
  rintro ⟨-, h⟩; exact absurd h (by decide)

/-- STC at offset 0xFFFF, the last byte of a program whose End is 2^16. -/
def atTop : State := { ({ State.reset with eip := 0xFFFF#32 } : State).withFetchWord 8 0xF9 with codeEnd := 0x10000 }

/-- R14, R264: the last instruction wraps EIP to 0, and there the run has ended. -/
theorem test_run_ends_at_the_top :
    (match step atTop with
      | .next t => t.eip == 0#32 && t.flags.cf && decide (t.faulted = none ∧ t.nextOffset = t.codeEnd)
      | _ => false) = true := by decide

/-- The two sides of an End at the end of the offset range, and an EIP that has wrapped short of its End. -/
theorem witness_EndOfRunExactlyAtEnd_wrapped :
    (atTop.faulted = none ∧ atTop.eip.toNat + Instr.length (.stc p0) = Spec.offsetLimit atTop
        ∧ atTop.codeEnd = Spec.offsetLimit atTop)
      ∧ step { atTop with wrapped := true, eip := 0#32 } = .fault .endOfRun
      ∧ step { atTop with wrapped := true, eip := 0#32, codeEnd := 0x10001 } = .refused .pastOffsetRange :=
  ⟨⟨rfl, by decide, rfl⟩, rfl, rfl⟩

end Sys2Proof.Tests
end

section
/-! The launch part of a state through one step (R5, R21 to R26, R240, R241, R244). -/

namespace Sys2Proof.Machine

/-- Setting the fault mark is no write to the launch part. -/
@[simp] theorem State.markFaulted_launchPart (s : State) (x : Exc) :
    (s.markFaulted x).launchPart = s.launchPart := rfl

/-- Taking an exception sets the mark and clears IntInhibit only (R232). -/
@[simp] theorem State.takeException_launchPart (s : State) (x : Exc) :
    (s.takeException x).launchPart = s.launchPart := rfl

/-- Every next state of an instruction, completed or with an exception taken, has the launch part it began with. -/
theorem Outcome.launchPart_eq {len : Nat} {s t : State} (h : Outcome len s t) : t.launchPart = s.launchPart := by
  rcases h with hcompleted | ⟨x, rfl⟩ | rfl
  · exact hcompleted.launch
  · exact s.takeException_launchPart x
  · exact s.markFaulted_launchPart .gp0

theorem exec_keeps_launchPart {i : Instr} {s t : State} (h : exec i s = .next t) :
    t.launchPart = s.launchPart :=
  (exec_outcome h).launchPart_eq

/-- Settles O58: a step either executes the fetched instruction or takes the exception of its fetch, and
neither writes the launch part. -/
theorem stepKeepsLaunchPart : Obligations.StepKeepsLaunchPart := by
  intro s t h
  obtain ⟨-, -, ⟨i, -, hexec⟩ | ⟨x, -, rfl⟩⟩ := step_eq_next h
  · exact exec_keeps_launchPart hexec
  · exact s.takeException_launchPart x

end Sys2Proof.Machine
end

section
/-! The invariant through one step (R14, R26, R44, R75, R232). -/

namespace Sys2Proof.Machine

theorem offsetSpan_pos (d : Size) : 0 < offsetSpan d := by cases d <;> decide

/-- EIP wraps at the end of the offset range, so it never leaves it (R14). -/
theorem State.nextEip_lt (s : State) (len : Nat) : (s.nextEip len).toNat < offsetSpan s.defaultSize :=
  calc (s.nextEip len).toNat
      ≤ (s.eip.toNat + len) % offsetSpan s.defaultSize := by
        rw [State.nextEip, BitVec.toNat_ofNat]; exact Nat.mod_le _ _
    _ < offsetSpan s.defaultSize := Nat.mod_lt _ (offsetSpan_pos _)

/-- The invariant moves along a change that keeps the launch part, once memory, EIP and the mark are seen to. -/
theorem State.Inv.of_launchPart {s t : State} (hs : s.Inv) (launch : t.launchPart = s.launchPart)
    (memory : t.mem.wf) (eipRange : t.eip.toNat < offsetSpan s.defaultSize)
    (markEip : ∀ m ∈ t.faulted, m.eip = t.eip) : t.Inv := by
  have hmode : t.mode = s.mode := congrArg LaunchPart.mode launch
  have hsize : t.defaultSize = s.defaultSize := congrArg LaunchPart.defaultSize launch
  have hcpl : t.cpl = s.cpl := congrArg LaunchPart.cpl launch
  exact {
    memory, markEip
    eipRange := hsize ▸ eipRange
    sizeOfMode := hmode ▸ hsize ▸ hs.sizeOfMode
    v86Level := hmode ▸ hcpl ▸ hs.v86Level }

/-- Marking a state records the EIP it has and moves nothing the invariant speaks of (R232). -/
theorem State.markFaulted_inv {s : State} (hs : s.Inv) (x : Exc) : (s.markFaulted x).Inv :=
  hs.of_launchPart (s.markFaulted_launchPart x) hs.memory hs.eipRange (by simp)

theorem State.takeException_inv {s : State} (hs : s.Inv) (x : Exc) : (s.takeException x).Inv :=
  hs.of_launchPart (s.takeException_launchPart x) hs.memory hs.eipRange (by simp)

/-- An instruction run in an unmarked state that takes no exception leaves no mark, and EIP either moves by R14
or stays on an unfinished repetition. -/
theorem Effect.inv {len : Nat} {s t : State} (h : Effect len s t) (hs : s.Inv) (hf : s.faulted = none) :
    t.Inv := by
  refine hs.of_launchPart h.launch (h.memory hs.memory) ?_ (by simp [h.faulted, hf])
  rcases h.progress with ⟨heip, -⟩ | ⟨heip, -, -⟩
  · rw [heip]; exact s.nextEip_lt len
  · rw [heip]; exact hs.eipRange

theorem Outcome.inv {len : Nat} {s t : State} (h : Outcome len s t) (hs : s.Inv) (hf : s.faulted = none) :
    t.Inv := by
  rcases h with hcompleted | ⟨x, rfl⟩ | rfl
  · exact hcompleted.inv hs hf
  · exact State.takeException_inv hs x
  · exact State.markFaulted_inv hs .gp0

/-- Settles O57: only an unmarked state steps, and its step runs the fetched instruction or takes the exception
of the fetch; each keeps the invariant. -/
theorem stepKeepsInvariant : Obligations.StepKeepsInvariant := by
  intro s t hs h
  obtain ⟨hf, -, ⟨i, -, hexec⟩ | ⟨x, -, rfl⟩⟩ := step_eq_next h
  · exact (exec_outcome hexec).inv hs hf
  · exact State.takeException_inv hs x

end Sys2Proof.Machine
end

section
/-! Register aliasing bit by bit (R11, R12). -/

namespace Sys2Proof.Machine

/-- The register part of R12 is a part of the register the model reads and writes. -/
theorem field_fst (w : Width) (n : RegNo) : (Spec.field w n).1 = regHome w n := by
  cases w <;> cases n <;> rfl

theorem field_w8_snd (n : RegNo) : (Spec.field .w8 n).2 = if isHighByte n then 8 else 0 := by
  cases n <;> rfl

/-- A read takes the bits from the part's lowest bit on. -/
theorem Regs.get_getLsbD (w : Width) (r : Regs) (n : RegNo) {k : Nat} (hk : k < w.bits) :
    (r.get w n).getLsbD k = (r.get32 (regHome w n)).getLsbD ((Spec.field w n).2 + k) := by
  cases w
  case w8 =>
    have hk' : k < 8 := hk
    simp [Regs.get, regHome, field_w8_snd, hk']
  case w16 =>
    have hk' : k < 16 := hk
    simp [Regs.get, regHome, Spec.field, hk']
  case w32 => simp [Regs.get, regHome, Spec.field]

/-- A write replaces the bits of the part and keeps the others of its register. -/
theorem Regs.put_home_getLsbD (w : Width) (r : Regs) (n : RegNo) (v : BitVec w.bits) {k : Nat} (hk : k < 32) :
    ((r.put w n v).get32 (regHome w n)).getLsbD k =
      if (Spec.field w n).2 ≤ k ∧ k < (Spec.field w n).2 + w.bits then v.getLsbD (k - (Spec.field w n).2)
      else (r.get32 (regHome w n)).getLsbD k := by
  rw [Regs.get32_put_home]
  cases w
  case w8 =>
    rw [field_w8_snd]
    cases hb : isHighByte n with
    | false => simp [replaceByte_getLsbD, regHome]
    | true =>
      by_cases h8 : k < 8
      · simp [replaceByte_getLsbD, regHome, h8, Nat.not_le.2 h8]
      · simp [replaceByte_getLsbD, regHome, Width.bits, h8, Nat.not_lt.1 h8]
  case w16 => simp [replaceWord_getLsbD, regHome, Spec.field]
  case w32 => simp [Spec.field, hk]

/-- Settles O10: a write reaches one 32-bit register, and there the bits of the named part. -/
theorem registerAliasing : Obligations.RegisterAliasing := by
  intro w r n v
  rw [field_fst]
  refine ⟨fun k hk => r.get_getLsbD w n hk, fun m k hk => ?_⟩
  by_cases hm : m = regHome w n
  · subst hm; simpa using r.put_home_getLsbD w n v hk
  · rw [r.get32_put_other w v hm, if_neg fun h => hm h.1]

end Sys2Proof.Machine
end

section
/-! The flags of a result and of a subtraction, as numbers (R17, R18). -/

namespace Sys2Proof.Machine

theorem parity8_eq_parityEven {n : Nat} (r : BitVec n) : parity8 r = Spec.parityEven r.toNat := by
  have hlow : List.range 8 = [0, 1, 2, 3, 4, 5, 6, 7] := rfl
  simp only [parity8, Spec.parityEven, hlow, List.countP_cons, List.countP_nil, BitVec.testBit_toNat,
    Bool.toNat, Nat.zero_add, Bool.cond_eq_ite]
  ac_rfl

theorem eq_zero_eq_decide {n : Nat} (r : BitVec n) : (r == 0#n) = decide (r.toNat = 0) := by
  rw [Bool.eq_iff_iff, beq_iff_eq, decide_eq_true_iff, ← BitVec.toNat_inj, BitVec.toNat_zero]

/-- SetSZP is that of R17 on the number. -/
theorem Flags.setSZP_eq_szp (w : Width) (f : Flags) (r : BitVec w.bits) : f.setSZP r = Spec.szp w r.toNat f := by
  rw [Flags.setSZP, Spec.szp, Nat.mod_eq_of_lt r.isLt, BitVec.msb_eq_decide, eq_zero_eq_decide,
    parity8_eq_parityEven]

/-- Settles O22: each of the three flags is read off the result's number, and the record update names no other. -/
theorem resultFlags : Obligations.ResultFlags := Flags.setSZP_eq_szp

/-- The subtraction is that of the unbounded integers, reduced mod 2^n. -/
theorem subResult_eq_ofInt {n : Nat} (a b : BitVec n) (c : Bool) :
    subResult a b c = BitVec.ofInt n ((a.toNat : Int) - b.toNat - c.toNat) := by
  refine (BitVec.eq_sub_iff_add_eq.2 (BitVec.eq_sub_iff_add_eq.2 ?_)).symm
  calc BitVec.ofInt n ((a.toNat : Int) - b.toNat - c.toNat) + BitVec.ofNat n c.toNat + b
      = BitVec.ofInt n ((a.toNat : Int) - b.toNat - c.toNat + c.toNat + b.toNat) := by
        simp only [BitVec.ofInt_add, BitVec.ofInt_natCast, BitVec.ofNat_toNat, BitVec.setWidth_eq]
    _ = BitVec.ofInt n a.toNat := by congr 1; ring
    _ = a := by rw [BitVec.ofInt_natCast, BitVec.ofNat_toNat, BitVec.setWidth_eq]

/-- The balance of a subtraction: 2^n is borrowed exactly where the minuend is too small (R18's CF). -/
theorem subResult_balance {n : Nat} (a b : BitVec n) (c : Bool) :
    (subResult a b c).toNat + b.toNat + c.toNat =
      a.toNat + if a.toNat < b.toNat + c.toNat then 2 ^ n else 0 := by
  have ha := a.isLt
  have hb := b.isLt
  have hc := c.toNat_le
  rw [subResult_eq_ofInt, BitVec.toNat_ofInt]
  generalize 2 ^ n = M at *
  split
  · rw [← Int.add_emod_right, Int.emod_eq_of_lt (by omega) (by omega)]; omega
  · rw [Int.emod_eq_of_lt (by omega) (by omega)]; omega

theorem getLsbD_four {n : Nat} (x : BitVec n) : x.getLsbD 4 = decide (x.toNat / 16 % 2 = 1) := by
  rw [← BitVec.testBit_toNat, Nat.testBit_eq_decide_div_mod_eq]

/-- The parity of a sum is the exclusive or of the parities. -/
theorem decide_odd_xor (x y : Nat) :
    (decide (x % 2 = 1) ^^ decide (y % 2 = 1)) = decide ((x + y) % 2 = 1) := by
  rcases Nat.mod_two_eq_zero_or_one x with hx | hx <;> rcases Nat.mod_two_eq_zero_or_one y with hy | hy <;>
    simp [Nat.add_mod, hx, hy]

/-- Bit 4 of `a ^ b ^ (a - b - c)` is the borrow out of bit 3 (R18's AF). -/
theorem subResult_auxiliary {n : Nat} (hn : 5 ≤ n) (a b : BitVec n) (c : Bool) :
    (a ^^^ b ^^^ subResult a b c).getLsbD 4 = decide (a.toNat % 16 < b.toNat % 16 + c.toNat) := by
  have hbal := subResult_balance a b c
  have hc := c.toNat_le
  obtain ⟨m, rfl⟩ := Nat.exists_eq_add_of_le hn
  rw [Nat.pow_add] at hbal
  simp only [BitVec.getLsbD_xor]
  simp only [getLsbD_four, decide_odd_xor, decide_eq_decide]
  split at hbal <;> omega

/-- The two halves of the signed range. -/
theorem toInt_cases {m : Nat} (x : BitVec (m + 1)) :
    (x.toNat < 2 ^ m ∧ x.toInt = x.toNat) ∨
      (2 ^ m ≤ x.toNat ∧ x.toInt = (x.toNat : Int) - (2 * 2 ^ m : Nat)) := by
  rw [BitVec.toInt_eq_toNat_cond, Nat.pow_succ']
  split <;> omega

/-- The signs of `a`, `b` and `a - b - c` tell whether the signed difference leaves its range (R18's OF). -/
theorem subResult_overflow {n : Nat} (hn : 1 ≤ n) (a b : BitVec n) (c : Bool) :
    ((a ^^^ b) &&& (a ^^^ subResult a b c)).msb =
      decide (a.toInt - b.toInt - c.toNat < -(2 : Int) ^ (n - 1)
        ∨ (2 : Int) ^ (n - 1) ≤ a.toInt - b.toInt - c.toNat) := by
  obtain ⟨m, rfl⟩ := Nat.exists_eq_add_of_le' hn
  have hbal := subResult_balance a b c
  have hr := (subResult a b c).isLt
  have hc := c.toNat_le
  have ha := toInt_cases a
  have hb := toInt_cases b
  have hspan : (2 : Int) ^ m = (2 ^ m : Nat) := by norm_cast
  rw [Nat.pow_succ'] at hbal hr
  rw [Bool.eq_iff_iff, BitVec.msb_and, BitVec.msb_xor, BitVec.msb_xor]
  simp only [BitVec.msb_eq_decide, Bool.and_eq_true, bne_iff_ne, ne_eq, decide_eq_decide, decide_eq_true_iff,
    Nat.add_sub_cancel, hspan]
  split at hbal <;> omega

/-- SubFlags is that of R18 on unbounded numbers. -/
theorem Flags.setSub_eq_subFlags (w : Width) (f : Flags) (a b : BitVec w.bits) (c : Bool) :
    f.setSub a b c = Spec.subFlags a b c.toNat f := by
  have hbits : 5 ≤ w.bits := by cases w <;> decide
  rw [Flags.setSub, Spec.subFlags, subResult_auxiliary hbits, subResult_overflow (by omega), Flags.setSZP_eq_szp,
    subResult_eq_ofInt, Spec.subValue]

/-- Settles O23: CF, OF and AF all follow from the balance `r + b + c = a`, plus 2^N where there is a borrow. -/
theorem subtractionFlags : Obligations.SubtractionFlags :=
  fun w f a b c => ⟨subResult_eq_ofInt a b c, f.setSub_eq_subFlags w a b c⟩

end Sys2Proof.Machine
end

section
/-! The checks of an operand's access: the segment check, then one translation per byte (R42, R47 to R56). -/

namespace Sys2Proof.Machine

/-- The exception of a check result is that of the operand. -/
theorem State.operandAddrs_of_segExc {s : State} {seg : SegName} {off n : Nat} {k : Access} {x : Exc}
    (h : segExc s.mode seg (segCheck s.mode (s.segs.get seg) off n k) = some x) :
    s.operandAddrs seg off n k = .error (.exc x) := by
  simp only [State.operandAddrs, h]

/-- Behind a segment check that passes, the translation is the whole answer. -/
theorem State.operandAddrs_of_segExc_none {s : State} {seg : SegName} {off n : Nat} {k : Access}
    (h : segExc s.mode seg (segCheck s.mode (s.segs.get seg) off n k) = none) :
    s.operandAddrs seg off n k = s.xlateBytes seg off k n := by
  simp only [State.operandAddrs, h]

theorem segCheck_of_ne_prot {m : Mode} (hm : m ≠ .prot) (r : SegReg) (off n : Nat) (k : Access) :
    segCheck m r off n k = if off + n - 1 > 0xFFFF then .illegal else .ok := by
  cases m with
  | real => rfl
  | v86 => rfl
  | prot => exact absurd rfl hm

theorem segExc_illegal_of_ne_prot {m : Mode} (hm : m ≠ .prot) (seg : SegName) :
    segExc m seg .illegal = some .int13 := by
  cases m with
  | real => rfl
  | v86 => rfl
  | prot => exact absurd rfl hm

/-- Settles O14: the check looks at the last offset, and the page checks behind it raise page faults only. -/
theorem realModeOffsetTest : Obligations.RealModeOffsetTest := by
  intro s seg off n k hm hn
  have hcheck := segCheck_of_ne_prot hm (s.segs.get seg) off n k
  by_cases hlast : off + n - 1 > 0xFFFF
  · rw [if_pos hlast] at hcheck
    have hexc := State.operandAddrs_of_segExc (hcheck ▸ segExc_illegal_of_ne_prot hm seg)
    exact iff_of_true hexc ⟨n - 1, by omega, by omega⟩
  · rw [if_neg hlast] at hcheck
    rw [State.operandAddrs_of_segExc_none (segExc_none.2 hcheck)]
    refine iff_of_false (fun h => ?_) fun ⟨j, hj, hoff⟩ => hlast (by omega)
    obtain ⟨c, hc⟩ := State.xlateBytes_error h
    cases hc

/-- What an operand answers in Protected Mode behind each result of its segment check (R49). -/
def State.afterSegCheck (s : State) (seg : SegName) (off n : Nat) (k : Access) : SegResult → Res (List Nat)
  | .ok => s.xlateBytes seg off k n
  | .illegal => .error (.exc (if seg = .ss then .ss0 else .gp0))
  | .nonWritable => .error (.exc .gp0)

theorem State.operandAddrs_of_segCheck {s : State} (hm : s.mode = .prot) {seg : SegName} {off n : Nat}
    {k : Access} {r : SegResult} (hr : segCheck s.mode (s.segs.get seg) off n k = r) :
    s.operandAddrs seg off n k = s.afterSegCheck seg off n k r := by
  cases r with
  | ok => exact State.operandAddrs_of_segExc_none (by rw [hr]; rfl)
  | nonWritable => exact State.operandAddrs_of_segExc (by rw [hr]; rfl)
  | illegal =>
    refine State.operandAddrs_of_segExc ?_
    rw [hr, hm]
    by_cases h : seg = .ss <;> simp [segExc, h]

/-- A rule of the launch decides (log entry 6). -/
theorem State.operandAddrs_of_ruled {s : State} (hm : s.mode = .prot) {seg : SegName} {off n : Nat} {k : Access}
    {r : SegResult} (hr : (s.segs.get seg).ruled off n k = some r) :
    s.operandAddrs seg off n k = s.afterSegCheck seg off n k r :=
  State.operandAddrs_of_segCheck hm (by simp [segCheck, hm, hr])

/-- Where no rule is about the access, R50 decides. -/
theorem State.operandAddrs_of_default {s : State} (hm : s.mode = .prot) {seg : SegName} {off n : Nat}
    {k : Access} (hnone : (s.segs.get seg).ruled off n k = none) {r : SegResult}
    (hr : (s.segs.get seg).defaultCheck off n k = r) :
    s.operandAddrs seg off n k = s.afterSegCheck seg off n k r :=
  State.operandAddrs_of_segCheck hm (by simp [segCheck, hm, hnone, hr])

/-- A segment whose access rights let the access pass is checked against its limit (R50). -/
theorem SegReg.defaultCheck_of_allowed {r : SegReg} {k : Access} (off n : Nat) (hu : r.kind ≠ .unusable)
    (hread : k = .read → r.kind.readable = true) (hwrite : k = .write → r.kind.writable = true) :
    r.defaultCheck off n k = if r.inLimit off n then .ok else .illegal := by
  cases k with
  | read => simp [SegReg.defaultCheck, hu, hread rfl]
  | write => simp [SegReg.defaultCheck, hu, hwrite rfl]

/-- The limit line of an expand-up segment; a limit is a 32-bit number, so R51 adds nothing to it. -/
theorem SegReg.inLimit_up {r : SegReg} {off n : Nat} (hn : 0 < n) (hk : ∀ w b, r.kind ≠ .data w true b) :
    r.inLimit off n = decide (off + (n - 1) ≤ r.limit.toNat) := by
  have hlimit := r.limit.isLt
  have hform : r.inLimit off n = decide (off + n - 1 ≤ r.limit.toNat ∧ off + n - 1 < 2 ^ 32) := by
    unfold SegReg.inLimit
    split
    · next w b h => exact absurd h (hk w b)
    · rfl
  rw [hform, decide_eq_decide]
  omega

/-- The limit line of an expand-down segment. -/
theorem SegReg.inLimit_down {r : SegReg} {off n : Nat} {w b : Bool} (hn : 0 < n) (hk : r.kind = .data w true b) :
    r.inLimit off n =
      decide (r.limit.toNat < off ∧ off + (n - 1) ≤ (if b then 0xFFFFFFFF else 0xFFFF)) := by
  simp only [SegReg.inLimit, hk, Nat.add_sub_assoc hn]

/-- Settles O15: a rule's answer or the default's is turned into the exception of R49; the default's answer is
read off the lines of R50 for each kind of segment. -/
theorem protectedModeSegmentTest : Obligations.ProtectedModeSegmentTest := by
  intro s seg off n k hm hn illegal g
  refine ⟨fun r hr => ?_, fun hnone => ?_⟩
  · obtain ⟨hwrite, hend⟩ := SegReg.ruled_eq_some hr
    refine ⟨?_, hwrite, hend⟩
    rw [State.operandAddrs_of_ruled hm hr]
    cases r <;> rfl
  · have hdefault : ∀ {r}, g.defaultCheck off n k = r →
        s.operandAddrs seg off n k = s.afterSegCheck seg off n k r :=
      State.operandAddrs_of_default hm hnone
    have hup : g.kind ≠ .unusable → (k = .read → g.kind.readable = true) →
        (k = .write → g.kind.writable = true) → (∀ w b, g.kind ≠ .data w true b) →
        s.operandAddrs seg off n k =
          if off + (n - 1) ≤ g.limit.toNat then s.xlateBytes seg off k n else .error illegal := by
      intro hu hread hwrite hk
      rw [hdefault (SegReg.defaultCheck_of_allowed off n hu hread hwrite), SegReg.inLimit_up hn hk]
      by_cases h : off + (n - 1) ≤ g.limit.toNat <;> simp [h, illegal, State.afterSegCheck]
    refine ⟨fun hk => ?_, fun hk hread => ?_, fun b hk hwrite => ?_, fun e b hk hwrite => ?_,
      fun w b hk hwrite => ?_, fun w b hk hwrite => ?_, fun hk hread => ?_⟩
    · exact hdefault (r := .illegal) (by simp [SegReg.defaultCheck, hk])
    · exact hdefault (r := .illegal) (by simp [SegReg.defaultCheck, hk, hread, SegKind.readable])
    · exact hdefault (r := .nonWritable) (by simp [SegReg.defaultCheck, hk, hwrite, SegKind.writable])
    · exact hdefault (r := .nonWritable) (by simp [SegReg.defaultCheck, hk, hwrite, SegKind.writable])
    · exact hup (by simp [hk]) (by simp [hk, SegKind.readable]) (by simpa [hk, SegKind.writable] using hwrite)
        (by simp [hk])
    · rw [hdefault (SegReg.defaultCheck_of_allowed off n (by simp [hk]) (by simp [hk, SegKind.readable])
        (by simpa [hk, SegKind.writable] using hwrite)), SegReg.inLimit_down hn hk]
      by_cases h : g.limit.toNat < off ∧ off + (n - 1) ≤ (if b then 0xFFFFFFFF else 0xFFFF) <;>
        simp [h, illegal, State.afterSegCheck]
    · exact hup (by simp [hk]) (by simp [hk, SegKind.readable]) (by simp [hread]) (by simp [hk])

/-- The linear address is (base + offset) mod 2^32 (R47). -/
theorem SegReg.linear_eq_ofNat (r : SegReg) (off : Nat) :
    r.linear off = BitVec.ofNat 32 ((r.base.toNat + off) % 4294967296) := by
  apply BitVec.eq_of_toNat_eq
  simp [SegReg.linear]

/-- Of several faulting bytes the one at the lowest offset decides (R229). -/
theorem State.xlateBytes_of_first_fault {s : State} {seg : SegName} {k : Access} {e : Stop} {off n j : Nat}
    (hj : j < n) (hbefore : ∀ i, i < j → ∃ a, s.xlateByte seg (off + i) k = .ok a)
    (hfault : s.xlateByte seg (off + j) k = .error e) : s.xlateBytes seg off k n = .error e := by
  induction n generalizing off j with
  | zero => omega
  | succ n ih =>
    cases j with
    | zero => rw [Nat.add_zero] at hfault; simp only [State.xlateBytes, hfault, Res.error_bind]
    | succ j =>
      obtain ⟨a, ha⟩ := hbefore 0 (by omega)
      have hrest : s.xlateBytes seg (off + 1) k n = .error e := by
        refine ih (j := j) (by omega) (fun i hi => ?_) (by rwa [Nat.add_assoc, Nat.add_comm 1])
        simpa only [Nat.add_assoc, Nat.add_comm 1] using hbefore (i + 1) (by omega)
      rw [Nat.add_zero] at ha
      simp only [State.xlateBytes, ha, hrest, Res.ok_bind, Res.error_bind]

/-- Settles O16: behind the segment check the bytes are translated from the lowest on, each at its linear
address. -/
theorem pageFaultOfLowestByte : Obligations.PageFaultOfLowestByte := by
  intro s seg off n k hseg lin
  have hlin : ∀ j, (s.segs.get seg).linear (off + j) = lin j := fun j => SegReg.linear_eq_ofNat _ _
  have hphys : ∀ {j a}, s.pageXlate (lin j) k = .phys a → s.xlateByte seg (off + j) k = .ok a.toNat := by
    intro j a h
    simp only [State.xlateByte, hlin, h]
  rw [State.operandAddrs_of_segExc_none hseg]
  refine ⟨fun j hj hbefore code hcode => ?_, fun p hp => ?_⟩
  · refine State.xlateBytes_of_first_fault hj (fun i hi => ?_) ?_
    · obtain ⟨a, ha⟩ := hbefore i hi
      exact ⟨_, hphys ha⟩
    · simp only [State.xlateByte, hlin, hcode]
  · refine State.xlateBytes_eq_ok.2 ⟨by simp, fun i hi => ?_⟩
    simpa using hphys (hp i (by simpa using hi))

end Sys2Proof.Machine
end

section
/-! Bytes and numbers, loads after stores, and memory as data (R44, R45, R58). -/

namespace Sys2Proof.Machine

/-- Bytes read as a number have weights 2^(8k) (R45). -/
theorem leNat_eq_sum (bs : List Byte) : leNat bs = ∑ k : Fin bs.length, bs[k].toNat * 2 ^ (8 * k.val) := by
  induction bs with
  | nil => rfl
  | cons b bs ih =>
    have hshift : 256 * leNat bs = ∑ k : Fin bs.length, bs[k].toNat * 2 ^ (8 * (k.val + 1)) := by
      rw [ih, Finset.mul_sum]
      refine Finset.sum_congr rfl fun k _ => ?_
      rw [Nat.mul_add, Nat.pow_add]
      ring
    calc leNat (b :: bs) = b.toNat + 256 * leNat bs := rfl
      _ = b.toNat + ∑ k : Fin bs.length, bs[k].toNat * 2 ^ (8 * (k.val + 1)) := by rw [hshift]
      _ = _ := by simp [Fin.sum_univ_succ]

/-- Settles O17: a store writes the digits of its number to base 256, and reads and the decoder assemble
them again. -/
theorem littleEndian : Obligations.LittleEndian := by
  refine ⟨fun s as v k h hn => ?_, fun s as v a ha => ?_, fun s w seg off as bs ha hb => ?_,
    fun b0 b1 rest => ⟨_, rfl, ?_⟩, fun b0 b1 b2 b3 rest => ⟨_, rfl, ?_⟩⟩
  · rw [← numBytes_getElem as.length v k (by simpa using h)]
    exact s.mem.read_writeBytes_same hn (by simp) k h
  · exact s.mem.read_writeBytes_other as _ ha
  · exact State.readSeg_eq_ok.2 ⟨as, bs, ha, hb, by rw [leNat_eq_sum]⟩
  · have h := append_byte_toNat b1 b0
    omega
  · have h1 := append_byte_toNat (b3 ++ b2 ++ b1) b0
    have h2 := append_byte_toNat (b3 ++ b2) b1
    have h3 := append_byte_toNat b3 b2
    omega

@[simp] theorem Width.eight_mul_bytes (w : Width) : 8 * w.bytes = w.bits := by cases w <;> rfl

/-- Allocated bytes read back as a store at distinct addresses wrote them. -/
theorem State.readAddrs_storeAt {s : State} {as : List Nat} (v : Nat) (hn : as.Nodup)
    (halloc : ∀ a ∈ as, inRanges s.allocated a = true) :
    (s.storeAt as v).readAddrs as = .ok (numBytes as.length v) := by
  refine State.readAddrs_eq_ok.2 ⟨by simp, fun i hi => State.readPhys_eq_ok.2 ⟨?_, ?_⟩⟩
  · exact halloc _ (List.getElem_mem hi)
  · exact s.mem.read_writeBytes_same hn (by simp) i hi

/-- No check of an access looks at memory. -/
theorem State.operandAddrs_storeAt {s : State} (bs : List Nat) (v : Nat) {seg : SegName} {off n : Nat}
    {k : Access} {as : List Nat} (h : s.operandAddrs seg off n k = .ok as) :
    (s.storeAt bs v).operandAddrs seg off n k = .ok as := by
  obtain ⟨hseg, hxlate⟩ := State.operandAddrs_eq_ok.1 h
  obtain ⟨hlen, hbyte⟩ := State.xlateBytes_eq_ok.1 hxlate
  exact State.operandAddrs_eq_ok.2 ⟨hseg, State.xlateBytes_eq_ok.2 ⟨hlen, hbyte⟩⟩

/-- Settles O18: a store changes no check, its bytes read back, and they make the number stored. -/
theorem loadReturnsLastStore : Obligations.LoadReturnsLastStore := by
  intro s w seg off as v hstore hread hn
  obtain ⟨hwrite, hfree⟩ := State.storeAddrs_eq_ok.1 hstore
  have hbytes := State.readAddrs_storeAt v.toNat hn fun a ha => (hfree a ha).2
  refine State.readSeg_eq_ok.2 ⟨as, _, State.operandAddrs_storeAt as _ hread, hbytes, BitVec.eq_of_toNat_eq ?_⟩
  rw [leNat_numBytes, State.operandAddrs_length hread, Width.eight_mul_bytes, BitVec.toNat_ofNat, Nat.mod_mod,
    Nat.mod_eq_of_lt v.isLt]

/-- In a rising list the entry of an address is the one that is found. -/
theorem findCell_eq_some_iff {m : List Host.Cell} (hm : m.Pairwise fun x y => x.1 < y.1) {a : Nat} {b : Byte} :
    findCell m a = some b ↔ (a, b) ∈ m := by
  induction m with
  | nil => simp [findCell]
  | cons c t ih =>
    obtain ⟨k, v⟩ := c
    obtain ⟨hlt, ht⟩ := List.pairwise_cons.1 hm
    rw [findCell, List.mem_cons, Prod.mk.injEq, ← ih ht]
    split
    · next hk =>
      subst hk
      have hnot : findCell t k ≠ some b := fun h => lt_irrefl k (hlt _ ((ih ht).1 h))
      simp [hnot, eq_comm]
    · next hk => simp [Ne.symm hk]

/-- The entries of a canonical memory are the bytes that read other than the fill. -/
theorem Memory.mem_cells_iff {m : Memory} (hm : m.wf) {c : Host.Cell} :
    c ∈ m.cells ↔ m.read c.1 = some c.2 ∧ m.fill ≠ some c.2 := by
  obtain ⟨hsorted, hfill, -⟩ := hm
  obtain ⟨a, b⟩ := c
  rw [← findCell_eq_some_iff hsorted, Memory.read, Memory.unlisted]
  cases hf : findCell m.cells a with
  | none => simp
  | some b' =>
    have hne := hfill _ ((findCell_eq_some_iff hsorted).1 hf)
    simp only [Option.some.injEq, iff_self_and]
    rintro rfl
    exact hne

/-- Settles O19: what is read decides which entries there are, and a rising list is decided by its entries. -/
theorem canonicalMemoryIsItsBytes : Obligations.CanonicalMemoryIsItsBytes := by
  intro m m' hm hm' hfill hread
  have hnodup : ∀ {l : List Host.Cell}, (l.Pairwise fun x y => x.1 < y.1) → l.Nodup := fun hl =>
    hl.imp fun hlt heq => (congrArg Prod.fst heq).not_lt hlt
  have hmem : ∀ c, c ∈ m.cells ↔ c ∈ m'.cells := fun c => by
    rw [Memory.mem_cells_iff hm, Memory.mem_cells_iff hm', hread, hfill]
  have hperm := (List.perm_ext_iff_of_nodup (hnodup hm.1) (hnodup hm'.1)).2 hmem
  have hcells := hperm.eq_of_pairwise (fun x y _ _ hxy hyx => absurd hyx hxy.asymm) hm.1 hm'.1
  cases m
  cases m'
  exact congrArg₂ Memory.mk hcells hfill

end Sys2Proof.Machine
end

section
/-! The accesses of a memory operand in their order (R54 to R56): every row that has one begins with the same
sequence of checks, read and store check, and what stops there stops the instruction. -/

namespace Sys2Proof.Machine

/-- The bytes a checked read of `n` bytes finds (R54). -/
def State.readBytes (s : State) (seg : SegName) (off n : Nat) : Res (List Byte) := do
  let as ← s.operandAddrs seg off n .read
  s.readAddrs as

theorem State.readBytes_eq_error {s : State} {seg : SegName} {off n : Nat} {e : Stop} :
    s.readBytes seg off n = .error e ↔
      s.operandAddrs seg off n .read = .error e
        ∨ ∃ as, s.operandAddrs seg off n .read = .ok as ∧ s.readAddrs as = .error e :=
  Res.bind_eq_error

/-- The operation begins with `x`: it runs `x` first and goes on from what `x` answers. -/
def Res.BeginsWith {α β : Type} (y : Res β) (x : Res α) : Prop := ∃ g, y = x >>= g

theorem Res.bind_beginsWith {α β : Type} (x : Res α) (g : α → Res β) : (x >>= g).BeginsWith x := ⟨g, rfl⟩

theorem Res.BeginsWith.trans {α β γ : Type} {z : Res γ} {y : Res β} {x : Res α} (hzy : z.BeginsWith y)
    (hyx : y.BeginsWith x) : z.BeginsWith x := by
  obtain ⟨g, rfl⟩ := hzy
  obtain ⟨f, rfl⟩ := hyx
  exact ⟨_, bind_assoc x f g⟩

/-- What stops the beginning stops the operation. -/
theorem Res.BeginsWith.error {α β : Type} {y : Res β} {x : Res α} (h : y.BeginsWith x) {e : Stop}
    (hx : x = .error e) : y = .error e := by
  obtain ⟨g, rfl⟩ := h
  rw [hx, Res.error_bind]

/-! ### The stages of a memory operand -/

theorem State.readSeg_beginsWith (s : State) (w : Width) (seg : SegName) (off : Nat) :
    (s.readSeg w seg off).BeginsWith (s.readBytes seg off w.bytes) :=
  ⟨fun bs => .ok (BitVec.ofNat w.bits (leNat bs)), (bind_assoc _ _ _).symm⟩

theorem State.readSeg_of_readBytes {s : State} {w : Width} {seg : SegName} {off : Nat} {bs : List Byte}
    (h : s.readBytes seg off w.bytes = .ok bs) :
    s.readSeg w seg off = .ok (BitVec.ofNat w.bits (leNat bs)) := by
  obtain ⟨as, has, hbs⟩ := Res.bind_eq_ok.1 h
  exact State.readSeg_eq_ok.2 ⟨as, bs, has, hbs, rfl⟩

theorem State.rmPlace_mem_beginsWith (s : State) (w : Width) (m : MemOp) :
    (s.rmPlace w (.mem m)).BeginsWith (s.storeAddrs (memSegment m) (memOffset s m) w.bytes) :=
  Res.bind_beginsWith _ _

/-- The operation on an r/m operand that is read before it is written: the write check, the read, the checks of
the store, and then `k` (R56, R57). -/
def State.modifyRM (s : State) (w : Width) (rm : RM) (k : BitVec w.bits → Place → Res State) : Res State := do
  s.checkWriteRM w rm
  let v ← s.readRM w rm
  let pl ← s.rmPlace w rm
  k v pl

theorem State.modifyRM_of_check_error {s : State} {w : Width} {m : MemOp} {e : Stop}
    (h : s.operandAddrs (memSegment m) (memOffset s m) w.bytes .write = .error e)
    (k : BitVec w.bits → Place → Res State) : s.modifyRM w (.mem m) k = .error e := by
  have hcheck : s.checkWriteRM w (.mem m) = .error e := State.checkWrite_eq_error.2 h
  rw [State.modifyRM, hcheck, Res.error_bind]

section
variable {s : State} {w : Width} {m : MemOp} {as : List Nat} {e : Stop}
  (hwrite : s.operandAddrs (memSegment m) (memOffset s m) w.bytes .write = .ok as)
include hwrite

theorem State.modifyRM_of_read_error (h : s.readBytes (memSegment m) (memOffset s m) w.bytes = .error e)
    (k : BitVec w.bits → Place → Res State) : s.modifyRM w (.mem m) k = .error e := by
  have hcheck : s.checkWriteRM w (.mem m) = .ok () := State.checkWrite_eq_ok.2 ⟨as, hwrite⟩
  have hread : s.readRM w (.mem m) = .error e := (s.readSeg_beginsWith w _ _).error h
  rw [State.modifyRM, hcheck, Res.ok_bind, hread, Res.error_bind]

theorem State.modifyRM_of_store_error {bs : List Byte}
    (hbytes : s.readBytes (memSegment m) (memOffset s m) w.bytes = .ok bs)
    (h : s.storeAddrs (memSegment m) (memOffset s m) w.bytes = .error e)
    (k : BitVec w.bits → Place → Res State) : s.modifyRM w (.mem m) k = .error e := by
  have hcheck : s.checkWriteRM w (.mem m) = .ok () := State.checkWrite_eq_ok.2 ⟨as, hwrite⟩
  have hread : s.readRM w (.mem m) = .ok _ := State.readSeg_of_readBytes hbytes
  have hplace : s.rmPlace w (.mem m) = .error e := (s.rmPlace_mem_beginsWith w m).error h
  rw [State.modifyRM, hcheck, Res.ok_bind, hread, Res.ok_bind, hplace, Res.error_bind]

end

/-- A store stops where its operand is translated. -/
theorem State.storeAddrs_of_operandAddrs_error {s : State} {seg : SegName} {off n : Nat} {e : Stop}
    (h : s.operandAddrs seg off n .write = .error e) : s.storeAddrs seg off n = .error e := by
  rw [State.storeAddrs, h, Res.error_bind]

/-- Behind its checks a store stops where CodeRegion or missing memory stops it (R44, R61). -/
theorem State.storeAddrs_of_checkStore_error {s : State} {seg : SegName} {off n : Nat} {as : List Nat} {e : Stop}
    (has : s.operandAddrs seg off n .write = .ok as) (h : s.checkStore as = .error e) :
    s.storeAddrs seg off n = .error e := by
  rw [State.storeAddrs, has, Res.ok_bind, h, Res.error_bind]

/-- A write check before a place is looked up is the first check of that place (R55, R56). -/
theorem State.checkWriteRM_bind_rmPlace (s : State) (w : Width) (rm : RM) :
    (s.checkWriteRM w rm >>= fun _ => s.rmPlace w rm) = s.rmPlace w rm := by
  cases rm with
  | reg n => rfl
  | mem m =>
    simp only [State.checkWriteRM, State.checkWrite, State.rmPlace, State.storeAddrs]
    cases s.operandAddrs (memSegment m) (memOffset s m) w.bytes .write <;> rfl

/-! ### The rows that look at a condition first -/

/-- The repeat count is CX or ECX as a number (R147, R204). -/
theorem State.repCount_toNat (s : State) (a : Size) : (s.repCount a).toNat = Spec.countOf a s.regs := by
  cases a with
  | s16 => exact (BitVec.extractLsb'_toNat 0 16 _).trans (by simp [Spec.countOf, Regs.get32])
  | s32 => rfl

theorem State.repCount_eq_zero_iff {s : State} {a : Size} : s.repCount a = 0 ↔ Spec.countOf a s.regs = 0 := by
  rw [← State.repCount_toNat, ← BitVec.toNat_inj]
  rfl

/-- STOS with work to do begins with its store. -/
theorem stos_beginsWith {w : Width} {a : Size} {rep : Bool} {len : Nat} {s : State}
    (h : ¬ (rep = true ∧ Spec.countOf a s.regs = 0)) :
    (stos w a rep len s).BeginsWith (stosBody w a s) := by
  rw [← State.repCount_eq_zero_iff] at h
  cases rep with
  | false => exact ⟨_, rfl⟩
  | true => exact ⟨_, if_neg fun h0 => h ⟨rfl, h0⟩⟩

/-- SCAS with work to do begins with its comparison. -/
theorem scas_beginsWith {w : Width} {a : Size} {rep : Option RepCond} {len : Nat} {s : State}
    (h : ¬ (rep.isSome = true ∧ Spec.countOf a s.regs = 0)) :
    (scas w a rep len s).BeginsWith (scasBody w a s) := by
  rw [← State.repCount_eq_zero_iff] at h
  cases rep with
  | none => exact ⟨_, rfl⟩
  | some k => exact ⟨_, if_neg fun h0 => h ⟨rfl, h0⟩⟩

section
variable {op : DShiftOp} {w : Width} {src : CountSrc} {rm : RM} {r : RegNo} {len : Nat} {s : State}

/-- By a count above 0 and below the operand size a double shift reads the operand it writes (R179, R182). -/
theorem dshiftRM_eq_modifyRM (hzero : src.count s ≠ 0) (hless : src.count s < w.bits) :
    ∃ k, dshiftRM op w src rm r len s = s.modifyRM w rm k :=
  ⟨_, congrArg (s.checkWriteRM w rm >>= ·)
    (funext fun _ => (if_neg hzero).trans (if_neg (Nat.not_le.2 hless)))⟩

/-- By a count from the operand size on it does not (R181). -/
theorem dshiftRM_beginsWith_rmPlace (hzero : src.count s ≠ 0) (hmore : w.bits ≤ src.count s) :
    (dshiftRM op w src rm r len s).BeginsWith (s.rmPlace w rm) := by
  rw [← State.checkWriteRM_bind_rmPlace]
  exact ⟨_, (congrArg (s.checkWriteRM w rm >>= ·)
    (funext fun _ => (if_neg hzero).trans (if_pos hmore))).trans (bind_assoc _ _ _).symm⟩

end

/-- Where the instruction is recognized, the system word is stored. -/
theorem storeWordName_recognized {v : Spec.WordName} {s : State} (h : v = .msw ∨ s.mode = .prot) (rm : RM)
    (len : Nat) : storeWordName v rm len s = storeWord16 (Spec.wordValue s v) rm len s := by
  cases v with
  | ldtr => exact if_pos (h.resolve_left nofun)
  | tr => exact if_pos (h.resolve_left nofun)
  | msw =>
    have hmsw : s.msw = Spec.wordValue s .msw := by
      apply BitVec.eq_of_toNat_eq
      simp [State.msw, Spec.wordValue]
    rw [← hmsw]
    rfl

/-! ### The access of every row -/

/-- A row that only reads its memory operand begins with the read. -/
theorem runRow_of_checked_read (len : Nat) {s : State} {r : Spec.Row} {seg : SegName} {off n : Nat}
    (hc : Spec.checked s r = some (.read, seg, off, n)) :
    ∃ y : Res State, runRow len s r = settle s y ∧ y.BeginsWith (s.readBytes seg off n) := by
  cases r with
  | subFromRM w c r rm =>
    cases rm with
    | reg n => cases hc
    | mem m =>
      cases hc
      exact ⟨_, rfl, (Res.bind_beginsWith _ _).trans (s.readSeg_beginsWith w _ _)⟩
  | scas w p rep =>
    simp only [Spec.checked] at hc
    split at hc
    · cases hc
    · next hcount =>
      cases hc
      exact ⟨_, rfl, ((scas_beginsWith hcount).trans (Res.bind_beginsWith _ _)).trans
        (s.readSeg_beginsWith w _ _)⟩
  | shift _ _ _ rm | subToRM _ _ rm _ | setcc _ rm | table _ _ rm | dshift _ _ _ rm _ => cases rm <;> cases hc
  | word v rm => cases rm <;> simp [Spec.checked] at hc
  | stos w p rep => simp [Spec.checked] at hc
  | sahf | stc | std | sti | subAcc => cases hc

/-- The rows that read the memory operand they write: shifts, subtractions and double shifts. -/
theorem runRow_of_readsBack (len : Nat) {s : State} {r : Spec.Row} {seg : SegName} {off n : Nat}
    (hc : Spec.checked s r = some (.write, seg, off, n)) (hb : Spec.readsBack s r = true) :
    ∃ w m k, seg = memSegment m ∧ off = memOffset s m ∧ n = Width.bytes w
      ∧ runRow len s r = settle s (s.modifyRM w (.mem m) k) := by
  cases r with
  | shift op w src rm =>
    cases rm with
    | reg n => cases hc
    | mem m => cases hc; exact ⟨w, m, _, rfl, rfl, rfl, rfl⟩
  | subToRM w c rm src =>
    cases rm with
    | reg n => cases hc
    | mem m => cases hc; exact ⟨w, m, _, rfl, rfl, rfl, rfl⟩
  | dshift op w src rm r =>
    cases rm with
    | reg n => cases hc
    | mem m =>
      cases hc
      obtain ⟨hzero, hless⟩ := of_decide_eq_true hb
      obtain ⟨k, hk⟩ := dshiftRM_eq_modifyRM (op := op) (rm := .mem m) (r := r) (len := len) hzero hless
      exact ⟨w, m, k, rfl, rfl, rfl, congrArg (settle s) hk⟩
  | sahf | stc | std | sti | subAcc | subFromRM | scas | stos | setcc | table | word => cases hb

/-- A row that stores to its memory operand without reading it begins with the checks of the store. -/
theorem runRow_of_stores (len : Nat) {s : State} {r : Spec.Row} {seg : SegName} {off n : Nat}
    (hc : Spec.checked s r = some (.write, seg, off, n)) (hd : Spec.dest s r ≠ none)
    (hb : Spec.readsBack s r = false) :
    ∃ y : Res State, runRow len s r = settle s y ∧ y.BeginsWith (s.storeAddrs seg off n) := by
  have hrm : ∀ (w : Width) (m : MemOp) (v : BitVec w.bits), (s.writeRM w (.mem m) v).BeginsWith
      (s.storeAddrs (memSegment m) (memOffset s m) w.bytes) := fun w m v =>
    (Res.bind_beginsWith _ _).trans (s.rmPlace_mem_beginsWith w m)
  cases r with
  | setcc c rm =>
    cases rm with
    | reg n => cases hc
    | mem m => cases hc; exact ⟨_, rfl, (Res.bind_beginsWith _ _).trans (hrm .w8 m _)⟩
  | table t p rm =>
    cases rm with
    | reg n => cases hc
    | mem m => cases hc; exact ⟨_, rfl, Res.bind_beginsWith _ _⟩
  | word v rm =>
    cases rm with
    | reg n => cases hc
    | mem m =>
      simp only [Spec.checked] at hc
      split at hc
      · next hrec =>
        cases hc
        exact ⟨_, congrArg (settle s) (storeWordName_recognized hrec _ _),
          (Res.bind_beginsWith _ _).trans (hrm .w16 m _)⟩
      · cases hc
  | stos w p rep =>
    simp only [Spec.checked] at hc
    split at hc
    · cases hc
    · next hcount =>
      cases hc
      exact ⟨_, rfl, ((stos_beginsWith hcount).trans (Res.bind_beginsWith _ _)).trans (Res.bind_beginsWith _ _)⟩
  | dshift op w src rm r =>
    cases rm with
    | reg n => cases hc
    | mem m =>
      cases hc
      have hzero : src.count s ≠ 0 := fun h => hd (if_pos h)
      have hmore : w.bits ≤ src.count s := by
        simpa [Spec.readsBack, hzero] using hb
      exact ⟨_, rfl, (dshiftRM_beginsWith_rmPlace hzero hmore).trans (s.rmPlace_mem_beginsWith w m)⟩
  | sahf | stc | std | sti | subAcc => cases hc
  | shift | subToRM => cases hb
  | subFromRM _ _ _ rm => cases rm <;> cases hc
  | scas w p rep => simp [Spec.checked] at hc

/-- SHLD and SHRD by 0 check their memory operand and store nothing (R178). -/
theorem runRow_of_no_dest (len : Nat) {s : State} {r : Spec.Row} {seg : SegName} {off n : Nat}
    (hc : Spec.checked s r = some (.write, seg, off, n)) (hd : Spec.dest s r = none) :
    ∃ y : Res State, runRow len s r = settle s y ∧ y.BeginsWith (s.checkWrite seg off n) := by
  cases r with
  | dshift op w src rm r =>
    cases rm with
    | reg n => cases hc
    | mem m => cases hc; exact ⟨_, rfl, Res.bind_beginsWith _ _⟩
  | table _ _ rm =>
    cases rm with
    | reg n => cases hc
    | mem m => cases hd
  | word v rm => cases rm <;> simp_all [Spec.checked, Spec.dest]
  | stos w p rep => simp_all [Spec.checked, Spec.dest]
  | scas w p rep => simp [Spec.checked] at hc
  | shift | subToRM | subFromRM | setcc => cases hd
  | sahf | stc | std | sti | subAcc => cases hc

/-! ### What stops an instruction at its memory operand -/

section
variable {i : Instr} {s : State} {seg : SegName} {off n : Nat} {e : Stop}

theorem exec_of_read_error (hc : Spec.checked s (Spec.row i) = some (.read, seg, off, n))
    (h : s.readBytes seg off n = .error e) : exec i s = settle s (.error e) := by
  obtain ⟨y, hrun, hbegins⟩ := runRow_of_checked_read i.length hc
  rw [exec_eq_runRow, hrun, hbegins.error h]

section
variable (hc : Spec.checked s (Spec.row i) = some (.write, seg, off, n))
include hc

theorem exec_of_writeCheck_error (h : s.operandAddrs seg off n .write = .error e) :
    exec i s = settle s (.error e) := by
  rw [exec_eq_runRow]
  cases hb : Spec.readsBack s (Spec.row i) with
  | true =>
    obtain ⟨w, m, k, rfl, rfl, rfl, hrun⟩ := runRow_of_readsBack i.length hc hb
    rw [hrun, State.modifyRM_of_check_error h]
  | false =>
    by_cases hd : Spec.dest s (Spec.row i) = none
    · obtain ⟨y, hrun, hbegins⟩ := runRow_of_no_dest i.length hc hd
      rw [hrun, hbegins.error (State.checkWrite_eq_error.2 h)]
    · obtain ⟨y, hrun, hbegins⟩ := runRow_of_stores i.length hc hd hb
      rw [hrun, hbegins.error (State.storeAddrs_of_operandAddrs_error h)]

variable {as : List Nat} (hwrite : s.operandAddrs seg off n .write = .ok as)
include hwrite

theorem exec_of_readBack_error (hb : Spec.readsBack s (Spec.row i) = true)
    (h : s.readBytes seg off n = .error e) : exec i s = settle s (.error e) := by
  obtain ⟨w, m, k, rfl, rfl, rfl, hrun⟩ := runRow_of_readsBack i.length hc hb
  rw [exec_eq_runRow, hrun, State.modifyRM_of_read_error hwrite h]

theorem exec_of_checkStore_error (hd : Spec.dest s (Spec.row i) ≠ none)
    (hread : Spec.readsBack s (Spec.row i) = true →
      ∃ rs bs, s.operandAddrs seg off n .read = .ok rs ∧ s.readAddrs rs = .ok bs)
    (h : s.checkStore as = .error e) : exec i s = settle s (.error e) := by
  have hstore := State.storeAddrs_of_checkStore_error hwrite h
  rw [exec_eq_runRow]
  cases hb : Spec.readsBack s (Spec.row i) with
  | true =>
    obtain ⟨rs, bs, hrs, hbs⟩ := hread hb
    have hbytes : s.readBytes seg off n = .ok bs := Res.bind_eq_ok.2 ⟨rs, hrs, hbs⟩
    obtain ⟨w, m, k, rfl, rfl, rfl, hrun⟩ := runRow_of_readsBack i.length hc hb
    rw [hrun, State.modifyRM_of_store_error hwrite hbytes hstore]
  | false =>
    obtain ⟨y, hrun, hbegins⟩ := runRow_of_stores i.length hc hd hb
    rw [hrun, hbegins.error hstore]

end
end

/-- Settles O51: an exception of the first check, or of the read behind a write check that passed, is what the
instruction settles to. -/
theorem operandCheckIsTaken : Obligations.OperandCheckIsTaken := by
  refine ⟨fun i s k seg off n x hc hx => ?_, fun i s seg off n as x hc hb has hx => ?_⟩
  · cases k with
    | read => exact exec_of_read_error hc (State.readBytes_eq_error.2 (.inl hx))
    | write => exact exec_of_writeCheck_error hc hx
  · exact exec_of_readBack_error hc has hb (State.readBytes_eq_error.2 (.inl hx))

/-! ### Bytes without memory or value, and bytes of the program -/

/-- A stop at the byte `a`: it holds no memory (R44), or no value (R30). -/
def Stop.atByte (s : State) (a : Nat) (e : Stop) : Prop :=
  (inRanges s.allocated a = false ∧ e = .fault (.unallocated a))
    ∨ (s.mem.read a = none ∧ e = .fault (.noValue a))

theorem stuckAt_of_atByte {s : State} {a : Nat} {e : Stop} {o : Host.Outcome State Fault Refusal}
    (ho : o = settle s (.error e)) (h : e.atByte s a) : Spec.stuckAt s o a := by
  rcases h with ⟨halloc, rfl⟩ | ⟨hvalue, rfl⟩
  · exact .inl ⟨halloc, ho⟩
  · exact .inr ⟨hvalue, ho⟩

theorem State.readPhys_stops {s : State} {a : Nat} (h : inRanges s.allocated a = false ∨ s.mem.read a = none) :
    ∃ e, s.readPhys a = .error e ∧ e.atByte s a := by
  cases halloc : inRanges s.allocated a with
  | false => exact ⟨_, by simp [State.readPhys, halloc], .inl ⟨halloc, rfl⟩⟩
  | true =>
    have hvalue : s.mem.read a = none := h.resolve_left (by simp [halloc])
    exact ⟨_, by simp [State.readPhys, halloc, hvalue], .inr ⟨hvalue, rfl⟩⟩

/-- A read of bytes one of which holds no memory or no value stops at the first such byte. -/
theorem State.readAddrs_stops {s : State} {as : List Nat}
    (h : ∃ a ∈ as, inRanges s.allocated a = false ∨ s.mem.read a = none) :
    ∃ a ∈ as, ∃ e, s.readAddrs as = .error e ∧ e.atByte s a := by
  induction as with
  | nil => simp at h
  | cons x as ih =>
    by_cases hx : inRanges s.allocated x = false ∨ s.mem.read x = none
    · obtain ⟨e, he, hat⟩ := State.readPhys_stops hx
      exact ⟨x, by simp, e, by rw [State.readAddrs, he, Res.error_bind], hat⟩
    · obtain ⟨a, ha, e, he, hat⟩ := ih (by simpa [hx] using h)
      obtain ⟨halloc, hvalue⟩ := not_or.1 hx
      obtain ⟨b, hb⟩ := Option.ne_none_iff_exists'.1 hvalue
      have hread : s.readPhys x = .ok b := State.readPhys_eq_ok.2 ⟨by simpa using halloc, hb⟩
      exact ⟨a, by simp [ha], e, by rw [State.readAddrs, hread, Res.ok_bind, he, Res.error_bind], hat⟩

/-- A checked read of such bytes stops there. -/
theorem State.readBytes_stops {s : State} {seg : SegName} {off n : Nat} {as : List Nat}
    (has : s.operandAddrs seg off n .read = .ok as)
    (h : ∃ a ∈ as, inRanges s.allocated a = false ∨ s.mem.read a = none) :
    ∃ a ∈ as, ∃ e, s.readBytes seg off n = .error e ∧ e.atByte s a := by
  obtain ⟨a, ha, e, he, hat⟩ := State.readAddrs_stops h
  exact ⟨a, ha, e, State.readBytes_eq_error.2 (.inr ⟨as, has, he⟩), hat⟩

/-- A store with a byte in CodeRegion is refused there (R61). -/
theorem State.checkStore_refused {s : State} {as : List Nat} (h : ∃ a ∈ as, inRanges s.codeRegion a = true) :
    ∃ a ∈ as, inRanges s.codeRegion a = true ∧ s.checkStore as = .error (.refuse (.storeIntoCode a)) := by
  obtain ⟨a, ha⟩ := Option.isSome_iff_exists.1 (List.find?_isSome.2 h)
  exact ⟨a, List.mem_of_find?_eq_some ha, List.find?_some ha, by simp only [State.checkStore, ha]⟩

/-- A store outside CodeRegion is stuck at a byte that holds no memory (R44). -/
theorem State.checkStore_unallocated {s : State} {as : List Nat}
    (hcode : ∀ a ∈ as, inRanges s.codeRegion a = false) (h : ∃ a ∈ as, inRanges s.allocated a = false) :
    ∃ a ∈ as, inRanges s.allocated a = false ∧ s.checkStore as = .error (.fault (.unallocated a)) := by
  have hnone : as.find? (inRanges s.codeRegion) = none := List.find?_eq_none.2 (by simpa using hcode)
  obtain ⟨a, ha⟩ := Option.isSome_iff_exists.1
    (List.find?_isSome (p := fun a => !inRanges s.allocated a).2 (by simpa using h))
  exact ⟨a, List.mem_of_find?_eq_some ha, by simpa using List.find?_some ha,
    by simp only [State.checkStore, hnone, ha]⟩

/-- Settles O20: the read of the operand, alone or behind the write check, and the check of the store each stop at
such a byte, and what stops there stops the instruction. -/
theorem stuckWithoutMemory : Obligations.StuckWithoutMemory := by
  refine ⟨fun i s seg off n as hc has h => ?_, fun i s seg off n as rs hc hb has hrs h => ?_,
    fun i s seg off n as hc hd hread has hcode h => ?_⟩
  · obtain ⟨a, ha, e, he, hat⟩ := State.readBytes_stops has h
    exact ⟨a, ha, stuckAt_of_atByte (exec_of_read_error hc he) hat⟩
  · obtain ⟨a, ha, e, he, hat⟩ := State.readBytes_stops hrs h
    exact ⟨a, ha, stuckAt_of_atByte (exec_of_readBack_error hc has hb he) hat⟩
  · obtain ⟨a, ha, halloc, he⟩ := State.checkStore_unallocated hcode h
    exact ⟨a, ha, halloc, exec_of_checkStore_error hc has hd hread he⟩

/-- Settles O21: behind its checks and its read the instruction's store is refused at the first byte in
CodeRegion. -/
theorem storeIntoCodeIsRefused : Obligations.StoreIntoCodeIsRefused := by
  intro i s seg off n as hc hd has hcode _ hread
  obtain ⟨a, ha, hin, he⟩ := State.checkStore_refused hcode
  exact ⟨a, ha, hin, exec_of_checkStore_error hc has hd hread he⟩

end Sys2Proof.Machine
end

section
/-! The frame of every instruction (R13, R19, R57, R87): what its row does not write stays as it was. -/

namespace Sys2Proof.Machine

/-- Registers, flags and memory of `t` are those of `s` but where the row writes them. -/
structure KeepsUnwritten (s : State) (r : Spec.Row) (t : State) : Prop where
  regs : ∀ n, n ∉ Spec.writtenRegs s r → t.regs.get32 n = s.regs.get32 n
  flags : ∀ f, f ∉ Spec.writtenFlags s r → Spec.flag t.flags f = Spec.flag s.flags f
  mem : ∀ a, a ∉ Spec.storedAddrs s r → t.mem.read a = s.mem.read a

/-- A state with the same registers, flags and memory keeps them whatever the row is. -/
theorem KeepsUnwritten.of_eq {s t : State} {r : Spec.Row} (hregs : t.regs = s.regs) (hflags : t.flags = s.flags)
    (hmem : t.mem = s.mem) : KeepsUnwritten s r t :=
  ⟨fun n _ => by rw [hregs], fun f _ => by rw [hflags], fun a _ => by rw [hmem]⟩

/-! ### Flags -/

/-- The flags that shifts and subtractions write (R19). -/
abbrev arithmeticFlags : List Spec.FlagName := [.of, .sf, .zf, .af, .pf, .cf]

/-- The two other flags of R19 are DF and IF. -/
theorem flag_of_not_arithmetic (f : Flags) {g : Flags} (hdf : g.df = f.df) (hifl : g.ifl = f.ifl) {x : Spec.FlagName}
    (hx : x ∉ arithmeticFlags) : Spec.flag g x = Spec.flag f x := by
  cases x with
  | df => exact hdf
  | if_ => exact hifl
  | of | sf | zf | af | pf | cf => simp at hx

section
variable {f : Flags} {x : Spec.FlagName} (hx : x ∉ arithmeticFlags) {n : Nat}
include hx

theorem Flags.flag_setSub (a b : BitVec n) (c : Bool) : Spec.flag (f.setSub a b c) x = Spec.flag f x :=
  flag_of_not_arithmetic f (f.setSub_df a b c) (f.setSub_ifl a b c) hx

theorem flag_shiftFlags (op : ShiftOp) (v : BitVec n) (count k : Nat) :
    Spec.flag (shiftFlags op v count k f) x = Spec.flag f x :=
  flag_of_not_arithmetic f (g := shiftFlags op v count k f) rfl rfl hx

theorem flag_dshiftFlags (op : DShiftOp) (v inBits : BitVec n) (c k : Nat) :
    Spec.flag (dshiftFlags op v inBits c k f) x = Spec.flag f x :=
  flag_of_not_arithmetic f (g := dshiftFlags op v inBits c k f) rfl rfl hx

theorem flag_drawnFlags (k : Nat) : Spec.flag (drawnFlags k f) x = Spec.flag f x :=
  flag_of_not_arithmetic f (g := drawnFlags k f) rfl rfl hx

end

/-! ### Registers and memory -/

/-- A register write that is the row's destination. -/
theorem regs_of_put {s : State} {r : Spec.Row} {w : Width} {n : RegNo} (hd : Spec.dest s r = some (.reg w n))
    (v : BitVec w.bits) {m : RegNo} (hm : m ∉ Spec.writtenRegs s r) :
    (s.regs.put w n v).get32 m = s.regs.get32 m := by
  refine s.regs.get32_put_other w v ?_
  rintro rfl
  exact hm (by simp [Spec.writtenRegs, hd, field_fst])

/-- A store to the row's destination. -/
theorem mem_of_storeAt {s : State} {r : Spec.Row} {seg : SegName} {off n : Nat} {as : List Nat}
    (hd : Spec.dest s r = some (.mem seg off n)) (has : s.storeAddrs seg off n = .ok as) (v : Nat) {a : Nat}
    (ha : a ∉ Spec.storedAddrs s r) : (s.storeAt as v).mem.read a = s.mem.read a := by
  refine s.mem.read_writeBytes_other as _ fun hmem => ha ?_
  simpa [Spec.storedAddrs, hd, has] using hmem

/-- A result put into the row's r/m destination, with the flags the row writes. -/
theorem KeepsUnwritten.of_put {s t : State} {r : Spec.Row} {w : Width} {rm : RM} {pl : Place}
    (hd : Spec.dest s r = some (Spec.rmDest s w rm)) (hp : s.rmPlace w rm = .ok pl) (v : BitVec w.bits)
    (hregs : t.regs = (s.put w pl v).regs) (hmem : t.mem = (s.put w pl v).mem)
    (hflags : ∀ f, f ∉ Spec.writtenFlags s r → Spec.flag t.flags f = Spec.flag s.flags f) :
    KeepsUnwritten s r t := by
  rcases State.rmPlace_eq_ok.1 hp with ⟨n, rfl, rfl⟩ | ⟨m, as, rfl, has, rfl⟩
  · exact ⟨fun k hk => by rw [hregs]; exact regs_of_put hd v hk, hflags, fun a _ => by rw [hmem]; rfl⟩
  · exact ⟨fun k _ => by rw [hregs]; rfl, hflags, fun a ha => by rw [hmem]; exact mem_of_storeAt hd has _ ha⟩

/-- The index register is (E)DI (R141). -/
theorem Regs.stepIndex_get32 (r : Regs) (a : Size) (df : Bool) (n : Nat) {m : RegNo} (hm : m ≠ .n7) :
    (r.stepIndex a df n).get32 m = r.get32 m :=
  r.get32_put_other _ _ (by cases a <;> exact hm)

/-- The count register is (E)CX (R147, R204). -/
theorem State.decCount_get32 (s : State) (a : Size) {m : RegNo} (hm : m ≠ .n1) :
    (s.decCount a).regs.get32 m = s.regs.get32 m :=
  s.regs.get32_put_other _ _ (by cases a <;> exact hm)

/-! ### Each operation -/

theorem shiftRM_keepsUnwritten {op : ShiftOp} {w : Width} {src : CountSrc} {rm : RM} {len : Nat} {s t : State}
    (h : shiftRM op w src rm len s = .ok t) : KeepsUnwritten s (.shift op w src rm) t := by
  obtain ⟨v, pl, -, hp, rfl⟩ := shiftRM_eq_ok.1 h
  split
  · next hzero => exact .of_put rfl hp v rfl rfl fun f _ => by simp
  · next hzero =>
    exact .of_put rfl hp _ rfl rfl fun f hf =>
      flag_shiftFlags (by rwa [Spec.writtenFlags, if_neg hzero] at hf) op v _ _

theorem subToRM_keepsUnwritten {w : Width} {rm : RM} {src : Spec.SubSrc w} {b : BitVec w.bits} {c d : Bool}
    {len : Nat} {s t : State} (h : subToRM w rm b c len s = .ok t) : KeepsUnwritten s (.subToRM w d rm src) t := by
  obtain ⟨a, pl, -, hp, rfl⟩ := subToRM_eq_ok.1 h
  exact .of_put rfl hp _ rfl rfl fun f hf => Flags.flag_setSub hf _ _ _

theorem subFromRM_keepsUnwritten {w : Width} {r : RegNo} {rm : RM} {c d : Bool} {len : Nat} {s t : State}
    (h : subFromRM w r rm c len s = .ok t) : KeepsUnwritten s (.subFromRM w d r rm) t := by
  obtain ⟨b, -, rfl⟩ := subFromRM_eq_ok.1 h
  exact ⟨fun _ hn => regs_of_put rfl _ hn, fun _ hf => Flags.flag_setSub hf _ _ _, fun _ _ => rfl⟩

theorem subAcc_keepsUnwritten {w : Width} {b imm : BitVec w.bits} {c d : Bool} {len : Nat} {s : State} :
    KeepsUnwritten s (.subAcc w d imm) (subAcc w b c len s) :=
  ⟨fun _ hn => regs_of_put (n := .n0) rfl _ hn, fun _ hf => Flags.flag_setSub hf _ _ _, fun _ _ => rfl⟩

theorem setcc_keepsUnwritten {c : Cond} {rm : RM} {len : Nat} {s t : State} (h : setcc c rm len s = .ok t) :
    KeepsUnwritten s (.setcc c rm) t := by
  obtain ⟨pl, hp, rfl⟩ := setcc_eq_ok.1 h
  exact .of_put rfl hp _ rfl rfl fun f _ => by simp

theorem storeTable_keepsUnwritten {tb : TableReg} {tn : Spec.TableName} {p : Pfx} {rm : RM} {len : Nat}
    {s t : State} (h : storeTable tb p rm len s = .ok t) : KeepsUnwritten s (.table tn p rm) t := by
  obtain ⟨m, as, rfl, has, rfl⟩ := storeTable_eq_ok.1 h
  exact ⟨fun _ _ => rfl, fun _ _ => rfl, fun a ha => mem_of_storeAt rfl has _ ha⟩

/-- Where SLDT and STR are not recognized they take #UD (R187, R208). -/
theorem storeWordName_unrecognized {v : Spec.WordName} {s : State} (h : ¬ (v = .msw ∨ s.mode = .prot)) (rm : RM)
    (len : Nat) : storeWordName v rm len s = .error (.exc .ud) := by
  obtain ⟨hv, hm⟩ := not_or.1 h
  cases v with
  | ldtr => exact if_neg hm
  | tr => exact if_neg hm
  | msw => exact absurd rfl hv

theorem storeWordName_keepsUnwritten {v : Spec.WordName} {rm : RM} {len : Nat} {s t : State}
    (h : storeWordName v rm len s = .ok t) : KeepsUnwritten s (.word v rm) t := by
  by_cases hrec : v = .msw ∨ s.mode = .prot
  · rw [storeWordName_recognized hrec] at h
    obtain ⟨pl, hp, rfl⟩ := storeWord16_eq_ok.1 h
    exact .of_put (if_pos hrec) hp _ rfl rfl fun f _ => by simp
  · rw [storeWordName_unrecognized hrec] at h
    cases h

theorem dshiftRM_keepsUnwritten {op : DShiftOp} {w : Width} {src : CountSrc} {rm : RM} {r : RegNo} {len : Nat}
    {s t : State} (h : dshiftRM op w src rm r len s = .ok t) : KeepsUnwritten s (.dshift op w src rm r) t := by
  obtain ⟨-, ⟨-, rfl⟩ | ⟨hzero, -, pl, hp, rfl⟩ | ⟨hzero, -, v, pl, -, hp, rfl⟩⟩ := dshiftRM_eq_ok.1 h
  · exact .of_eq rfl rfl rfl
  · exact .of_put (if_neg hzero) hp _ rfl rfl fun f hf =>
      flag_drawnFlags (by rwa [Spec.writtenFlags, if_neg hzero] at hf) _
  · exact .of_put (if_neg hzero) hp _ rfl rfl fun f hf =>
      flag_dshiftFlags (by rwa [Spec.writtenFlags, if_neg hzero] at hf) op v _ _ _

theorem not_implicit_of_not_written {s : State} {r : Spec.Row} {n : RegNo} (h : n ∉ Spec.writtenRegs s r) :
    n ∉ Spec.implicitRegs r := fun hn => h (List.mem_append_left _ hn)

/-- Completing the instruction writes none of these (R14). -/
theorem KeepsUnwritten.complete {s t : State} {r : Spec.Row} (h : KeepsUnwritten s r t) (len : Nat) :
    KeepsUnwritten s r (t.complete len) := ⟨h.regs, h.flags, h.mem⟩

/-- The count goes down in a repeated instruction only (R147, R204). -/
theorem KeepsUnwritten.decCount {s t : State} {r : Spec.Row} (h : KeepsUnwritten s r t)
    (hcx : .n1 ∈ Spec.implicitRegs r) (a : Size) : KeepsUnwritten s r (t.decCount a) := by
  refine ⟨fun n hn => ?_, h.flags, h.mem⟩
  have hne : n ≠ .n1 := fun hn1 => not_implicit_of_not_written hn (hn1 ▸ hcx)
  rw [t.decCount_get32 a hne, h.regs n hn]

theorem stepIndex_of_not_written {s : State} {r : Spec.Row} (hdi : .n7 ∈ Spec.implicitRegs r) (a : Size)
    (df : Bool) (k : Nat) {n : RegNo} (hn : n ∉ Spec.writtenRegs s r) :
    (s.regs.stepIndex a df k).get32 n = s.regs.get32 n :=
  s.regs.stepIndex_get32 a df k fun hn7 => not_implicit_of_not_written hn (hn7 ▸ hdi)

theorem scasBody_keepsUnwritten {w : Width} {p : Pfx} {rep : Option RepCond} {s t : State}
    (h : scasBody w (s.addressSize p) s = .ok t) : KeepsUnwritten s (.scas w p rep) t := by
  obtain ⟨m, -, rfl⟩ := scasBody_eq_ok.1 h
  refine ⟨fun n hn => stepIndex_of_not_written ?_ _ _ _ hn, fun f hf => Flags.flag_setSub hf _ _ _, fun _ _ => rfl⟩
  cases rep <;> simp [Spec.implicitRegs]

theorem scas_keepsUnwritten {w : Width} {p : Pfx} {rep : Option RepCond} {len : Nat} {s t : State}
    (h : scas w (s.addressSize p) rep len s = .ok t) : KeepsUnwritten s (.scas w p rep) t := by
  rcases scas_eq_ok.1 h with ⟨rfl, u, hu, rfl⟩ | ⟨k, rfl, ⟨-, rfl⟩ | ⟨-, u, hu, rfl⟩⟩
  · exact (scasBody_keepsUnwritten hu).complete len
  · exact .of_eq rfl rfl rfl
  · have hkeeps : KeepsUnwritten s (.scas w p (some k)) (u.decCount (s.addressSize p)) :=
      (scasBody_keepsUnwritten hu).decCount (by simp [Spec.implicitRegs]) _
    split
    · exact hkeeps.complete len
    · exact hkeeps

theorem stosBody_keepsUnwritten {w : Width} {p : Pfx} {rep : Bool} {s t : State}
    (hcount : ¬ (rep = true ∧ Spec.countOf (s.addressSize p) s.regs = 0))
    (h : stosBody w (s.addressSize p) s = .ok t) : KeepsUnwritten s (.stos w p rep) t := by
  obtain ⟨as, has, rfl⟩ := stosBody_eq_ok.1 h
  refine ⟨fun n hn => stepIndex_of_not_written ?_ _ _ _ hn, fun _ _ => rfl, fun a ha => ?_⟩
  · cases rep <;> simp [Spec.implicitRegs]
  · have hd : Spec.dest s (.stos w p rep) = some (.mem .es (s.index (s.addressSize p)) w.bytes) := if_neg hcount
    exact mem_of_storeAt hd has _ ha

theorem stos_keepsUnwritten {w : Width} {p : Pfx} {rep : Bool} {len : Nat} {s t : State}
    (h : stos w (s.addressSize p) rep len s = .ok t) : KeepsUnwritten s (.stos w p rep) t := by
  rcases stos_eq_ok.1 h with ⟨rfl, u, hu, rfl⟩ | ⟨-, -, rfl⟩ | ⟨rfl, hcount, u, hu, rfl⟩
  · exact (stosBody_keepsUnwritten (by simp) hu).complete len
  · exact .of_eq rfl rfl rfl
  · rw [Ne, State.repCount_eq_zero_iff] at hcount
    have hkeeps : KeepsUnwritten s (.stos w p true) (u.decCount (s.addressSize p)) :=
      (stosBody_keepsUnwritten (fun h => hcount h.2) hu).decCount (by simp [Spec.implicitRegs]) _
    split
    · exact hkeeps.complete len
    · exact hkeeps

/-- STI sets IF, or takes an exception that changes none of these (R195). -/
theorem runSti_keepsUnwritten {len : Nat} {s t : State} (h : runSti len s = .next t) :
    KeepsUnwritten s .sti t := by
  have hset : KeepsUnwritten s .sti (s.setInterruptFlag len) := by
    refine ⟨fun _ _ => rfl, fun f hf => ?_, fun _ _ => rfl⟩
    cases f <;> simp_all [Spec.writtenFlags, Spec.flag]
  have hmark : KeepsUnwritten s .sti (s.markFaulted .gp0) := .of_eq rfl rfl rfl
  simp only [runSti] at h
  split at h
  · cases h; exact hset
  · split at h <;> cases h
    · exact hmark
    · exact hset
  · split at h <;> cases h
    exact hset

/-! ### Every instruction -/

/-- What an operation keeps when it succeeds, its instruction keeps: an exception changes none of these (R232). -/
theorem KeepsUnwritten.of_settle {s t : State} {r : Spec.Row} {x : Res State} (h : settle s x = .next t)
    (hx : x = .ok t → KeepsUnwritten s r t) : KeepsUnwritten s r t := by
  rcases settle_eq_next.1 h with hok | ⟨e, -, rfl⟩
  · exact hx hok
  · exact .of_eq rfl rfl rfl

theorem runRow_keepsUnwritten {len : Nat} {s t : State} {r : Spec.Row} (h : runRow len s r = .next t) :
    KeepsUnwritten s r t := by
  cases r with
  | sahf | stc | std =>
    cases h
    refine ⟨fun _ _ => rfl, fun f hf => ?_, fun _ _ => rfl⟩
    cases f <;> simp_all [Spec.writtenFlags, Spec.flag]
  | sti => exact runSti_keepsUnwritten h
  | subAcc w c imm => cases h; exact subAcc_keepsUnwritten
  | shift op w src rm => exact .of_settle h shiftRM_keepsUnwritten
  | subToRM w c rm src => exact .of_settle h subToRM_keepsUnwritten
  | subFromRM w c r rm => exact .of_settle h subFromRM_keepsUnwritten
  | scas w p rep => exact .of_settle h scas_keepsUnwritten
  | stos w p rep => exact .of_settle h stos_keepsUnwritten
  | setcc c rm => exact .of_settle h setcc_keepsUnwritten
  | table tn p rm => exact .of_settle h storeTable_keepsUnwritten
  | word v rm => exact .of_settle h storeWordName_keepsUnwritten
  | dshift op w src rm r => exact .of_settle h dshiftRM_keepsUnwritten

/-- Settles O55: row by row for registers, flags and memory; the launch part is what no instruction writes. -/
theorem frameOfEveryInstruction : Obligations.FrameOfEveryInstruction := by
  intro i s t h
  obtain ⟨hregs, hflags, hmem⟩ := runRow_keepsUnwritten (exec_eq_runRow i s ▸ h)
  exact ⟨hregs, hflags, hmem, exec_keeps_launchPart h⟩

end Sys2Proof.Machine
end

section
/-! Every form is read back from its encoding (R70 to R91). -/

namespace Sys2Proof

/-! ### The shapes of an encoding -/

/-- Under OperandSize 16 an opcode means its word form (R98). -/
theorem bySize_of_sizeWf_s16 {α : Type} {p : Pfx} {d : Size} (h : p.sizeWf d .s16 = true) {g : Option SegName}
    {r : Option RepCond} {a b : α} : bySize d ⟨p, g, r⟩ a b = a := by
  have hs : d.select p.opSize = .s16 := by simpa [Pfx.sizeWf] using h
  simp [bySize, Prefixes.opSize, hs]

/-- Under OperandSize 32 an opcode means its dword form (R98). -/
theorem bySize_of_sizeWf_s32 {α : Type} {p : Pfx} {d : Size} (h : p.sizeWf d .s32 = true) {g : Option SegName}
    {r : Option RepCond} {a b : α} : bySize d ⟨p, g, r⟩ a b = b := by
  have hs : d.select p.opSize = .s32 := by simpa [Pfx.sizeWf] using h
  simp [bySize, Prefixes.opSize, hs]

section
variable {d : Size} {i : Instr} {rest opt : List Byte} {op : Byte} {p : Pfx}

/-- An encoding that ends with its ModRM operand. -/
theorem decode_encode_RM {reg : BitVec 3} {rm : RM} {pick : BitVec 3 → Option (Pfx → RM → Instr)}
    {mk : Pfx → RM → Instr} (he : i.encoding = { pfx := p, opcode := op :: opt, modrm := some (reg, rm) })
    (hop : prefixOf op = none)
    (hdec : ∀ bs, decodeOp d ⟨p, rm.override, none⟩ op (opt ++ bs) = decRM d ⟨p, rm.override, none⟩ bs pick)
    (hpick : pick reg = some mk) (hmk : mk p rm = i.canonical) (hw : p.rmWf d rm = true) :
    decode d (encode i ++ rest) = .ok (i.canonical, rest) := by
  refine decode_encode_of_decodeOp d i rest op opt (by rw [he]) hop ?_
  rw [he, ← hmk]
  exact (hdec _).trans (decRM_enc hpick hw rfl rfl)

/-- An encoding that ends with an immediate after its ModRM operand. -/
theorem decode_encode_RMImm {α : Type} {reg : BitVec 3} {rm : RM} {ib : List Byte} {v : α}
    {take : List Byte → Dec (α × List Byte)} {pick : BitVec 3 → Option (Pfx → RM → α → Instr)}
    {mk : Pfx → RM → α → Instr}
    (he : i.encoding = { pfx := p, opcode := op :: opt, modrm := some (reg, rm), imm := ib })
    (hop : prefixOf op = none)
    (hdec : ∀ bs, decodeOp d ⟨p, rm.override, none⟩ op (opt ++ bs)
      = decRMImm d ⟨p, rm.override, none⟩ bs take pick)
    (hpick : pick reg = some mk) (hmk : mk p rm v = i.canonical) (hv : ∀ bs, take (ib ++ bs) = .ok (v, bs))
    (hw : p.rmWf d rm = true) : decode d (encode i ++ rest) = .ok (i.canonical, rest) := by
  refine decode_encode_of_decodeOp d i rest op opt (by rw [he]) hop ?_
  rw [he, ← hmk]
  exact (hdec _).trans (decRMImm_enc (hv rest) hpick hw rfl rfl)

/-- An encoding of prefixes and opcode bytes alone. -/
theorem decode_encode_opcode {r : Option RepCond} (he : i.encoding = { pfx := p, rep := r, opcode := op :: opt })
    (hop : prefixOf op = none) (hdec : ∀ bs, decodeOp d ⟨p, none, r⟩ op (opt ++ bs) = .ok (i.canonical, bs)) :
    decode d (encode i ++ rest) = .ok (i.canonical, rest) := by
  refine decode_encode_of_decodeOp d i rest op opt (by rw [he]) hop ?_
  rw [he]
  exact hdec rest

/-- An encoding of an opcode and an immediate for the accumulator. -/
theorem decode_encode_acc {α : Type} {ib : List Byte} {v : α} {take : List Byte → Dec (α × List Byte)}
    {mk : Pfx → α → Instr} (he : i.encoding = { pfx := p, opcode := op :: opt, imm := ib })
    (hop : prefixOf op = none)
    (hdec : ∀ bs, decodeOp d ⟨p, none, none⟩ op (opt ++ bs) = decAcc ⟨p, none, none⟩ bs take mk)
    (hmk : mk p v = i.canonical) (hv : ∀ bs, take (ib ++ bs) = .ok (v, bs)) :
    decode d (encode i ++ rest) = .ok (i.canonical, rest) := by
  refine decode_encode_of_decodeOp d i rest op opt (by rw [he]) hop ?_
  rw [he, ← hmk]
  refine (hdec _).trans ?_
  simp [Encoding.modrmBytes, decAcc, hv, checkOverride, checkRep]

end

/-- STOS with the prefix bytes of either repetition is read back (R76). -/
theorem decStos_stosRep (p : Pfx) (rep : Bool) (bs : List Byte) (mk : Pfx → Bool → Instr) :
    decStos ⟨p, none, stosRep rep⟩ bs mk = .ok (mk p rep, bs) := by
  cases rep <;> rfl

/-! ### Every instruction -/

/-- Settles O3: the constructors fall into the shapes above, each at one width. -/
theorem decodeOfEncode : Obligations.DecodeOfEncode := by
  intro d i rest h
  cases i with
  | sahf p | stc p | std p | sti p => exact decode_encode_opcode rfl rfl fun _ => rfl
  | scasM8 p rep | scasb p rep => exact decode_encode_opcode rfl rfl fun _ => rfl
  | scasM16 p rep | scasw p rep =>
    exact decode_encode_opcode rfl rfl fun _ => congrArg (fun mk => decScas _ _ mk) (bySize_of_sizeWf_s16 h)
  | scasM32 p rep | scasd p rep =>
    exact decode_encode_opcode rfl rfl fun _ => congrArg (fun mk => decScas _ _ mk) (bySize_of_sizeWf_s32 h)
  | stosM8 p rep | stosb p rep => exact decode_encode_opcode rfl rfl fun _ => decStos_stosRep p rep _ _
  | stosM16 p rep | stosw p rep =>
    refine decode_encode_opcode rfl rfl fun bs => (decStos_stosRep p rep bs _).trans ?_
    rw [bySize_of_sizeWf_s16 h]; rfl
  | stosM32 p rep | stosd p rep =>
    refine decode_encode_opcode rfl rfl fun bs => (decStos_stosRep p rep bs _).trans ?_
    rw [bySize_of_sizeWf_s32 h]; rfl
  | sbbAlImm8 p v | subAlImm8 p v => exact decode_encode_acc rfl rfl (fun _ => rfl) rfl (takeByte_singleton v)
  | sbbAxImm16 p v | subAxImm16 p v =>
    exact decode_encode_acc rfl rfl (fun _ => bySize_of_sizeWf_s16 h) rfl (takeWord_wordBytes v)
  | sbbEaxImm32 p v | subEaxImm32 p v =>
    exact decode_encode_acc rfl rfl (fun _ => bySize_of_sizeWf_s32 h) rfl (takeDWord_dwordBytes v)
  | salRm8One p rm | salRm8Cl p rm | shlRm8One p rm | shlRm8Cl p rm | shrRm8One p rm | shrRm8Cl p rm
  | sarRm8One p rm | sarRm8Cl p rm | seta p rm | setae p rm | setb p rm | setbe p rm | setc p rm | sete p rm
  | setg p rm | setge p rm | setl p rm | setle p rm | setna p rm | setnae p rm | setnb p rm | setnbe p rm
  | setnc p rm | setne p rm | setng p rm | setnge p rm | setnl p rm | setnle p rm | setno p rm | setnp p rm
  | setns p rm | setnz p rm | seto p rm | setp p rm | setpe p rm | setpo p rm | sets p rm | setz p rm
  | sgdt p rm | sidt p rm | sldt p rm | smsw p rm | str p rm =>
    exact decode_encode_RM rfl rfl (fun _ => rfl) rfl rfl h
  | salRm16One p rm | salRm16Cl p rm | shlRm16One p rm | shlRm16Cl p rm | shrRm16One p rm | shrRm16Cl p rm
  | sarRm16One p rm | sarRm16Cl p rm =>
    obtain ⟨hs, hrm⟩ := Bool.and_eq_true_iff.1 h
    exact decode_encode_RM rfl rfl (fun _ => rfl) rfl (by rw [bySize_of_sizeWf_s16 hs]; rfl) hrm
  | salRm32One p rm | salRm32Cl p rm | shlRm32One p rm | shlRm32Cl p rm | shrRm32One p rm | shrRm32Cl p rm
  | sarRm32One p rm | sarRm32Cl p rm =>
    obtain ⟨hs, hrm⟩ := Bool.and_eq_true_iff.1 h
    exact decode_encode_RM rfl rfl (fun _ => rfl) rfl (by rw [bySize_of_sizeWf_s32 hs]; rfl) hrm
  | salRm8Imm8 p rm v | shlRm8Imm8 p rm v | shrRm8Imm8 p rm v | sarRm8Imm8 p rm v | sbbRm8Imm8 p rm v
  | subRm8Imm8 p rm v =>
    exact decode_encode_RMImm rfl rfl (fun _ => rfl) rfl rfl (takeByte_singleton v) h
  | salRm16Imm8 p rm v | shlRm16Imm8 p rm v | shrRm16Imm8 p rm v | sarRm16Imm8 p rm v | sbbRm16Imm8 p rm v
  | subRm16Imm8 p rm v =>
    obtain ⟨hs, hrm⟩ := Bool.and_eq_true_iff.1 h
    exact decode_encode_RMImm rfl rfl (fun _ => rfl) rfl (by rw [bySize_of_sizeWf_s16 hs]; rfl)
      (takeByte_singleton v) hrm
  | salRm32Imm8 p rm v | shlRm32Imm8 p rm v | shrRm32Imm8 p rm v | sarRm32Imm8 p rm v | sbbRm32Imm8 p rm v
  | subRm32Imm8 p rm v =>
    obtain ⟨hs, hrm⟩ := Bool.and_eq_true_iff.1 h
    exact decode_encode_RMImm rfl rfl (fun _ => rfl) rfl (by rw [bySize_of_sizeWf_s32 hs]; rfl)
      (takeByte_singleton v) hrm
  | sbbRm16Imm16 p rm v | subRm16Imm16 p rm v =>
    obtain ⟨hs, hrm⟩ := Bool.and_eq_true_iff.1 h
    exact decode_encode_RMImm rfl rfl (fun _ => bySize_of_sizeWf_s16 hs) rfl rfl (takeWord_wordBytes v) hrm
  | sbbRm32Imm32 p rm v | subRm32Imm32 p rm v =>
    obtain ⟨hs, hrm⟩ := Bool.and_eq_true_iff.1 h
    exact decode_encode_RMImm rfl rfl (fun _ => bySize_of_sizeWf_s32 hs) rfl rfl (takeDWord_dwordBytes v) hrm
  | sbbRm8R8 p rm r | subRm8R8 p rm r | sbbR8Rm8 p rm r | subR8Rm8 p rm r =>
    exact decode_encode_RM rfl rfl (fun _ => rfl) rfl (by rw [RegNo.ofBits_toBits]; rfl) h
  | sbbRm16R16 p rm r | subRm16R16 p rm r | sbbR16Rm16 p rm r | subR16Rm16 p rm r | shldRm16R16Cl p rm r
  | shrdRm16R16Cl p rm r =>
    obtain ⟨hs, hrm⟩ := Bool.and_eq_true_iff.1 h
    exact decode_encode_RM rfl rfl (fun _ => rfl) rfl
      (by rw [bySize_of_sizeWf_s16 hs, RegNo.ofBits_toBits]; rfl) hrm
  | sbbRm32R32 p rm r | subRm32R32 p rm r | sbbR32Rm32 p rm r | subR32Rm32 p rm r | shldRm32R32Cl p rm r
  | shrdRm32R32Cl p rm r =>
    obtain ⟨hs, hrm⟩ := Bool.and_eq_true_iff.1 h
    exact decode_encode_RM rfl rfl (fun _ => rfl) rfl
      (by rw [bySize_of_sizeWf_s32 hs, RegNo.ofBits_toBits]; rfl) hrm
  | shldRm16R16Imm8 p rm r v | shrdRm16R16Imm8 p rm r v =>
    obtain ⟨hs, hrm⟩ := Bool.and_eq_true_iff.1 h
    exact decode_encode_RMImm rfl rfl (fun _ => rfl) rfl
      (by rw [bySize_of_sizeWf_s16 hs, RegNo.ofBits_toBits]; rfl) (takeByte_singleton v) hrm
  | shldRm32R32Imm8 p rm r v | shrdRm32R32Imm8 p rm r v =>
    obtain ⟨hs, hrm⟩ := Bool.and_eq_true_iff.1 h
    exact decode_encode_RMImm rfl rfl (fun _ => rfl) rfl
      (by rw [bySize_of_sizeWf_s32 hs, RegNo.ofBits_toBits]; rfl) (takeByte_singleton v) hrm

end Sys2Proof
end

section
/-! What the decoder accepts: well-formed canonical instructions, of the bytes and the prefixes consumed
(R71, R72, R95, R98). -/

namespace Sys2Proof

/-- An accepted instruction is what the opcode after its prefixes means. -/
theorem decode_ok {d : Size} {bs rest : List Byte} {i : Instr} (h : decode d bs = .ok (i, rest)) :
    ∃ x tail, readPrefixes Prefixes.empty bs = .ok (x, tail) ∧ Accepted d x tail.length i rest := by
  obtain ⟨⟨x, tail⟩, hprefixes, hopcode⟩ := Dec.bind_eq_ok.1 h
  obtain ⟨⟨op, operands⟩, htake, hop⟩ := Dec.bind_eq_ok.1 hopcode
  have htail : tail.length = operands.length + 1 := by rw [takeByte_ok htake, Nat.add_comm]
  exact ⟨x, tail, hprefixes, htail ▸ decodeOp_ok hop⟩

/-- An instruction is written with as many prefix bytes as its prefixes. -/
theorem Accepted.prefixBytes_length {d : Size} {x : Prefixes} {n : Nat} {i : Instr} {rest : List Byte}
    (h : Accepted d x n i rest) : i.encoding.prefixBytes.length = x.count := by
  have hseg : i.encoding.modrm.bind (·.2.override) = x.seg := h.override
  rw [Encoding.prefixBytes_length, h.pfx, hseg, h.rep, Prefixes.count]

/-- Settles O4: the prefixes read are those the encoder writes, and the opcode accounts for the other bytes. -/
theorem decodedIsWellFormedAndMeasured : Obligations.DecodedIsWellFormedAndMeasured := by
  intro d bs rest i h
  obtain ⟨x, tail, hprefixes, hacc⟩ := decode_ok h
  refine ⟨hacc.wf, hacc.canonical, ?_⟩
  have hconsumed : bs.length + Prefixes.empty.count = x.count + tail.length := (readPrefixes_ok hprefixes).1
  calc bs.length
      = x.count + tail.length := hconsumed
    _ = i.encoding.bytes.length + rest.length := by
        rw [Encoding.bytes_length, hacc.prefixBytes_length, hacc.length]; omega

/-- Settles O7: the prefixes that `decode` reads are the ones given. -/
theorem acceptedPrefixesAreTheInstructions : Obligations.AcceptedPrefixesAreTheInstructions := by
  intro d bs tail rest x i hread h
  obtain ⟨y, tail', hread', hacc⟩ := decode_ok h
  obtain ⟨rfl, -⟩ := Prod.mk.inj (Except.ok.inj (hread.symm.trans hread'))
  exact ⟨hacc.pfx, hacc.rep, hacc.override⟩

end Sys2Proof
end

section
/-! The prefix bytes of an instruction: one of each group, in any order, and no LOCK (R72, R73, R77). -/

namespace Sys2Proof

/-! ### The groups -/

/-- The group of R73 a prefix is of; LOCK is of none. -/
def PrefixByte.group : PrefixByte → Option Nat
  | .opSize => some 0
  | .addrSize => some 1
  | .seg _ => some 2
  | .rep _ => some 3
  | .lock => none

/-- The statements group the bytes as the decoder reads them. -/
theorem prefixGroup_eq (b : Byte) : Machine.Spec.prefixGroup b = (prefixOf b).bind PrefixByte.group := by
  revert b; decide

theorem prefixOf_eq_lock (b : Byte) : prefixOf b = some .lock ↔ b = 0xF0#8 := by
  revert b; decide

/-- A byte of a group is a prefix other than LOCK. -/
theorem prefixOf_of_prefixGroup {b : Byte} (h : Machine.Spec.prefixGroup b ≠ none) :
    ∃ k, prefixOf b = some k ∧ k ≠ .lock ∧ Machine.Spec.prefixGroup b = k.group := by
  rw [prefixGroup_eq] at h ⊢
  cases hb : prefixOf b with
  | none => simp [hb] at h
  | some k => exact ⟨k, rfl, by rintro rfl; simp [hb, PrefixByte.group] at h, rfl⟩

/-! ### Reading a prefix -/

/-- Whether a prefix of this one's group has been read. -/
def Prefixes.has (x : Prefixes) : PrefixByte → Bool
  | .opSize => x.pfx.opSize
  | .addrSize => x.pfx.addrSize
  | .seg _ => x.seg.isSome
  | .rep _ => x.rep.isSome
  | .lock => false

/-- The prefixes after one more. -/
def Prefixes.add (x : Prefixes) : PrefixByte → Prefixes
  | .opSize => ⟨⟨true, x.pfx.addrSize⟩, x.seg, x.rep⟩
  | .addrSize => ⟨⟨x.pfx.opSize, true⟩, x.seg, x.rep⟩
  | .seg r => ⟨x.pfx, some r, x.rep⟩
  | .rep c => ⟨x.pfx, x.seg, some c⟩
  | .lock => x

theorem Prefixes.has_add {x : Prefixes} {j k : PrefixByte} (hj : j ≠ .lock) :
    (x.add j).has k = (decide (j.group = k.group) || x.has k) := by
  cases j with
  | lock => exact absurd rfl hj
  | opSize | addrSize | seg | rep => cases k <;> rfl

theorem Prefixes.add_comm (x : Prefixes) {j k : PrefixByte} (h : j.group ≠ k.group) :
    (x.add j).add k = (x.add k).add j := by
  cases j with
  | opSize => cases k with | opSize => exact absurd rfl h | _ => rfl
  | addrSize => cases k with | addrSize => exact absurd rfl h | _ => rfl
  | seg => cases k with | seg => exact absurd rfl h | _ => rfl
  | rep => cases k with | rep => exact absurd rfl h | _ => rfl
  | lock => rfl

/-- A prefix is refused when its group has been read, else it is added. -/
theorem readPrefixes_cons {x : Prefixes} {b : Byte} {k : PrefixByte} (hb : prefixOf b = some k)
    (hk : k ≠ .lock) (bs : List Byte) :
    readPrefixes x (b :: bs) = if x.has k then .error .repeatedPrefix else readPrefixes (x.add k) bs := by
  cases k with
  | lock => exact absurd rfl hk
  | opSize | addrSize | seg | rep => simp only [readPrefixes, hb]; rfl

theorem readPrefixes_lock {x : Prefixes} {b : Byte} (hb : prefixOf b = some .lock) (bs : List Byte) :
    readPrefixes x (b :: bs) = .error .lock := by
  simp only [readPrefixes, hb]

/-- A refused prefix string refuses the instruction. -/
theorem decode_of_readPrefixes_error {d : Size} {bs : List Byte} {e : DecodeError}
    (h : readPrefixes Prefixes.empty bs = .error e) : decode d bs = .error e := by
  rw [decode, h, Dec.error_bind]

/-! ### Strings of prefixes -/

/-- LOCK among the prefixes is met, or a repeated group before it. -/
theorem readPrefixes_lock_mem {x : Prefixes} {ps rest : List Byte}
    (hps : ∀ b ∈ ps, Machine.Spec.prefixGroup b ≠ none ∨ b = 0xF0#8) (hmem : 0xF0#8 ∈ ps) :
    ∃ e, readPrefixes x (ps ++ rest) = .error e := by
  induction ps generalizing x with
  | nil => cases hmem
  | cons b ps ih =>
    obtain ⟨hb, hps⟩ := List.forall_mem_cons.1 hps
    by_cases hlock : b = 0xF0#8
    · exact ⟨_, readPrefixes_lock ((prefixOf_eq_lock b).2 hlock) _⟩
    · obtain ⟨k, hk, hne, -⟩ := prefixOf_of_prefixGroup (hb.resolve_right hlock)
      rw [List.cons_append, readPrefixes_cons hk hne]
      split
      · exact ⟨_, rfl⟩
      · exact ih hps ((List.mem_cons.1 hmem).resolve_left (Ne.symm hlock))

/-- Settles O5: reading the prefixes stops at LOCK or before it, and `decode` with it. -/
theorem lockIsRefused : Obligations.LockIsRefused := by
  intro d ps rest hps hmem
  obtain ⟨e, he⟩ := readPrefixes_lock_mem hps hmem
  exact ⟨e, decode_of_readPrefixes_error he⟩

/-- Two neighbouring prefixes may change places: of one group they are refused in either order. -/
theorem readPrefixes_swap {x : Prefixes} {b c : Byte} (hb : Machine.Spec.prefixGroup b ≠ none)
    (hc : Machine.Spec.prefixGroup c ≠ none) (bs : List Byte) :
    readPrefixes x (b :: c :: bs) = readPrefixes x (c :: b :: bs) := by
  obtain ⟨j, hj, hjne, -⟩ := prefixOf_of_prefixGroup hb
  obtain ⟨k, hk, hkne, -⟩ := prefixOf_of_prefixGroup hc
  simp only [readPrefixes_cons hj hjne, readPrefixes_cons hk hkne, Prefixes.has_add hjne, Prefixes.has_add hkne]
  by_cases hgroup : j.group = k.group
  · simp [hgroup]
  · simp only [hgroup, Ne.symm hgroup, decide_false, Bool.false_or, x.add_comm hgroup]
    cases x.has j <;> cases x.has k <;> rfl

/-- The order of the prefixes does not matter. -/
theorem readPrefixes_perm {ps qs : List Byte} (hperm : ps.Perm qs)
    (hps : ∀ b ∈ ps, Machine.Spec.prefixGroup b ≠ none) (x : Prefixes) (rest : List Byte) :
    readPrefixes x (ps ++ rest) = readPrefixes x (qs ++ rest) := by
  induction hperm generalizing x with
  | nil => rfl
  | cons b _ ih =>
    obtain ⟨hb, hps⟩ := List.forall_mem_cons.1 hps
    obtain ⟨k, hk, hne, -⟩ := prefixOf_of_prefixGroup hb
    simp only [List.cons_append, readPrefixes_cons hk hne, ih hps]
  | swap b c _ =>
    obtain ⟨hc, hps⟩ := List.forall_mem_cons.1 hps
    exact readPrefixes_swap hc (List.forall_mem_cons.1 hps).1 _
  | trans hperm _ ih ih' => rw [ih hps, ih' fun b hb => hps b (hperm.mem_iff.2 hb)]

/-- Prefixes are refused when one is of a group read before, or two of them are of one group. -/
theorem readPrefixes_repeated {x : Prefixes} {ps : List Byte} (rest : List Byte)
    (hps : ∀ b ∈ ps, Machine.Spec.prefixGroup b ≠ none)
    (hrep : (∃ b ∈ ps, ∃ k, prefixOf b = some k ∧ x.has k) ∨ ¬ (ps.map Machine.Spec.prefixGroup).Nodup) :
    readPrefixes x (ps ++ rest) = .error .repeatedPrefix := by
  induction ps generalizing x with
  | nil => simp at hrep
  | cons b ps ih =>
    obtain ⟨hb, hps⟩ := List.forall_mem_cons.1 hps
    obtain ⟨k, hk, hne, hgroup⟩ := prefixOf_of_prefixGroup hb
    rw [List.cons_append, readPrefixes_cons hk hne]
    split
    · rfl
    · next hhas =>
      refine ih hps ?_
      by_cases hnodup : (ps.map Machine.Spec.prefixGroup).Nodup
      · left
        rcases hrep with ⟨c, hc, l, hl, hxl⟩ | hrep
        · rcases List.mem_cons.1 hc with rfl | hc
          · obtain rfl := Option.some.inj (hk.symm.trans hl)
            exact absurd hxl hhas
          · exact ⟨c, hc, l, hl, by simp [Prefixes.has_add hne, hxl]⟩
        · have hmem : Machine.Spec.prefixGroup b ∈ ps.map Machine.Spec.prefixGroup := by
            by_contra hnot; exact hrep (List.nodup_cons.2 ⟨hnot, hnodup⟩)
          obtain ⟨c, hc, hbc⟩ := List.mem_map.1 hmem
          obtain ⟨l, hl, -, hlgroup⟩ := prefixOf_of_prefixGroup (hps c hc)
          have hkl : k.group = l.group := by rw [← hgroup, ← hlgroup, hbc]
          exact ⟨c, hc, l, hl, by simp [Prefixes.has_add hne, hkl]⟩
      · exact .inr hnodup

/-- Settles O6: neighbours commute, so every permutation gives the same prefixes, and the second prefix of a
group is refused. -/
theorem onePrefixOfEachGroup : Obligations.OnePrefixOfEachGroup := by
  refine ⟨fun d ps qs rest hps _ hperm => ?_, fun d ps rest hps hrep => ?_⟩
  · rw [decode, readPrefixes_perm hperm hps, decode]
  · exact decode_of_readPrefixes_error (readPrefixes_repeated rest hps (.inr hrep))

end Sys2Proof
end

section
/-! The digits of the opcode groups (R80, R93). -/

namespace Sys2Proof

/-- Without prefixes the first byte is the opcode. -/
theorem decode_opcode {op : Byte} (h : prefixOf op = none) (d : Size) (bs : List Byte) :
    decode d (op :: bs) = decodeOp d Prefixes.empty op bs := by
  simp [decode, readPrefixes, h, takeByte]

/-! ### A digit that is not listed -/

theorem shiftDigit_eq_none {α : Type} {b : BitVec 3} (h : b ∉ [4#3, 5#3, 7#3]) (shl shr sar : α) :
    shiftDigit shl shr sar b = none := by
  obtain ⟨h4, h5, h7⟩ : b ≠ 4#3 ∧ b ≠ 5#3 ∧ b ≠ 7#3 := by simpa using h
  simp only [shiftDigit]
  split
  · next hb => exact absurd (BitVec.eq_of_toNat_eq hb) h4
  · next hb => exact absurd (BitVec.eq_of_toNat_eq hb) h5
  · next hb => exact absurd (BitVec.eq_of_toNat_eq hb) h7
  · rfl

theorem arithDigit_eq_none {α : Type} {b : BitVec 3} (h : b ∉ [3#3, 5#3]) (sbb sub : α) :
    arithDigit sbb sub b = none := by
  obtain ⟨h3, h5⟩ : b ≠ 3#3 ∧ b ≠ 5#3 := by simpa using h
  simp only [arithDigit]
  split
  · next hb => exact absurd (BitVec.eq_of_toNat_eq hb) h3
  · next hb => exact absurd (BitVec.eq_of_toNat_eq hb) h5
  · rfl

theorem group00Digit_eq_none {b : BitVec 3} (h : b ∉ [0#3, 1#3]) : group00Digit b = none := by
  obtain ⟨h0, h1⟩ : b ≠ 0#3 ∧ b ≠ 1#3 := by simpa using h
  simp only [group00Digit]
  split
  · next hb => exact absurd (BitVec.eq_of_toNat_eq hb) h0
  · next hb => exact absurd (BitVec.eq_of_toNat_eq hb) h1
  · rfl

theorem group01Digit_eq_none {b : BitVec 3} (h : b ∉ [0#3, 1#3, 4#3]) : group01Digit b = none := by
  obtain ⟨h0, h1, h4⟩ : b ≠ 0#3 ∧ b ≠ 1#3 ∧ b ≠ 4#3 := by simpa using h
  simp only [group01Digit]
  split
  · next hb => exact absurd (BitVec.eq_of_toNat_eq hb) h0
  · next hb => exact absurd (BitVec.eq_of_toNat_eq hb) h1
  · next hb => exact absurd (BitVec.eq_of_toNat_eq hb) h4
  · rfl

/-! ### It is refused before the operand is read -/

section
variable {m : Byte} (d : Size) (x : Prefixes) (rest : List Byte)

theorem decRM_unlisted {pick : BitVec 3 → Option (Pfx → RM → Instr)} (h : pick (midField m) = none) :
    decRM d x (m :: rest) pick = .error .outOfScope := by
  simp [decRM, decModRM, takeByte, h]

theorem decRMImm_unlisted {α : Type} {take : List Byte → Dec (α × List Byte)}
    {pick : BitVec 3 → Option (Pfx → RM → α → Instr)} (h : pick (midField m) = none) :
    decRMImm d x (m :: rest) take pick = .error .outOfScope := by
  simp [decRMImm, decModRM, takeByte, h]

theorem decodeOp_shift_unlisted {op : Byte} (hop : op ∈ [0xC0#8, 0xC1#8, 0xD0#8, 0xD1#8, 0xD2#8, 0xD3#8])
    (h : midField m ∉ [4#3, 5#3, 7#3]) : decodeOp d x op (m :: rest) = .error .outOfScope := by
  simp only [List.mem_cons, List.not_mem_nil, or_false] at hop
  rcases hop with rfl | rfl | rfl | rfl | rfl | rfl
  case inl | inr.inl => exact decRMImm_unlisted d x rest (shiftDigit_eq_none h _ _ _)
  all_goals exact decRM_unlisted d x rest (shiftDigit_eq_none h _ _ _)

theorem decodeOp_arith_unlisted {op : Byte} (hop : op ∈ [0x80#8, 0x81#8, 0x83#8])
    (h : midField m ∉ [3#3, 5#3]) : decodeOp d x op (m :: rest) = .error .outOfScope := by
  have himm {α : Type} (take : List Byte → Dec (α × List Byte)) (sbb sub : Pfx → RM → α → Instr) :
      decRMImm d x (m :: rest) take (arithDigit sbb sub) = .error .outOfScope :=
    decRMImm_unlisted d x rest (arithDigit_eq_none h _ _)
  simp only [List.mem_cons, List.not_mem_nil, or_false] at hop
  rcases hop with rfl | rfl | rfl
  · exact himm _ _ _
  · calc decodeOp d x 0x81#8 (m :: rest)
        = bySize d x (decRMImm d x (m :: rest) takeWord (arithDigit .sbbRm16Imm16 .subRm16Imm16))
            (decRMImm d x (m :: rest) takeDWord (arithDigit .sbbRm32Imm32 .subRm32Imm32)) := rfl
      _ = bySize d x (.error .outOfScope) (.error .outOfScope) := by rw [himm, himm]
      _ = .error .outOfScope := by unfold bySize; split <;> rfl
  · exact himm _ _ _

end

/-- Settles O8: the digit picks no row of its opcode, at either operand size. -/
theorem unlistedDigitsAreOutOfScope : Obligations.UnlistedDigitsAreOutOfScope := by
  refine fun d m rest => ⟨fun op hop h => ?_, fun op hop h => ?_, fun h => ?_, fun h => ?_⟩
  · rw [decode_opcode (by revert op; decide)]
    exact decodeOp_shift_unlisted d _ rest hop h
  · rw [decode_opcode (by revert op; decide)]
    exact decodeOp_arith_unlisted d _ rest hop h
  · rw [decode_opcode rfl]
    exact decRM_unlisted d _ rest (group00Digit_eq_none h)
  · rw [decode_opcode rfl]
    exact decRM_unlisted d _ rest (group01Digit_eq_none h)

end Sys2Proof
end

section
/-! Effective addresses and their segments (R74, R82 to R86). -/

namespace Sys2Proof.Machine

/-! ### Each term of an address, as a number modulo its size -/

theorem Regs.word_eq_ofNat (r : Regs) (n : RegNo) :
    r.word n = BitVec.ofNat 16 ((r.get32 n).toNat % 65536) := by
  apply BitVec.eq_of_toNat_eq
  simp [Regs.word, Regs.get]

/-- The registers of a 16-bit form are read as 16-bit values, so their upper halves do not count (R84). -/
theorem base16Value_eq_ofNat (r : Regs) (b : Base16) :
    base16Value r b = BitVec.ofNat 16 ((Spec.baseRegs b).map fun n => (r.get32 n).toNat % 65536).sum := by
  cases b <;> simp [base16Value, Spec.baseRegs, Regs.word_eq_ofNat, BitVec.ofNat_add]

theorem disp16Value_eq_ofInt (x : Disp16) : disp16Value x = BitVec.ofInt 16 (Spec.disp16Int x) := by
  cases x with
  | none => rfl
  | d8 v => rfl
  | d16 v => simp [disp16Value, Spec.disp16Int]

theorem disp32Value_eq_ofInt (x : Disp32) : disp32Value x = BitVec.ofInt 32 (Spec.disp32Int x) := by
  cases x with
  | none => rfl
  | d8 v => rfl
  | d32 v => simp [disp32Value, Spec.disp32Int]

theorem scaleFactor_eq (s : Scale) : scaleFactor s = BitVec.ofNat 32 (2 ^ s.toBits.toNat) := by
  cases s <;> rfl

theorem indexValue_eq_ofNat (r : Regs) (i : Option (RegNo × Scale)) :
    indexValue r i = BitVec.ofNat 32 (Spec.indexNat r i) := by
  match i with
  | none => rfl
  | some (n, s) => simp [indexValue, Spec.indexNat, scaleFactor_eq, BitVec.ofNat_mul]

/-! ### Their sum -/

/-- A natural number and a signed one are added modulo 2^n. -/
theorem toNat_ofNat_add_ofInt (n k : Nat) (z : Int) :
    ((BitVec.ofNat n k + BitVec.ofInt n z).toNat : Int) = (k + z) % (2 ^ n : Nat) := by
  have hpos : ((2 ^ n : Nat) : Int) ≠ 0 := Int.natCast_ne_zero.2 (Nat.two_pow_pos n).ne'
  rw [← BitVec.ofInt_natCast, ← BitVec.ofInt_add, BitVec.toNat_ofInt, Int.toNat_of_nonneg (Int.emod_nonneg _ hpos)]

/-- Settles O11: the model's sum of words is the sum of the numbers they stand for. -/
theorem effectiveAddress16 : Obligations.EffectiveAddress16 := by
  refine fun r b x => ⟨?_, fun v => rfl⟩
  rw [ea16, base16Value_eq_ofNat, disp16Value_eq_ofInt]
  exact toNat_ofNat_add_ofInt 16 _ _

/-- Settles O12: each term is the number of R85, and they are added modulo 2^32. -/
theorem effectiveAddress32 : Obligations.EffectiveAddress32 := by
  refine fun r b i x v => ⟨?_, ?_, ?_, rfl⟩
  · have hsum := toNat_ofNat_add_ofInt 32 (r.get32 b).toNat (Spec.disp32Int x)
    simpa [ea32, disp32Value_eq_ofInt] using hsum
  · have hsum := toNat_ofNat_add_ofInt 32 ((r.get32 b).toNat + Spec.indexNat r i) (Spec.disp32Int x)
    simpa [ea32, disp32Value_eq_ofInt, indexValue_eq_ofNat, BitVec.ofNat_add] using hsum
  · simp [ea32, indexValue_eq_ofNat]

/-- Settles O13, by cases on the base register, the only part the default segment looks at. -/
theorem segmentOfMemoryOperand : Obligations.SegmentOfMemoryOperand := by
  refine ⟨fun g a => rfl, fun b x => ?_, fun b x => ?_, fun b i x => ?_, fun i v u => ⟨rfl, rfl, rfl⟩⟩
  · cases b <;> rfl
  · cases b <;> rfl
  · cases b <;> rfl

end Sys2Proof.Machine
end

section
/-! A step runs the instruction its bytes decode to (R99), whatever name it has (R97). -/

namespace Sys2Proof.Machine

/-! ### Synonyms -/

theorem encoding_canonical (i : Instr) : i.canonical.encoding = i.encoding := by
  cases i <;> rfl

theorem encode_canonical (i : Instr) : encode i.canonical = encode i :=
  congrArg Encoding.bytes (encoding_canonical i)

theorem row_canonical (i : Instr) : Spec.row i.canonical = Spec.row i := by
  cases i <;> rfl

/-- Settles O9: the meaning of an instruction is that of its row, and a synonym names the row of its canonical
form. -/
theorem synonymsAgree : Obligations.SynonymsAgree := by
  refine fun i s => ⟨encode_canonical i, ?_⟩
  rw [exec_eq_runRow, exec_eq_runRow, row_canonical, Instr.length, encode_canonical, ← Instr.length]

/-! ### The bytes the fetch offers -/

/-- The bytes of an encoding that are neither prefixes nor of the ModRM operand. -/
theorem encoding_opcode_imm_length (i : Instr) : i.encoding.opcode.length + i.encoding.imm.length ≤ 5 := by
  cases i <;> exact Nat.le_of_ble_eq_true rfl

/-- The window of the fetch is long enough for every instruction (log entry 20). -/
theorem length_le_maxInstrBytes (i : Instr) : i.length ≤ maxInstrBytes := by
  have hmodrm : i.encoding.modrmBytes.length ≤ 6 := by
    simp only [Encoding.modrmBytes]
    split
    · exact (RM.enc_length _ _).2
    · simp
  have hop := Bool.toNat_le i.encoding.pfx.opSize
  have haddr := Bool.toNat_le i.encoding.pfx.addrSize
  have hseg := Bool.toNat_le (i.encoding.modrm.bind (·.2.override)).isSome
  have hrep := Bool.toNat_le i.encoding.rep.isSome
  have hrest := encoding_opcode_imm_length i
  rw [Instr.length, encode, Encoding.bytes_length, Encoding.prefixBytes_length, maxInstrBytes]
  omega

/-- Bytes that can be fetched one by one are the first that the fetch offers. -/
theorem State.fetchBytes_of_fetchByte {s : State} {bs : List Byte} {n off : Nat} (hlen : bs.length ≤ n)
    (h : ∀ k (hk : k < bs.length), s.fetchByte (off + k) = .ok bs[k]) :
    ∃ more, (s.fetchBytes n off).1 = bs ++ more := by
  induction bs generalizing n off with
  | nil => exact ⟨_, rfl⟩
  | cons b bs ih =>
    cases n with
    | zero => simp at hlen
    | succ n =>
      have hfirst : s.fetchByte off = .ok b := h 0 (by simp)
      obtain ⟨more, hmore⟩ := ih (n := n) (off := off + 1) (by simpa using hlen) fun k hk => by
        rw [Nat.add_assoc, Nat.add_comm 1 k]
        exact h (k + 1) (by simpa using hk)
      exact ⟨more, by simp [State.fetchBytes, hfirst, hmore]⟩

/-- Settles O1: the window begins with the bytes of the instruction, and what follows them does not matter. -/
theorem stepRunsDecodedInstruction : Obligations.StepRunsDecodedInstruction := by
  intro s bs i hf hend hdec hfetch
  have hlen : bs.length ≤ maxInstrBytes := by
    obtain ⟨-, -, hbs⟩ := decodedIsWellFormedAndMeasured _ _ _ _ hdec
    simpa [hbs] using length_le_maxInstrBytes i
  obtain ⟨more, hwindow⟩ : ∃ more, s.window.1 = bs ++ more := State.fetchBytes_of_fetchByte hlen hfetch
  refine step_fetched hf hend (State.fetchInstr_eq_ok.2 ⟨[] ++ more, ?_⟩)
  rw [hwindow]
  exact decode_extends _ _ _ _ _ hdec

/-! ### Words of the spec -/

/-- Settles O2: each word is the encoding of its instruction, so it decodes to it. -/
theorem sampleWordsDecode : Obligations.SampleWordsDecode :=
  ⟨decodeOfEncode .s16 (.sahf ⟨false, false⟩) [] rfl,
    decodeOfEncode .s32 (.shrRm32Imm8 ⟨false, false⟩ (.reg .n0) 0x1F#8) [] rfl,
    decodeOfEncode .s16
      (.subRm16Imm8 ⟨false, false⟩ (.mem ⟨none, .a16 (.based .bxsi (.d8 0x10#8))⟩) 0x05#8) [] rfl,
    decodeOfEncode .s32 (.sbbRm32Imm8 ⟨false, false⟩ (.reg .n3) 0xFF#8) [] rfl,
    decodeOfEncode .s16 (.scasb ⟨false, false⟩ (some .repne)) [] rfl,
    decodeOfEncode .s32 (.setg ⟨false, false⟩ (.reg .n0)) [] rfl,
    decodeOfEncode .s16 (.sidt ⟨false, false⟩ (.mem ⟨none, .a16 (.direct 0x2000#16)⟩)) [] rfl,
    decodeOfEncode .s32 (.shldRm32R32Imm8 ⟨false, false⟩ (.reg .n0) .n3 0x04#8) [] rfl,
    decodeOfEncode .s16 (.str ⟨false, false⟩ (.reg .n1)) [] rfl,
    decodeOfEncode .s32 (.stosw ⟨true, false⟩ true) [] rfl,
    decodeOfEncode .s32 (.subRm8R8 ⟨false, false⟩
      (.mem ⟨none, .a32 (.sib .n5 (some (.n1, .x4)) (.d32 0x12345678#32))⟩) .n0) [] rfl⟩

end Sys2Proof.Machine
end

section
/-! SAHF loads its flags from AH (R110). -/

namespace Sys2Proof.Machine

/-- AH is the second byte of EAX (R11). -/
theorem Regs.get_ah_getLsbD (r : Regs) {k : Nat} (hk : k < 8) :
    BitVec.getLsbD (w := 8) (r.get .w8 .n4) k = r.eax.getLsbD (8 + k) :=
  Regs.get_getLsbD .w8 r .n4 hk

/-- The load of R110, each flag from its bit of EAX. -/
theorem Flags.loadAH_ah (f : Flags) (r : Regs) : f.loadAH (r.get .w8 .n4) =
    { f with
      sf := r.eax.getLsbD 15
      zf := r.eax.getLsbD 14
      af := r.eax.getLsbD 12
      pf := r.eax.getLsbD 10
      cf := r.eax.getLsbD 8 } := by
  simp (disch := decide) only [Flags.loadAH, Regs.get_ah_getLsbD]

/-- Settles O29: the flags come from bits of EAX, the move of EIP is that of R14, and the one byte is the
encoding of SAHF without a prefix. -/
theorem sahfLoadsFlags : Obligations.SahfLoadsFlags := by
  refine ⟨fun p s => ?_, fun d rest => decodeOfEncode d (.sahf ⟨false, false⟩) rest rfl⟩
  rw [← complete_eq_advanced, ← Flags.loadAH_ah]
  exact exec_eq_runRow (.sahf p) s

end Sys2Proof.Machine
end

section
/-! The values, the carry and the overflow of the shifts, as numbers and as the source's loop (R114 to R121). -/

namespace Sys2Proof

theorem Width.one_lt_bits (w : Width) : 1 < w.bits := by cases w <;> decide

theorem Width.bits_pos (w : Width) : 0 < w.bits := Nat.zero_lt_of_lt w.one_lt_bits

end Sys2Proof

namespace Sys2Proof.Machine

/-! ### COUNT -/

/-- The bottom five bits of a byte are its number mod 32 (R114). -/
theorem extractLsb'_five_toNat (v : Byte) : (v.extractLsb' 0 5).toNat = v.toNat % 32 := by
  rw [BitVec.extractLsb'_toNat, Nat.shiftRight_zero]

/-- CL is the low byte of ECX (R11). -/
theorem Regs.get_cl_toNat (r : Regs) : (r.get .w8 .n1).toNat = r.ecx.toNat % 256 := by
  have hcl : r.get .w8 .n1 = r.ecx.extractLsb' 0 8 := rfl
  rw [hcl, BitVec.extractLsb'_toNat, Nat.shiftRight_zero]
  rfl

/-- Settles O25: each source offers a byte, of which COUNT is the number mod 32. -/
theorem countIsFiveBits : Obligations.CountIsFiveBits := by
  refine fun s v => ⟨rfl, ?_, extractLsb'_five_toNat v⟩
  calc CountSrc.count .cl s
      = (s.regs.get .w8 .n1).toNat % 32 := extractLsb'_five_toNat _
    _ = s.regs.ecx.toNat % 256 % 32 := by rw [Regs.get_cl_toNat]
    _ = s.regs.ecx.toNat % 32 := Nat.mod_mod_of_dvd _ (by decide)

/-! ### The closed forms as numbers -/

/-- The shifted bits are multiplication, division, and floor division of the signed number (R117 to R119). -/
theorem ShiftOp.result_eq_shiftValue {w : Width} (op : ShiftOp) (v : BitVec w.bits) (k : Nat) :
    op.result v k = Spec.shiftValue op v k := by
  cases op with
  | shl => exact BitVec.eq_of_toNat_eq (by simp [ShiftOp.result, Spec.shiftValue, Nat.shiftLeft_eq])
  | shr =>
    have hlt : v.toNat / 2 ^ k < 2 ^ w.bits := Nat.lt_of_le_of_lt (Nat.div_le_self _ _) v.isLt
    refine BitVec.eq_of_toNat_eq ?_
    simp [ShiftOp.result, Spec.shiftValue, Nat.shiftRight_eq_div_pow, Nat.mod_eq_of_lt hlt]
  | sar => simp [ShiftOp.result, Spec.shiftValue, BitVec.sshiftRight, Int.shiftRight_eq_div_pow]

/-- The last bit out is a bit of the operand's number (R117 to R119). -/
theorem ShiftOp.carry_eq_shiftCarry {w : Width} (op : ShiftOp) (v : BitVec w.bits) (k : Nat) :
    op.carry v k = Spec.shiftCarry op v k := by
  cases op with
  | shl | shr => by_cases hk : k ≤ w.bits <;> simp [ShiftOp.carry, Spec.shiftCarry, hk, BitVec.testBit_toNat]
  | sar => simp [ShiftOp.carry, Spec.shiftCarry, BitVec.testBit_toNat]

/-- A left shift by 1 brings the second highest bit to the top and the highest into CF (R116, R117). -/
theorem ShiftOp.overflow_eq_shiftOverflow {w : Width} (op : ShiftOp) (v : BitVec w.bits) :
    op.overflow v = Spec.shiftOverflow op v := by
  have hw := w.one_lt_bits
  cases op with
  | shl =>
    have hmsb : (ShiftOp.shl.result v 1).msb = v.getLsbD (w.bits - 2) := by
      rw [ShiftOp.result, BitVec.msb_shiftLeft, BitVec.getMsbD, decide_eq_true (by omega), Bool.true_and]; rfl
    have hcarry : ShiftOp.shl.carry v 1 = v.getLsbD (w.bits - 1) := if_pos (by omega)
    simp only [ShiftOp.overflow, hmsb, hcarry, Spec.shiftOverflow, BitVec.testBit_toNat]
  | shr => simp only [ShiftOp.overflow, Spec.shiftOverflow, BitVec.testBit_toNat, BitVec.msb_eq_getLsbD_last]
  | sar => rfl

/-! ### A shift by COUNT as COUNT shifts by 1 (R121) -/

section
variable {n : Nat} (op : ShiftOp) (v : BitVec n)

theorem ShiftOp.result_zero : op.result v 0 = v := by
  cases op <;> simp [ShiftOp.result]

theorem ShiftOp.result_succ (k : Nat) : op.result v (k + 1) = op.result (op.result v k) 1 := by
  cases op with
  | shl => exact BitVec.shiftLeft_add v k 1
  | shr => exact BitVec.shiftRight_add v k 1
  | sar => exact BitVec.sshiftRight_add

/-- A left shift takes its last bit from the top (R117). -/
theorem ShiftOp.carry_shl_succ (k : Nat) : ShiftOp.shl.carry v (k + 1) = v.getMsbD k := by
  by_cases hk : k < n
  · simp [ShiftOp.carry, BitVec.getMsbD, hk, Nat.sub_add_eq, Nat.sub_right_comm]
  · simp [ShiftOp.carry, BitVec.getMsbD, hk]

/-- A logical right shift takes its last bit from bit COUNT - 1, of which a wide COUNT leaves none (R118). -/
theorem ShiftOp.carry_shr_succ (k : Nat) : ShiftOp.shr.carry v (k + 1) = v.getLsbD k := by
  by_cases hk : k < n
  · exact if_pos hk
  · exact (if_neg hk).trans (v.getLsbD_of_ge k (Nat.not_lt.1 hk)).symm

/-- An arithmetic right shift takes its last bit from the value extended by its sign (R119). -/
theorem ShiftOp.carry_sar_succ (hn : 0 < n) (k : Nat) :
    ShiftOp.sar.carry v (k + 1) = (v.sshiftRight k).getLsbD 0 := by
  by_cases hk : k < n
  · simp [ShiftOp.carry, BitVec.getLsbD_sshiftRight, hk, hn.ne']
  · simp [ShiftOp.carry, BitVec.getLsbD_sshiftRight, BitVec.msb_eq_getLsbD_last, hk, hn.ne',
      Nat.min_eq_right (Nat.le_succ_of_le (Nat.not_lt.1 hk))]

/-- The last bit out is the one bit that a shift by 1 takes out of the value shifted until then. -/
theorem ShiftOp.carry_succ (hn : 0 < n) (k : Nat) : op.carry v (k + 1) = op.carry (op.result v k) 1 := by
  cases op with
  | shl =>
    rw [carry_shl_succ, carry_shl_succ _ 0, ← BitVec.msb_eq_getMsbD_zero, ShiftOp.result, BitVec.msb_shiftLeft]
  | shr => rw [carry_shr_succ, carry_shr_succ _ 0, ShiftOp.result, BitVec.getLsbD_ushiftRight, Nat.add_zero]
  | sar => rw [carry_sar_succ v hn, carry_sar_succ _ hn 0, ShiftOp.result, BitVec.sshiftRight_zero]

end

/-- One pass of the source's loop is a shift by 1 (R115). -/
theorem shiftStep_eq {w : Width} (op : ShiftOp) (x : BitVec w.bits × Bool) :
    Spec.shiftStep op x = (op.result x.1 1, op.carry x.1 1) := by
  rw [op.result_eq_shiftValue]
  cases op with
  | shl => rw [ShiftOp.carry_shl_succ _ 0, ← BitVec.msb_eq_getMsbD_zero]; rfl
  | shr => rw [ShiftOp.carry_shr_succ _ 0]; rfl
  | sar => rw [ShiftOp.carry_sar_succ _ w.bits_pos 0, BitVec.sshiftRight_zero]; rfl

/-- The closed forms are the source's loop run at least once. -/
theorem shiftStep_iterate_succ {w : Width} (op : ShiftOp) (v : BitVec w.bits) (c : Bool) (k : Nat) :
    (Spec.shiftStep op)^[k + 1] (v, c) = (op.result v (k + 1), op.carry v (k + 1)) := by
  induction k with
  | zero => rw [Function.iterate_one, shiftStep_eq]
  | succ k ih =>
    rw [Function.iterate_succ_apply', ih, shiftStep_eq, ← op.result_succ, ← op.carry_succ v w.bits_pos]

end Sys2Proof.Machine
end

section
/-! The shift instructions (R113 to R121): result and flags, COUNT 0, OF of a single shift, and the forms that
agree. -/

namespace Sys2Proof.Machine

/-- The meaning of a shift's row. -/
theorem exec_of_row_shift {i : Instr} {op : ShiftOp} {w : Width} {src : CountSrc} {rm : RM}
    (h : Spec.row i = .shift op w src rm) (s : State) :
    exec i s = settle s (shiftRM op w src rm i.length s) := by
  rw [exec_eq_runRow, h]; rfl

/-! ### An operand that can be read and written -/

section
variable {i : Instr} {s : State} {op : ShiftOp} {w : Width} {src : CountSrc} {rm : RM} {v : BitVec w.bits}
  {pl : Place} (hrow : Spec.row i = .shift op w src rm) (hv : s.readRM w rm = .ok v)
  (hpl : s.rmPlace w rm = .ok pl)
include hrow hv hpl

/-- COUNT 0 (R115, D19). -/
theorem exec_shift_of_count_zero (hc : src.count s = 0) :
    exec i s = .next (Spec.advanced i (s.put w pl v)) := by
  rw [exec_of_row_shift hrow, shiftRM_eq_ok.2 ⟨v, pl, hv, hpl, rfl⟩, if_pos hc, settle_ok, complete_eq_advanced]

/-- COUNT at least 1, with the draws of the flags that R115 leaves undefined. -/
theorem exec_shift_of_count_ne_zero (hc : src.count s ≠ 0) :
    exec i s = .next (Spec.advanced i { s.put w pl (op.result v (src.count s)) with
      flags := shiftFlags op v (src.count s) s.draws s.flags
      draws := s.draws + shiftDraws (src.count s) }) := by
  rw [exec_of_row_shift hrow, shiftRM_eq_ok.2 ⟨v, pl, hv, hpl, rfl⟩, if_neg hc, settle_ok, complete_eq_advanced]

end

/-- Settles O35: the first branch of the shifts' common shape (D19). -/
theorem shiftByZero : Obligations.ShiftByZero :=
  fun _ _ _ _ _ _ _ _ hrow hv hpl hc => exec_shift_of_count_zero hrow hv hpl hc

/-- The flags of R115 and R116 on numbers: AF is the first draw, and OF the second where COUNT is not 1. -/
theorem shiftFlags_eq {w : Width} (op : ShiftOp) (v : BitVec w.bits) (count k : Nat) (f : Flags) :
    shiftFlags op v count k f = { Spec.szp w (Spec.shiftValue op v count).toNat f with
      cf := Spec.shiftCarry op v count
      af := Config.drawBit k
      ofl := if count = 1 then Spec.shiftOverflow op v else Config.drawBit (k + 1) } := by
  rw [shiftFlags, Flags.setSZP_eq_szp, op.result_eq_shiftValue, op.carry_eq_shiftCarry,
    op.overflow_eq_shiftOverflow]

/-- Settles O34: the meaning of the row, with the closed forms read as numbers. -/
theorem shiftResult : Obligations.ShiftResult := by
  intro i s op w src rm v pl hrow hv hpl hc
  refine ⟨Config.drawBit s.draws, Config.drawBit (s.draws + 1), s.draws + shiftDraws (src.count s), ?_⟩
  rw [exec_shift_of_count_ne_zero hrow hv hpl hc, shiftFlags_eq, op.result_eq_shiftValue]

/-- Settles O36: OF is the second reading of R116 by definition, the first by the bits that a left shift by 1
moves. -/
theorem overflowOfSingleShift : Obligations.OverflowOfSingleShift := by
  intro i s op w src rm v pl hrow hv hpl hc
  have hofl : (shiftFlags op v 1 s.draws s.flags).ofl = op.overflow v := rfl
  refine ⟨_, exec_shift_of_count_ne_zero hrow hv hpl (by omega), ?_⟩
  rw [hc]
  refine ⟨hofl.trans (op.overflow_eq_shiftOverflow v), ?_, ?_, ?_⟩ <;> (rintro rfl; exact hofl)

/-! ### The forms that agree -/

/-- Of its count's source a shift uses COUNT only. -/
theorem shiftRM_of_count_eq {s : State} {src src' : CountSrc} (h : src.count s = src'.count s) (op : ShiftOp)
    (w : Width) (rm : RM) (len : Nat) : shiftRM op w src rm len s = shiftRM op w src' rm len s := by
  simp only [shiftRM, h]

/-- What stops a shift stops it at any length. -/
theorem shiftRM_error_of_error {op : ShiftOp} {w : Width} {src : CountSrc} {rm : RM} {len : Nat} {s : State}
    {e : Stop} (h : shiftRM op w src rm len s = .error e) (len' : Nat) :
    shiftRM op w src rm len' s = .error e := by
  simp only [shiftRM, Res.bind_eq_error] at h ⊢
  rcases h with h | ⟨u, hu, h | ⟨v, hv, h | ⟨pl, hpl, h⟩⟩⟩
  · exact .inl h
  · exact .inr ⟨u, hu, .inl h⟩
  · exact .inr ⟨u, hu, .inr ⟨v, hv, .inl h⟩⟩
  · split at h <;> cases h

theorem sameButEipAndAf_refl (o : Host.Outcome State Fault Refusal) : Spec.sameButEipAndAf o o := by
  cases o <;> rfl

/-- The length of a shift decides where EIP goes and nothing else. -/
theorem shiftRM_sameButEipAndAf_length (op : ShiftOp) (w : Width) (src : CountSrc) (rm : RM) (len len' : Nat)
    (s : State) :
    Spec.sameButEipAndAf (settle s (shiftRM op w src rm len s)) (settle s (shiftRM op w src rm len' s)) := by
  cases h : shiftRM op w src rm len s with
  | ok t =>
    obtain ⟨v, pl, hv, hpl, rfl⟩ := shiftRM_eq_ok.1 h
    rw [shiftRM_eq_ok.2 ⟨v, pl, hv, hpl, rfl⟩]
    split <;> rfl
  | error e =>
    rw [shiftRM_error_of_error h len']
    exact sameButEipAndAf_refl _

/-- Settles O26: each pass of the loop is a shift by 1, and the closed form of COUNT + 1 is one more of them;
forms with one COUNT are the same operation but for their length. -/
theorem shiftEquivalences : Obligations.ShiftEquivalences := by
  refine ⟨fun w op v c k => ?_, fun i j s op w src rm hi hj hc => ?_⟩
  · exact ⟨by rw [op.result_zero]; rfl, shiftStep_iterate_succ op v c k, op.result_succ v k,
      op.carry_succ v w.bits_pos k⟩
  · have hcount : CountSrc.count .one s = src.count s := hc.symm
    rw [exec_of_row_shift hi, exec_of_row_shift hj, shiftRM_of_count_eq hcount]
    exact shiftRM_sameButEipAndAf_length op w src rm i.length j.length s

end Sys2Proof.Machine
end

section
/-! SBB and SUB (R130 to R135, R210 to R215): the three places the difference goes to. -/

namespace Sys2Proof.Machine

/-- The borrow of SBB is CF, that of SUB 0 (R130, R210). -/
theorem borrow_toNat (c : Bool) (s : State) : (c && s.flags.cf).toNat = Spec.borrowIn c s := by
  cases c <;> rfl

/-- The difference with the borrow of SBB or SUB, and its flags, on unbounded numbers (R18). -/
theorem subtraction_eq_spec {w : Width} (s : State) (c : Bool) (a b : BitVec w.bits) :
    subResult a b (c && s.flags.cf) = Spec.subValue a b (Spec.borrowIn c s)
      ∧ s.flags.setSub a b (c && s.flags.cf) = Spec.subFlags a b (Spec.borrowIn c s) s.flags := by
  rw [← borrow_toNat]
  exact subtractionFlags w s.flags a b _

/-- Settles O37: with the accumulator as destination there is no operand to check, so the row always completes. -/
theorem subtractFromAccumulator : Obligations.SubtractFromAccumulator := by
  intro i s w c imm hrow
  obtain ⟨hvalue, hflags⟩ := subtraction_eq_spec s c (s.regs.get w .n0) imm
  rw [exec_eq_runRow, hrow, runRow, subAcc, complete_eq_advanced, State.acc, hvalue, hflags]

/-- Settles O38: an operand that can be read and written takes the one path on which the row completes. -/
theorem subtractFromRM : Obligations.SubtractFromRM := by
  intro i s w c rm src a pl hrow ha hpl
  obtain ⟨hvalue, hflags⟩ := subtraction_eq_spec s c a (Spec.subSrcValue s src)
  rw [exec_eq_runRow, hrow, runRow, subToRM_eq_ok.2 ⟨a, pl, ha, hpl, rfl⟩, settle_ok, complete_eq_advanced,
    hvalue, hflags]

/-- Settles O39: the register is the minuend (C4), and reading the operand is the only check. -/
theorem subtractRMFromRegister : Obligations.SubtractRMFromRegister := by
  intro i s w c r rm b hrow hb
  obtain ⟨hvalue, hflags⟩ := subtraction_eq_spec s c (s.regs.get w r) b
  rw [exec_eq_runRow, hrow, runRow, subFromRM_eq_ok.2 ⟨b, hb, rfl⟩, settle_ok, complete_eq_advanced, hvalue,
    hflags]

end Sys2Proof.Machine
end

section
/-! The index and the count of SCAS and STOS as numbers (R141, R147, R204). -/

namespace Sys2Proof.Machine

/-- IndexUpdate moves (E)DI by the signed size of an element (R141). -/
theorem Regs.stepIndex_eq_movedIndex (r : Regs) (a : Size) (df : Bool) (n : Nat) :
    r.stepIndex a df n = Spec.movedIndex a df n r := by
  have hmove : ∀ {m : Nat} (x : BitVec m),
      (if df then x - BitVec.ofNat m n else x + BitVec.ofNat m n)
        = BitVec.ofInt m (x.toNat + if df then -(n : Int) else n) := by
    intro m x
    cases df <;> simp [BitVec.ofInt_add, BitVec.ofInt_neg, BitVec.sub_eq_add_neg]
  cases a <;> exact congrArg (r.put _ .n7) (hmove _)

/-- (E)DI moves without touching the count. -/
theorem countOf_movedIndex (a b : Size) (df : Bool) (n : Nat) (r : Regs) :
    Spec.countOf a (Spec.movedIndex b df n r) = Spec.countOf a r := by
  have hecx : (Spec.movedIndex b df n r).ecx = r.ecx := by
    rw [← Regs.stepIndex_eq_movedIndex, stepIndex_ecx]
  simp only [Spec.countOf, hecx]

/-- A count that is not 0 does not wrap when it goes down by 1. -/
theorem State.repCount_sub_one_toNat {s : State} {a : Size} (h : Spec.countOf a s.regs ≠ 0) :
    (s.repCount a - BitVec.ofNat _ 1).toNat = Spec.countOf a s.regs - 1 := by
  have hone : (BitVec.ofNat (addrWidth a).bits 1).toNat = 1 := by cases a <;> rfl
  rw [← State.repCount_toNat] at h ⊢
  rw [BitVec.toNat_sub_of_le (by rw [BitVec.le_def, hone]; omega), hone]

/-- Counting down writes CX or ECX less 1 (R147, R204). -/
theorem State.decCount_eq_withCount {s : State} {a : Size} (h : Spec.countOf a s.regs ≠ 0) :
    s.decCount a = { s with regs := Spec.withCount a (Spec.countOf a s.regs - 1) s.regs } := by
  rw [← State.repCount_sub_one_toNat h]
  cases a <;> simp only [State.decCount, Spec.withCount, BitVec.ofNat_toNat, BitVec.setWidth_eq]

/-- The count is used up exactly when it was 1. -/
theorem State.repCount_decCount_eq_zero_iff {s : State} {a : Size} (h : Spec.countOf a s.regs ≠ 0) :
    (s.decCount a).repCount a = 0 ↔ Spec.countOf a s.regs - 1 = 0 := by
  have hcount : (s.decCount a).repCount a = s.repCount a - BitVec.ofNat _ 1 := Regs.get_put_same ..
  rw [hcount, ← State.repCount_sub_one_toNat h, ← BitVec.toNat_inj]
  rfl

end Sys2Proof.Machine
end

section
/-! SCAS without and with a repeat prefix (R140 to R147). -/

namespace Sys2Proof.Machine

/-- The state after one comparison with the element `m`, EIP and the count aside (R141 to R144). -/
def State.scanned (s : State) (w : Width) (a : Size) (m : BitVec w.bits) : State :=
  { s with
    flags := Spec.subFlags (s.regs.get w .n0) m 0 s.flags
    regs := Spec.movedIndex a s.flags.df w.bytes s.regs }

/-- An element that can be read is compared, without a borrow. -/
theorem scasBody_eq_scanned {w : Width} {a : Size} {s : State} {m : BitVec w.bits}
    (hm : s.readSeg w .es (s.index a) = .ok m) : scasBody w a s = .ok (s.scanned w a m) := by
  have hflags : s.flags.setSub (s.acc w) m false = Spec.subFlags (s.regs.get w .n0) m 0 s.flags :=
    s.flags.setSub_eq_subFlags w _ m false
  rw [State.scanned, ← hflags, ← Regs.stepIndex_eq_movedIndex]
  exact scasBody_eq_ok.2 ⟨m, hm, rfl⟩

/-- REPE ends on ZF = 0, REPNE on ZF = 1 (R147). -/
theorem repEnds_iff {k : RepCond} {zf : Bool} :
    repEnds k zf = true ↔ (k = .repe ∧ zf = false) ∨ (k = .repne ∧ zf = true) := by
  cases k <;> simp [repEnds]

/-- Settles O40: the element's read is the only check. -/
theorem scasOnce : Obligations.ScasOnce := by
  intro i s w p m hrow hm
  have hscas := (scas_eq_ok (len := i.length)).2 (.inl ⟨rfl, _, scasBody_eq_scanned hm, rfl⟩)
  rw [exec_eq_runRow, hrow, runRow, hscas, settle_ok, complete_eq_advanced, State.scanned]

/-- Settles O41: the comparison leaves the count, so the count it ends on is the first one less 1. -/
theorem scasRepeated : Obligations.ScasRepeated := by
  intro i s w p k hrow
  rw [exec_eq_runRow, hrow, runRow]
  refine ⟨fun hzero => ?_, fun m hcount hm => ?_⟩
  · have hscas := (scas_eq_ok (w := w) (len := i.length)).2
      (.inr ⟨k, rfl, .inl ⟨State.repCount_eq_zero_iff.2 hzero, rfl⟩⟩)
    rw [hscas, settle_ok, complete_eq_advanced]
  · have hsame : Spec.countOf (s.addressSize p) (s.scanned w (s.addressSize p) m).regs
        = Spec.countOf (s.addressSize p) s.regs := countOf_movedIndex ..
    have hleft := hsame.trans_ne hcount
    have hscas := (scas_eq_ok (len := i.length)).2 (.inr ⟨k, rfl, .inr
      ⟨State.repCount_eq_zero_iff.not.2 hcount, _, scasBody_eq_scanned hm, rfl⟩⟩)
    rw [hscas, settle_ok, complete_eq_advanced]
    simp only [repEnds_iff, State.repCount_decCount_eq_zero_iff hleft]
    rw [State.decCount_eq_withCount hleft, hsame]
    rfl

end Sys2Proof.Machine
end

section
/-! SETcc and the conditions (R150 to R167). -/

namespace Sys2Proof.Machine

/-! ### The sixteen conditions (R151) -/

theorem Cond.holds_iff_condTrue (f : Flags) (c : Cond) : c.holds f = true ↔ Spec.condTrue f c := by
  cases c <;> simp [Cond.holds, Spec.condTrue]

theorem Cond.holds_eq_not_condNot (f : Flags) (c : Cond) : c.holds f = !(Spec.condNot c).holds f := by
  cases c <;> simp [Cond.holds, Spec.condNot, bne]

theorem Cond.holds_iff_not_condNot (f : Flags) (c : Cond) :
    c.holds f = true ↔ ¬ (Spec.condNot c).holds f = true := by
  rw [c.holds_eq_not_condNot, Bool.not_eq_true', Bool.not_eq_true]

theorem Cond.holds_be_iff (f : Flags) : Cond.be.holds f = true ↔ Cond.b.holds f = true ∨ Cond.e.holds f = true :=
  Bool.or_eq_true_iff

theorem Cond.holds_le_iff (f : Flags) : Cond.le.holds f = true ↔ Cond.l.holds f = true ∨ Cond.e.holds f = true :=
  Bool.or_eq_true_iff.trans or_comm

/-! ### The conditions after `a - b` (R151, R18): B, E and L decide the other seven -/

section
variable {n : Nat} (f : Flags) (a b : BitVec n)

theorem Cond.holds_b_setSub : Cond.b.holds (f.setSub a b false) = true ↔ a.toNat < b.toNat := by
  simp [Cond.holds]

theorem Cond.holds_e_setSub : Cond.e.holds (f.setSub a b false) = true ↔ a = b := by
  simp [Cond.holds, subResult, BitVec.sub_eq_iff_eq_add]

/-- SF is the sign of the reduced difference, and OF says whether it is the wrong one. -/
theorem Cond.holds_l_setSub (hn : 1 ≤ n) : Cond.l.holds (f.setSub a b false) = true ↔ a.toInt < b.toInt := by
  rw [Cond.holds, bne_iff_ne, Flags.setSub_sf, Flags.setSub_ofl, subResult_overflow hn, BitVec.msb_eq_decide,
    Ne, decide_eq_decide]
  obtain ⟨m, rfl⟩ := Nat.exists_eq_add_of_le' hn
  have hbal := subResult_balance a b false
  have ha := toInt_cases a
  have hb := toInt_cases b
  have hspan : (2 : Int) ^ m = (2 ^ m : Nat) := by norm_cast
  rw [Nat.pow_succ', Bool.toNat_false] at hbal
  rw [Nat.add_sub_cancel, hspan, Bool.toNat_false]
  split at hbal <;> omega

end

/-- Settles O24: each condition is read off the flags by cases, and after `a - b` the ten are B, E, L, a disjunction
of two of these, or the negation of one already read. -/
theorem conditionsCompare : Obligations.ConditionsCompare := by
  refine ⟨fun f c => ⟨c.holds_iff_condTrue f, c.holds_eq_not_condNot f⟩, fun w f a b => ?_⟩
  intro g
  have hb : Cond.b.holds g = true ↔ a.toNat < b.toNat := Cond.holds_b_setSub f a b
  have he : Cond.e.holds g = true ↔ a = b := Cond.holds_e_setSub f a b
  have hl : Cond.l.holds g = true ↔ a.toInt < b.toInt := Cond.holds_l_setSub f a b w.bits_pos
  have hbe : Cond.be.holds g = true ↔ a.toNat ≤ b.toNat := by
    rw [Cond.holds_be_iff, hb, he, Nat.le_iff_lt_or_eq, BitVec.toNat_inj]
  have hle : Cond.le.holds g = true ↔ a.toInt ≤ b.toInt := by
    rw [Cond.holds_le_iff, hl, he, Int.le_iff_lt_or_eq, BitVec.toInt_inj]
  have hnot := Cond.holds_iff_not_condNot g
  exact ⟨hb, (hnot .a).trans (hbe.not.trans Nat.not_le), hbe, (hnot .ae).trans (hb.not.trans Nat.not_lt), he,
    (hnot .ne).trans he.not, hl, (hnot .g).trans (hle.not.trans Int.not_le), hle,
    (hnot .ge).trans (hl.not.trans Int.not_lt)⟩

/-! ### SETcc (R150) -/

theorem condByte_of_condTrue {c : Cond} {f : Flags} (h : Spec.condTrue f c) : condByte c f = 0x01#8 :=
  if_pos ((c.holds_iff_condTrue f).2 h)

theorem condByte_of_not_condTrue {c : Cond} {f : Flags} (h : ¬ Spec.condTrue f c) : condByte c f = 0x00#8 :=
  if_neg ((c.holds_iff_condTrue f).not.2 h)

/-- Settles O44: writing the destination is the only check, and the byte written is that of the condition. -/
theorem setccStoresCondition : Obligations.SetccStoresCondition := by
  intro i s c rm pl hrow hpl
  refine ⟨condByte c s.flags, ?_, condByte_of_condTrue, condByte_of_not_condTrue⟩
  rw [exec_eq_runRow, hrow, runRow, setcc_eq_ok.2 ⟨pl, hpl, rfl⟩, settle_ok, complete_eq_advanced]

end Sys2Proof.Machine
end

section
/-! The six bytes of SGDT and SIDT (R170 to R173). -/

namespace Sys2Proof.Machine

/-- The bytes of a word as a number are its slices of eight bits, lowest first (R45). -/
theorem numBytes_toNat {m : Nat} (v : BitVec m) (n : Nat) :
    numBytes n v.toNat = (List.range n).map fun k => v.extractLsb' (8 * k) 8 := by
  refine List.ext_getElem (by simp) fun k hk _ => BitVec.eq_of_toNat_eq ?_
  rw [numBytes_getElem n v.toNat k hk, List.getElem_map, List.getElem_range, BitVec.extractLsb'_toNat,
    BitVec.toNat_ofNat, Nat.shiftRight_eq_div_pow]

/-- Byte 5, the one that depends on the operand size (R172). -/
def tableTopByte (z : Size) (top : Sgdt16Top) (base : DWord) (draws : Nat) : Byte :=
  match z, top with
  | .s32, _ => base.extractLsb' 24 8
  | .s16, .byte b => b
  | .s16, .draw => Config.drawByte draws

/-- At both operand sizes the bytes below byte 5 are BASE[23:0]. -/
theorem tableBaseImage_eq_append (z : Size) (top : Sgdt16Top) (base : DWord) (draws : Nat) :
    tableBaseImage z top base draws = tableTopByte z top base draws ++ base.extractLsb' 0 24 := by
  match z, top with
  | .s32, _ =>
    change base = base.extractLsb' 24 8 ++ base.extractLsb' 0 24
    rw [BitVec.extractLsb'_append_extractLsb'_eq_extractLsb' (by decide)]
    exact BitVec.extractLsb'_eq_self.symm
  | .s16, .byte _ => rfl
  | .s16, .draw => rfl

/-- The six bytes, lowest first: LIMIT, BASE[23:0] and byte 5 (R172). -/
theorem numBytes_tableImage (z : Size) (top : Sgdt16Top) (t : TableReg) (draws : Nat) :
    numBytes 6 (tableImage z top t draws).toNat
      = Spec.tableBytes5 t ++ [tableTopByte z top t.base draws] := by
  have hlimit : ∀ k, k + 8 ≤ 16 →
      (tableImage z top t draws).extractLsb' k 8 = t.limit.extractLsb' k 8 := fun k hk =>
    BitVec.extractLsb'_append_eq_of_add_le hk
  have himage : ∀ k, (tableImage z top t draws).extractLsb' (16 + k) 8
      = (tableTopByte z top t.base draws ++ t.base.extractLsb' 0 24).extractLsb' k 8 := fun k => by
    rw [tableImage, tableBaseImage_eq_append, BitVec.extractLsb'_append_eq_of_le (Nat.le_add_right 16 k),
      Nat.add_sub_cancel_left]
  have hbase : ∀ k, k + 8 ≤ 24 →
      (tableImage z top t draws).extractLsb' (16 + k) 8 = t.base.extractLsb' k 8 := fun k hk => by
    rw [himage, BitVec.extractLsb'_append_eq_of_add_le hk, BitVec.extractLsb'_extractLsb'_of_le hk]
  have htop : (tableImage z top t draws).extractLsb' (16 + 24) 8 = tableTopByte z top t.base draws :=
    (himage 24).trans BitVec.extractLsb'_append_eq_left
  rw [numBytes_toNat, Spec.tableBytes5, ← hlimit 0 (by decide), ← hlimit 8 (by decide), ← hbase 0 (by decide),
    ← hbase 8 (by decide), ← hbase 16 (by decide), ← htop]
  rfl

/-- Settles O45: the write check of the six bytes is the only one, and the bytes are those of the image. -/
theorem tableStoreLayout : Obligations.TableStoreLayout := by
  intro i s tn p m as hrow has
  have hlen : as.length = 6 := State.operandAddrs_length (State.storeAddrs_eq_ok.1 has).1
  refine ⟨tableTopByte (s.operandSize p) s.sgdt16Top (Spec.tableValue s tn).base s.draws,
    s.draws + tableDraws (s.operandSize p) s.sgdt16Top, ?_, fun hsize => ?_, fun b hsize htop => ?_⟩
  · rw [exec_eq_runRow, hrow, runRow, storeTable_eq_ok.2 ⟨m, as, rfl, has, rfl⟩, settle_ok, complete_eq_advanced,
      State.storeAt, hlen, numBytes_tableImage]
  · rw [hsize, tableTopByte]
  · rw [hsize, htop, tableTopByte]

end Sys2Proof.Machine
end

section
/-! The closed forms of SHLD and SHRD (R179, R180, R182, R183). -/

namespace Sys2Proof.Machine

/-! ### SHRD is SHLD of the other operand by the rest of the width -/

theorem DShiftOp.result_shrd_eq_shld {n s : Nat} (hs : s ≤ n) (v x : BitVec n) :
    DShiftOp.shrd.result v x s = DShiftOp.shld.result x v (n - s) := by
  rw [DShiftOp.result, DShiftOp.result, Nat.sub_sub_self hs, BitVec.or_comm]

theorem dshiftValue_shrd_eq_shld {w : Width} {s : Nat} (hs : s ≤ w.bits) (v x : BitVec w.bits) :
    Spec.dshiftValue .shrd v x s = Spec.dshiftValue .shld x v (w.bits - s) := by
  rw [Spec.dshiftValue, Spec.dshiftValue, Nat.sub_sub_self hs]

/-! ### The bits that come from each operand -/

section
variable {n s k : Nat} (v x : BitVec n)

theorem DShiftOp.getLsbD_shld_of_lt (hs : s ≤ n) (hk : k < s) :
    (DShiftOp.shld.result v x s).getLsbD k = x.getLsbD (k + n - s) := by
  have hright : n - s + k = k + n - s := by omega
  simp [DShiftOp.result, hk, hright]

theorem DShiftOp.getLsbD_shld_of_le (hk : s ≤ k) (hkn : k < n) :
    (DShiftOp.shld.result v x s).getLsbD k = v.getLsbD (k - s) := by
  have hright : x.getLsbD (n - s + k) = false := x.getLsbD_of_ge _ (by omega)
  rw [DShiftOp.result, BitVec.getLsbD_or, BitVec.getLsbD_shiftLeft, BitVec.getLsbD_ushiftRight, hright]
  simp only [hkn, Nat.not_lt.2 hk, decide_true, decide_false, Bool.not_false, Bool.true_and, Bool.or_false]

theorem DShiftOp.getLsbD_shrd_of_lt (hs : s ≤ n) (hk : k < n - s) :
    (DShiftOp.shrd.result v x s).getLsbD k = v.getLsbD (k + s) := by
  have hindex : k + n - (n - s) = k + s := by omega
  rw [result_shrd_eq_shld hs, getLsbD_shld_of_lt x v (Nat.sub_le n s) hk, hindex]

theorem DShiftOp.getLsbD_shrd_of_le (hs : s ≤ n) (hk : n - s ≤ k) (hkn : k < n) :
    (DShiftOp.shrd.result v x s).getLsbD k = x.getLsbD (k + s - n) := by
  have hindex : k - (n - s) = k + s - n := by omega
  rw [result_shrd_eq_shld hs, getLsbD_shld_of_le x v hk hkn, hindex]

end

/-! ### The slice of the concatenation -/

/-- A bit of the slice is a bit of the concatenation: of its lower half below N, else of its upper half (R180). -/
theorem getLsbD_dshiftValue_shld {w : Width} {k : Nat} (hk : k < w.bits) (v x : BitVec w.bits) (s : Nat) :
    (Spec.dshiftValue .shld v x s).getLsbD k =
      if w.bits - s + k < w.bits then x.getLsbD (w.bits - s + k) else v.getLsbD (w.bits - s + k - w.bits) := by
  rw [Spec.dshiftValue, BitVec.getLsbD_ofNat, decide_eq_true hk, Bool.true_and, Nat.testBit_div_two_pow,
    Nat.mul_comm v.toNat, Nat.testBit_two_pow_mul_add _ x.isLt, Nat.add_comm k]
  rfl

theorem DShiftOp.shld_eq_dshiftValue {w : Width} {s : Nat} (hs : s ≤ w.bits) (v x : BitVec w.bits) :
    DShiftOp.shld.result v x s = Spec.dshiftValue .shld v x s := by
  refine BitVec.eq_of_getLsbD_eq fun k hk => ?_
  rw [getLsbD_dshiftValue_shld hk]
  by_cases hks : k < s
  · have hindex : w.bits - s + k = k + w.bits - s := by omega
    rw [getLsbD_shld_of_lt v x hs hks, if_pos (by omega), hindex]
  · have hindex : w.bits - s + k - w.bits = k - s := by omega
    rw [getLsbD_shld_of_le v x (Nat.not_lt.1 hks) hk, if_neg (by omega), hindex]

theorem DShiftOp.result_eq_dshiftValue {w : Width} {s : Nat} (hs : s ≤ w.bits) (op : DShiftOp)
    (v x : BitVec w.bits) : op.result v x s = Spec.dshiftValue op v x s := by
  cases op with
  | shld => exact shld_eq_dshiftValue hs v x
  | shrd => rw [result_shrd_eq_shld hs, dshiftValue_shrd_eq_shld hs, shld_eq_dshiftValue (Nat.sub_le _ s)]

/-! ### The two halves as numbers -/

theorem DShiftOp.toNat_shld {n : Nat} (v x : BitVec n) (s : Nat) :
    (DShiftOp.shld.result v x s).toNat = v.toNat * 2 ^ s % 2 ^ n ||| x.toNat / 2 ^ (n - s) := by
  rw [DShiftOp.result, BitVec.toNat_or, BitVec.toNat_shiftLeft, BitVec.toNat_ushiftRight, Nat.shiftLeft_eq,
    Nat.shiftRight_eq_div_pow]

theorem DShiftOp.toNat_shrd {n s : Nat} (hs : s ≤ n) (v x : BitVec n) :
    (DShiftOp.shrd.result v x s).toNat = v.toNat / 2 ^ s ||| x.toNat * 2 ^ (n - s) % 2 ^ n := by
  rw [result_shrd_eq_shld hs, toNat_shld, Nat.sub_sub_self hs, Nat.or_comm]

/-- Settles O27: the slice agrees with the two shifts bit by bit. -/
theorem shldClosedForm : Obligations.ShldClosedForm := fun _ v x s _ hs =>
  ⟨DShiftOp.shld_eq_dshiftValue hs.le v x, DShiftOp.toNat_shld v x s,
    fun _ => DShiftOp.getLsbD_shld_of_le v x, fun _ => DShiftOp.getLsbD_shld_of_lt v x hs.le, rfl⟩

/-- Settles O28: SHRD by s is SHLD by N - s with the operands exchanged. -/
theorem shrdClosedForm : Obligations.ShrdClosedForm := fun _ v x _ _ hs =>
  ⟨DShiftOp.result_eq_dshiftValue hs.le .shrd v x, DShiftOp.toNat_shrd hs.le v x,
    fun _ => DShiftOp.getLsbD_shrd_of_lt v x hs.le, fun _ => DShiftOp.getLsbD_shrd_of_le v x hs.le, rfl⟩

end Sys2Proof.Machine
end

section
/-! The instructions SHLD and SHRD (R176 to R183): the write check, then one of three cases by ShiftAmt. -/

namespace Sys2Proof.Machine

/-! ### Operand sizes and counts -/

/-- SHLD and SHRD have operands of 16 or 32 bits (R179, R182). -/
theorem width_of_row_dshift {i : Instr} {op : DShiftOp} {w : Width} {src : CountSrc} {rm : RM} {r : RegNo}
    (h : Spec.row i = .dshift op w src rm r) : w = .w16 ∨ w = .w32 := by
  cases i <;> cases h
  all_goals decide  -- the eight rows that are double shifts

theorem CountSrc.count_lt (src : CountSrc) (s : State) : src.count s < 32 := BitVec.isLt _

/-! ### The cases -/

section
variable {i : Instr} {s : State} {op : DShiftOp} {w : Width} {src : CountSrc} {rm : RM} {r : RegNo}

/-- The write check comes before every use of ShiftAmt (R56). -/
theorem dshiftRM_beginsWith_checkWriteRM {len : Nat} :
    (dshiftRM op w src rm r len s).BeginsWith (s.checkWriteRM w rm) := Res.bind_beginsWith _ _

variable (hrow : Spec.row i = .dshift op w src rm r)
include hrow

/-- The meaning of a double shift's row. -/
theorem exec_of_row_dshift (s : State) : exec i s = settle s (dshiftRM op w src rm r i.length s) := by
  rw [exec_eq_runRow, hrow]; rfl

theorem exec_dshift_of_writeCheck_exc {x : Exc} (h : s.checkWriteRM w rm = .error (.exc x)) :
    exec i s = .next (Spec.excepted x s) := by
  rw [exec_of_row_dshift hrow, dshiftRM_beginsWith_checkWriteRM.error h]; rfl

/-- Only counts from the operand size on are out of range, and only 16 bits leave such counts (R181). -/
theorem width_of_row_dshift_of_le_count (h : w.bits ≤ src.count s) : w = .w16 := by
  rcases width_of_row_dshift hrow with rfl | rfl
  · rfl
  · exact absurd (src.count_lt s) (Nat.not_lt.2 h)

/-- ShiftAmt 0 (R178). -/
theorem exec_dshift_of_count_zero (hcheck : s.checkWriteRM w rm = .ok ()) (hzero : src.count s = 0) :
    exec i s = .next (Spec.advanced i s) := by
  rw [exec_of_row_dshift hrow, dshiftRM_eq_ok.2 ⟨hcheck, .inl ⟨hzero, rfl⟩⟩, settle_ok, complete_eq_advanced]

/-- ShiftAmt from the operand size on, with the draws of the destination and the flags (R181). -/
theorem exec_dshift_of_le_count {pl : Place} (hpl : s.rmPlace w rm = .ok pl) (h : w.bits ≤ src.count s) :
    exec i s = .next (Spec.advanced i { s.put w pl (drawnResult w s.draws) with
      flags := drawnFlags (s.draws + 1) s.flags
      draws := s.draws + 7 }) := by
  have hzero : src.count s ≠ 0 := (w.bits_pos.trans_le h).ne'
  rw [exec_of_row_dshift hrow, dshiftRM_eq_ok.2
    ⟨State.checkWriteRM_of_rmPlace hpl, .inr (.inl ⟨hzero, h, pl, hpl, rfl⟩)⟩, settle_ok, complete_eq_advanced]

/-- ShiftAmt between, with the draws of AF and OF (R179, R182). -/
theorem exec_dshift_of_count_lt {v : BitVec w.bits} {pl : Place} (hv : s.readRM w rm = .ok v)
    (hpl : s.rmPlace w rm = .ok pl) (hzero : src.count s ≠ 0) (hless : src.count s < w.bits) :
    exec i s = .next (Spec.advanced i { s.put w pl (op.result v (s.regs.get w r) (src.count s)) with
      flags := dshiftFlags op v (s.regs.get w r) (src.count s) s.draws s.flags
      draws := s.draws + 2 }) := by
  rw [exec_of_row_dshift hrow, dshiftRM_eq_ok.2
    ⟨State.checkWriteRM_of_rmPlace hpl, .inr (.inr ⟨hzero, hless, v, pl, hv, hpl, rfl⟩)⟩, settle_ok,
    complete_eq_advanced]

end

/-- Settles O47: the write check decides alone. -/
theorem doubleShiftByZero : Obligations.DoubleShiftByZero :=
  fun _ _ _ _ _ _ _ hrow hzero =>
    ⟨fun hcheck => exec_dshift_of_count_zero hrow hcheck hzero, fun _ => exec_dshift_of_writeCheck_exc hrow⟩

theorem DShiftOp.carry_eq_dshiftCarry {w : Width} (op : DShiftOp) (v : BitVec w.bits) (s : Nat) :
    op.carry v s = Spec.dshiftCarry op v s := by
  cases op <;> exact (BitVec.testBit_toNat v).symm

/-- The flags of R179 and R182 on numbers: AF and OF are the first two draws. -/
theorem dshiftFlags_eq {w : Width} {s : Nat} (hs : s ≤ w.bits) (op : DShiftOp) (v x : BitVec w.bits) (k : Nat)
    (f : Flags) :
    dshiftFlags op v x s k f = { Spec.szp w (Spec.dshiftValue op v x s).toNat f with
      cf := Spec.dshiftCarry op v s
      af := Config.drawBit k
      ofl := Config.drawBit (k + 1) } := by
  rw [dshiftFlags, Flags.setSZP_eq_szp, op.result_eq_dshiftValue hs, op.carry_eq_dshiftCarry]

/-- Settles O48: the meaning of the row, with the closed forms read as the slices. -/
theorem doubleShiftResult : Obligations.DoubleShiftResult := by
  intro i s op w src rm r v pl hrow hv hpl hzero hless
  refine ⟨Config.drawBit s.draws, Config.drawBit (s.draws + 1), s.draws + 2, ?_⟩
  rw [exec_dshift_of_count_lt hrow hv hpl hzero hless, dshiftFlags_eq hless.le, op.result_eq_dshiftValue hless.le]

/-- Settles O49: the free values are the draws. -/
theorem doubleShiftBadParameters : Obligations.DoubleShiftBadParameters :=
  fun _ _ _ _ _ _ _ hrow h =>
    ⟨width_of_row_dshift_of_le_count hrow h, fun _ => exec_dshift_of_writeCheck_exc hrow,
      fun _ hpl => ⟨_, _, _, _, _, _, _, _, exec_dshift_of_le_count hrow hpl h⟩⟩

end Sys2Proof.Machine
end

section
/-! SLDT, STR and SMSW (R186, R189, R207). -/

namespace Sys2Proof.Machine

/-- Settles O46: where the instruction is recognized, writing the destination is the only check. -/
theorem systemWordStore : Obligations.SystemWordStore := by
  intro i s v rm pl hrow hrec hpl
  rw [exec_eq_runRow, hrow, runRow, storeWordName_recognized hrec, storeWord16_eq_ok.2 ⟨pl, hpl, rfl⟩, settle_ok,
    complete_eq_advanced]

end Sys2Proof.Machine
end

section
/-! STC, STD and STI (R192 to R197). -/

namespace Sys2Proof.Machine

/-- Settles O30: the row has no operand to check, and the byte F9 is its encoding without a prefix. -/
theorem stcSetsCarry : Obligations.StcSetsCarry := by
  refine ⟨fun p s => ?_, fun d rest => decodeOfEncode d (.stc ⟨false, false⟩) rest rfl⟩
  rw [← complete_eq_advanced]
  exact exec_eq_runRow (.stc p) s

/-- No next state of an instruction, completed or with an exception taken, has lost DF. -/
theorem Outcome.df {len : Nat} {s t : State} (h : Outcome len s t) (hdf : s.flags.df = true) :
    t.flags.df = true := by
  rcases h with hcompleted | ⟨x, rfl⟩ | rfl
  · exact hcompleted.df hdf
  · exact hdf
  · exact hdf

/-- Settles O31: the row has no operand to check, the byte FD is its encoding without a prefix, and DF is kept
through every outcome. -/
theorem stdSetsDirection : Obligations.StdSetsDirection := by
  refine ⟨fun p s => ?_, fun d rest => decodeOfEncode d (.std ⟨false, false⟩) rest rfl,
    fun i s t h => (exec_outcome h).df⟩
  rw [← complete_eq_advanced]
  exact exec_eq_runRow (.std p) s

/-- IntInhibit is set when IF was 0, and is clear otherwise (R196). -/
theorem State.setInterruptFlag_eq_advanced (i : Instr) (s : State) :
    s.setInterruptFlag i.length = { Spec.advanced i s with
      flags := { s.flags with ifl := true }
      intInhibit := if s.flags.ifl then false else true } := by
  have hinhibit : (if s.flags.ifl then false else true) = !s.flags.ifl := by cases s.flags.ifl <;> rfl
  rw [State.setInterruptFlag, complete_eq_advanced, hinhibit]

section
variable (p : Pfx) {s : State}

/-- The modes and levels in which STI executes (R195, R197). -/
theorem exec_sti_of_allowed
    (h : s.mode = .real ∨ (s.mode = .prot ∧ s.cpl ≤ s.iopl) ∨ (s.mode = .v86 ∧ s.iopl = 3#2)) :
    exec (.sti p) s = .next (s.setInterruptFlag (Instr.length (.sti p))) := by
  rw [exec_eq_runRow, Spec.row, runRow, runSti]
  rcases h with hmode | ⟨hmode, hlevel⟩ | ⟨hmode, hlevel⟩ <;> rw [hmode]
  · exact if_neg (BitVec.not_lt.2 hlevel)
  · exact if_neg (by rw [hlevel]; decide)

theorem exec_sti_of_prot_above_iopl (hmode : s.mode = .prot) (hlevel : s.iopl < s.cpl) :
    exec (.sti p) s = .next (s.markFaulted .gp0) := by
  rw [exec_eq_runRow, Spec.row, runRow, runSti, hmode]
  exact if_pos hlevel

theorem exec_sti_of_v86_below_three (hmode : s.mode = .v86) (hlevel : s.iopl < 3#2) :
    exec (.sti p) s = .refused .stiV86Iopl := by
  rw [exec_eq_runRow, Spec.row, runRow, runSti, hmode]
  exact if_pos hlevel

end

/-- Settles O32: one branch for each mode and level, and the byte FB is the encoding without a prefix. -/
theorem stiInEveryMode : Obligations.StiInEveryMode := by
  refine ⟨fun p s h => ?_, fun p s => exec_sti_of_prot_above_iopl p, fun p s => exec_sti_of_v86_below_three p,
    fun d rest => decodeOfEncode d (.sti ⟨false, false⟩) rest rfl⟩
  rw [exec_sti_of_allowed p h, State.setInterruptFlag_eq_advanced]

end Sys2Proof.Machine
end

section
/-! STOS without and with a repeat prefix (R199 to R204). -/

namespace Sys2Proof.Machine

/-- The state after one store at `as`, EIP and the count aside (R200 to R203). -/
def State.stored (s : State) (w : Width) (a : Size) (as : List Nat) : State :=
  { s.storeAt as (s.regs.get w .n0).toNat with regs := Spec.movedIndex a s.flags.df w.bytes s.regs }

/-- An element that can be written receives the accumulator. -/
theorem stosBody_eq_stored {w : Width} {a : Size} {s : State} {as : List Nat}
    (has : s.storeAddrs .es (s.index a) w.bytes = .ok as) : stosBody w a s = .ok (s.stored w a as) := by
  rw [State.stored, ← Regs.stepIndex_eq_movedIndex]
  exact stosBody_eq_ok.2 ⟨as, has, rfl⟩

/-- Settles O42: the checks of the element's store are the only ones. -/
theorem stosOnce : Obligations.StosOnce := by
  intro i s w p as hrow has
  have hstos := (stos_eq_ok (len := i.length)).2 (.inl ⟨rfl, _, stosBody_eq_stored has, rfl⟩)
  rw [exec_eq_runRow, hrow, runRow, hstos, settle_ok, complete_eq_advanced, State.stored]

/-- Settles O43: the store leaves the count, so the count it ends on is the first one less 1. -/
theorem stosRepeated : Obligations.StosRepeated := by
  intro i s w p hrow
  rw [exec_eq_runRow, hrow, runRow]
  refine ⟨fun hzero => ?_, fun as hcount has => ?_⟩
  · have hstos := (stos_eq_ok (w := w) (len := i.length)).2
      (.inr (.inl ⟨rfl, State.repCount_eq_zero_iff.2 hzero, rfl⟩))
    rw [hstos, settle_ok, complete_eq_advanced]
  · have hsame : Spec.countOf (s.addressSize p) (s.stored w (s.addressSize p) as).regs
        = Spec.countOf (s.addressSize p) s.regs := countOf_movedIndex ..
    have hleft := hsame.trans_ne hcount
    have hstos := (stos_eq_ok (len := i.length)).2 (.inr (.inr
      ⟨rfl, State.repCount_eq_zero_iff.not.2 hcount, _, stosBody_eq_stored has, rfl⟩))
    rw [hstos, settle_ok, complete_eq_advanced]
    simp only [State.repCount_decCount_eq_zero_iff hleft]
    rw [State.decCount_eq_withCount hleft, hsame]
    rfl

end Sys2Proof.Machine
end

section
/-! The state after reset (R260 to R262). -/

namespace Sys2Proof.Machine

/-- Settles O56: reset is one concrete state. -/
theorem resetMeetsInvariant : Obligations.ResetMeetsInvariant where
  memory := by decide
  eipRange := by decide
  markEip := by simp [State.reset]
  sizeOfMode := fun _ => rfl
  v86Level := nofun

end Sys2Proof.Machine
end

section
/-! Which exceptions the checks of an operand raise in which mode (R223 to R227). -/

namespace Sys2Proof.Machine

/-- The exception of a segment check (R49): "Interrupt 13" for an offset past 0xFFFF outside Protected Mode (R42),
`#GP(0)` or `#SS(0)` in it. -/
theorem segExc_segCheck_eq_some {m : Mode} {r : SegReg} {seg : SegName} {off n : Nat} {k : Access} {x : Exc}
    (h : segExc m seg (segCheck m r off n k) = some x) :
    (m ≠ .prot ∧ x = .int13) ∨ (m = .prot ∧ (x = .gp0 ∨ (x = .ss0 ∧ seg = .ss))) := by
  by_cases hm : m = .prot
  · refine .inr ⟨hm, ?_⟩
    subst hm
    cases hres : segCheck .prot r off n k with
    | ok => rw [hres] at h; cases h
    | nonWritable => rw [hres] at h; exact .inl (Option.some.inj h).symm
    | illegal =>
      rw [hres] at h
      by_cases hss : seg = .ss
      · exact .inr ⟨(Option.some.inj ((if_pos hss).symm.trans h)).symm, hss⟩
      · exact .inl (Option.some.inj ((if_neg hss).symm.trans h)).symm
  · refine .inl ⟨hm, ?_⟩
    rw [segCheck_of_ne_prot hm] at h
    split at h
    · rw [segExc_illegal_of_ne_prot hm] at h; exact (Option.some.inj h).symm
    · cases h

/-- In Real Address Mode every byte is translated (R52). -/
theorem State.xlateBytes_of_real {s : State} (hm : s.mode = .real) (seg : SegName) (off : Nat) (k : Access)
    (n : Nat) : ∃ as, s.xlateBytes seg off k n = .ok as := by
  have hbyte : ∀ o, s.xlateByte seg o k = .ok ((s.segs.get seg).linear o).toNat := fun o => by
    rw [State.xlateByte, State.pageXlate, if_pos hm]
  induction n generalizing off with
  | zero => exact ⟨[], rfl⟩
  | succ n ih =>
    obtain ⟨as, has⟩ := ih (off + 1)
    exact ⟨_, by rw [State.xlateBytes, hbyte, Res.ok_bind, has, Res.ok_bind]⟩

/-- Settles O54: an exception is that of the segment check, or a page fault behind it, of which there is none in
Real Address Mode. -/
theorem exceptionsOfTheMode : Obligations.ExceptionsOfTheMode := by
  intro s seg off n k x h
  cases hseg : segExc s.mode seg (segCheck s.mode (s.segs.get seg) off n k) with
  | some y =>
    rw [State.operandAddrs_of_segExc hseg] at h
    cases h
    rcases segExc_segCheck_eq_some hseg with ⟨hm, rfl⟩ | ⟨hm, rfl | ⟨rfl, hss⟩⟩
    · simp [hm]
    · simp [hm]
    · simp [hm, hss]
  | none =>
    rw [State.operandAddrs_of_segExc_none hseg] at h
    obtain ⟨c, hc⟩ := State.xlateBytes_error h
    cases hc
    have hreal : s.mode ≠ .real := fun hm => by
      obtain ⟨as, has⟩ := State.xlateBytes_of_real hm seg off k n
      rw [has] at h; cases h
    simp [hreal]

end Sys2Proof.Machine
end

section
/-! What stops the accesses to memory: an exception of their checks, or a stop of the model, which is never the end
of the run (R264). -/

namespace Sys2Proof.Machine

/-- The operation may stop, but not as the end of the run. -/
def Res.NeverEnds {α : Type} (y : Res α) : Prop := y ≠ .error (.fault .endOfRun)

theorem Res.NeverEnds.ok {α : Type} (a : α) : Res.NeverEnds (.ok a : Res α) := nofun

theorem Res.NeverEnds.exc {α : Type} (x : Exc) : Res.NeverEnds (.error (.exc x) : Res α) := nofun

theorem Res.NeverEnds.bind {α β : Type} {x : Res α} {f : α → Res β} (hx : x.NeverEnds)
    (hf : ∀ a, (f a).NeverEnds) : (x >>= f).NeverEnds := by
  cases x with
  | ok a => exact hf a
  | error e => exact fun h => hx (by rw [Res.error_bind] at h; exact congrArg _ (Except.error.inj h))

theorem Res.NeverEnds.ite {α : Type} {c : Prop} [Decidable c] {x y : Res α} (hx : x.NeverEnds)
    (hy : y.NeverEnds) : (if c then x else y).NeverEnds := by
  split
  · exact hx
  · exact hy

section
variable (s : State) (w : Width) (seg : SegName) (off n : Nat)

theorem State.operandAddrs_neverEnds (k : Access) : (s.operandAddrs seg off n k).NeverEnds := fun h => by
  obtain ⟨x, hx⟩ := State.operandAddrs_error h
  cases hx

theorem State.readAddrs_neverEnds (as : List Nat) : (s.readAddrs as).NeverEnds := by
  induction as with
  | nil => exact .ok _
  | cons a as ih =>
    have hbyte : (s.readPhys a).NeverEnds := fun h => by
      rcases State.readPhys_error h with he | he <;> cases he
    exact hbyte.bind fun _ => ih.bind fun _ => .ok _

theorem State.readSeg_neverEnds : (s.readSeg w seg off).NeverEnds :=
  (s.operandAddrs_neverEnds seg off _ _).bind fun as => (s.readAddrs_neverEnds as).bind fun _ => .ok _

theorem State.storeAddrs_neverEnds : (s.storeAddrs seg off n).NeverEnds := by
  have hcheck : ∀ as, (s.checkStore as).NeverEnds := fun as h => by
    rcases State.checkStore_error h with ⟨a, he⟩ | ⟨a, he⟩ <;> cases he
  exact (s.operandAddrs_neverEnds seg off n .write).bind fun as => (hcheck as).bind fun _ => .ok _

variable (rm : RM)

theorem State.readRM_neverEnds : (s.readRM w rm).NeverEnds := by
  cases rm with
  | reg n => exact .ok _
  | mem m => exact s.readSeg_neverEnds w _ _

theorem State.checkWriteRM_neverEnds : (s.checkWriteRM w rm).NeverEnds := fun h => by
  obtain ⟨m, x, -, he, -⟩ := State.checkWriteRM_error h
  cases he

theorem State.rmPlace_neverEnds : (s.rmPlace w rm).NeverEnds := by
  cases rm with
  | reg n => exact .ok _
  | mem m => exact (s.storeAddrs_neverEnds _ _ _).bind fun _ => .ok _

theorem State.writeRM_neverEnds (v : BitVec w.bits) : (s.writeRM w rm v).NeverEnds :=
  (s.rmPlace_neverEnds w rm).bind fun _ => .ok _

/-- A read before the write ends nothing either, where what follows does not. -/
theorem State.modifyRM_neverEnds {k : BitVec w.bits → Place → Res State} (hk : ∀ v pl, (k v pl).NeverEnds) :
    (s.modifyRM w rm k).NeverEnds :=
  (s.checkWriteRM_neverEnds w rm).bind fun _ => (s.readRM_neverEnds w rm).bind fun v =>
    (s.rmPlace_neverEnds w rm).bind (hk v)

end

end Sys2Proof.Machine
end

section
/-! What each row can do, STI's aside: complete, repeat, take an exception, or stop (R196, R222 to R232). -/

namespace Sys2Proof.Machine

/-- The row has a repeat prefix (R147, R204). -/
def Spec.Row.Repeats : Spec.Row → Prop
  | .scas _ _ rep => rep ≠ none
  | .stos _ _ rep => rep = true
  | _ => False

/-- An operation of the row that succeeds has taken no exception, and has cleared IntInhibit unless it leaves its
instruction to be repeated (R196, log entry 10). -/
structure Proceeds (s : State) (r : Spec.Row) (t : State) : Prop where
  faulted : t.faulted = s.faulted
  inhibit : t.intInhibit = false ∨ (t.intInhibit = s.intInhibit ∧ t.eip = s.eip ∧ r.Repeats)

theorem Proceeds.of_complete {s u : State} {r : Spec.Row} {len : Nat} (h : u.faulted = s.faulted) :
    Proceeds s r (u.complete len) := ⟨h, .inl rfl⟩

/-- The exceptions of the row (R222 to R227, R229): `#UD` in its listed cases, what the first check of the memory
operand raises, or the read check behind a write check that passed. -/
inductive Raises (s : State) (r : Spec.Row) (x : Exc) : Prop where
  | ud (hx : x = .ud) (hcause : Spec.udCause s r)
  | first {k : Access} {seg : SegName} {off n : Nat} (hc : Spec.checked s r = some (k, seg, off, n))
      (h : s.operandAddrs seg off n k = .error (.exc x))
  | readBack {k : Access} {seg : SegName} {off n : Nat} {as : List Nat}
      (hc : Spec.checked s r = some (k, seg, off, n)) (hb : Spec.readsBack s r = true)
      (has : s.operandAddrs seg off n k = .ok as) (h : s.operandAddrs seg off n .read = .error (.exc x))

/-- What an operation of the row can answer. -/
structure Answers (s : State) (r : Spec.Row) (y : Res State) : Prop where
  ok : ∀ t, y = .ok t → Proceeds s r t
  exc : ∀ x, y = .error (.exc x) → Raises s r x
  neverEnds : y.NeverEnds

theorem Answers.of_ok {s t : State} {r : Spec.Row} (h : Proceeds s r t) : Answers s r (.ok t) where
  ok := fun _ ht => Except.ok.inj ht ▸ h
  exc := nofun
  neverEnds := .ok t

/-! ### Shifts and subtractions -/

/-- The two checks of an operand that is read before it is written, in their order (R56). -/
theorem State.modifyRM_exc {s : State} {w : Width} {rm : RM} {k : BitVec w.bits → Place → Res State} {x : Exc}
    (h : s.modifyRM w rm k = .error (.exc x)) (hk : ∀ v pl, k v pl ≠ .error (.exc x)) :
    ∃ m, rm = .mem m
      ∧ (s.operandAddrs (memSegment m) (memOffset s m) w.bytes .write = .error (.exc x)
        ∨ ((∃ as, s.operandAddrs (memSegment m) (memOffset s m) w.bytes .write = .ok as)
          ∧ s.operandAddrs (memSegment m) (memOffset s m) w.bytes .read = .error (.exc x))) := by
  simp only [State.modifyRM, Res.bind_eq_error] at h
  rcases h with h | ⟨u, hcheck, h | ⟨v, -, h | ⟨pl, -, h⟩⟩⟩
  · obtain ⟨m, y, rfl, he, hwrite⟩ := State.checkWriteRM_error h
    cases he; exact ⟨m, rfl, .inl hwrite⟩
  · obtain ⟨m, rfl, hread⟩ := State.readRM_exc h
    exact ⟨m, rfl, .inr ⟨State.checkWrite_eq_ok.1 hcheck, hread⟩⟩
  · obtain ⟨m, rfl, hwrite⟩ := State.rmPlace_exc h
    exact ⟨m, rfl, .inl hwrite⟩
  · exact absurd h (hk v pl)

section
variable {s : State} {w : Width} {rm : RM} {len : Nat}

theorem shiftRM_answers {op : ShiftOp} {src : CountSrc} :
    Answers s (.shift op w src rm) (shiftRM op w src rm len s) := by
  refine ⟨fun t h => ?_, fun x h => ?_, ?_⟩
  · obtain ⟨v, pl, -, -, rfl⟩ := shiftRM_eq_ok.1 h
    split <;> exact .of_complete (s.put_faulted w pl _)
  · obtain ⟨m, rfl, hwrite | ⟨⟨as, has⟩, hread⟩⟩ := State.modifyRM_exc h fun _ _ hk => by
      split at hk <;> cases hk
    · exact .first rfl hwrite
    · exact .readBack rfl rfl has hread
  · exact s.modifyRM_neverEnds w rm fun v pl => .ite (.ok _) (.ok _)

theorem subToRM_answers {b : BitVec w.bits} {c d : Bool} {src : Spec.SubSrc w} :
    Answers s (.subToRM w d rm src) (subToRM w rm b c len s) := by
  refine ⟨fun t h => ?_, fun x h => ?_, ?_⟩
  · obtain ⟨a, pl, -, -, rfl⟩ := subToRM_eq_ok.1 h
    exact .of_complete (s.put_faulted w pl _)
  · obtain ⟨m, rfl, hwrite | ⟨⟨as, has⟩, hread⟩⟩ := State.modifyRM_exc h fun _ _ => nofun
    · exact .first rfl hwrite
    · exact .readBack rfl rfl has hread
  · exact s.modifyRM_neverEnds w rm fun v pl => .ok _

theorem subFromRM_answers {r : RegNo} {c d : Bool} :
    Answers s (.subFromRM w d r rm) (subFromRM w r rm c len s) := by
  refine ⟨fun t h => ?_, fun x h => ?_, (s.readRM_neverEnds w rm).bind fun _ => .ok _⟩
  · obtain ⟨b, -, rfl⟩ := subFromRM_eq_ok.1 h
    exact .of_complete rfl
  · obtain ⟨m, rfl, hread⟩ := subFromRM_exc h
    exact .first rfl hread

theorem dshiftRM_raises {op : DShiftOp} {src : CountSrc} {r : RegNo} {x : Exc}
    (h : dshiftRM op w src rm r len s = .error (.exc x)) : Raises s (.dshift op w src rm r) x := by
  have hplace : s.rmPlace w rm = .error (.exc x) → Raises s (.dshift op w src rm r) x := fun h => by
    obtain ⟨m, rfl, hwrite⟩ := State.rmPlace_exc h
    exact .first rfl hwrite
  rw [dshiftRM, Res.bind_eq_error] at h
  rcases h with h | ⟨u, hcheck, h⟩
  · obtain ⟨m, y, rfl, he, hwrite⟩ := State.checkWriteRM_error h
    cases he; exact .first rfl hwrite
  by_cases hzero : src.count s = 0
  · rw [if_pos hzero] at h; cases h
  rw [if_neg hzero] at h
  by_cases hmore : w.bits ≤ src.count s
  · rw [if_pos hmore, Res.bind_eq_error] at h
    rcases h with h | ⟨pl, -, h⟩
    · exact hplace h
    · cases h
  · simp only [if_neg hmore, Res.bind_eq_error] at h
    rcases h with h | ⟨v, -, h | ⟨pl, -, h⟩⟩
    · obtain ⟨m, rfl, hread⟩ := State.readRM_exc h
      obtain ⟨as, has⟩ := State.checkWrite_eq_ok.1 hcheck
      exact .readBack rfl (decide_eq_true ⟨hzero, Nat.not_le.1 hmore⟩) has hread
    · exact hplace h
    · cases h

theorem dshiftRM_answers {op : DShiftOp} {src : CountSrc} {r : RegNo} :
    Answers s (.dshift op w src rm r) (dshiftRM op w src rm r len s) := by
  refine ⟨fun t h => ?_, fun x => dshiftRM_raises, ?_⟩
  · obtain ⟨-, ⟨-, rfl⟩ | ⟨-, -, pl, -, rfl⟩ | ⟨-, -, v, pl, -, -, rfl⟩⟩ := dshiftRM_eq_ok.1 h
    · exact .of_complete rfl
    · exact .of_complete (s.put_faulted w pl _)
    · exact .of_complete (s.put_faulted w pl _)
  · have hplace := s.rmPlace_neverEnds w rm
    exact (s.checkWriteRM_neverEnds w rm).bind fun _ => .ite (.ok _) (.ite (hplace.bind fun _ => .ok _)
      ((s.readRM_neverEnds w rm).bind fun _ => hplace.bind fun _ => .ok _))

end

/-! ### String instructions -/

section
variable {s : State} {w : Width} {p : Pfx} {len : Nat}

theorem scas_answers {rep : Option RepCond} :
    Answers s (.scas w p rep) (scas w (s.addressSize p) rep len s) := by
  refine ⟨fun t h => ?_, fun x h => ?_, ?_⟩
  · rcases scas_eq_ok.1 h with ⟨-, u, hu, rfl⟩ | ⟨k, rfl, ⟨-, rfl⟩ | ⟨-, u, hu, rfl⟩⟩
    · obtain ⟨m, -, rfl⟩ := scasBody_eq_ok.1 hu
      exact .of_complete rfl
    · exact .of_complete rfl
    · obtain ⟨m, -, rfl⟩ := scasBody_eq_ok.1 hu
      split
      · exact .of_complete rfl
      · exact ⟨rfl, .inr ⟨rfl, rfl, nofun⟩⟩
  · obtain ⟨hcount, hread⟩ := scas_exc h
    refine .first (if_neg fun hzero => hcount hzero.1 ?_) hread
    exact State.repCount_eq_zero_iff.2 hzero.2
  · have hbody : (scasBody w (s.addressSize p) s).NeverEnds := (s.readSeg_neverEnds w _ _).bind fun _ => .ok _
    cases rep with
    | none => exact hbody.bind fun _ => .ok _
    | some k => exact .ite (.ok _) (hbody.bind fun _ => .ite (.ok _) (.ok _))

theorem stos_answers {rep : Bool} : Answers s (.stos w p rep) (stos w (s.addressSize p) rep len s) := by
  refine ⟨fun t h => ?_, fun x h => ?_, ?_⟩
  · rcases stos_eq_ok.1 h with ⟨-, u, hu, rfl⟩ | ⟨-, -, rfl⟩ | ⟨rfl, -, u, hu, rfl⟩
    · obtain ⟨as, -, rfl⟩ := stosBody_eq_ok.1 hu
      exact .of_complete rfl
    · exact .of_complete rfl
    · obtain ⟨as, -, rfl⟩ := stosBody_eq_ok.1 hu
      split
      · exact .of_complete rfl
      · exact ⟨rfl, .inr ⟨rfl, rfl, rfl⟩⟩
  · obtain ⟨hcount, hwrite⟩ := stos_exc h
    refine .first (if_neg fun hzero => hcount hzero.1 ?_) hwrite
    exact State.repCount_eq_zero_iff.2 hzero.2
  · have hbody : (stosBody w (s.addressSize p) s).NeverEnds :=
      ((s.storeAddrs_neverEnds _ _ _).bind fun _ => .ok _).bind fun _ => .ok _
    exact .ite (.ite (.ok _) (hbody.bind fun _ => .ite (.ok _) (.ok _))) (hbody.bind fun _ => .ok _)

end

/-! ### SETcc and the system stores -/

section
variable {s : State} {rm : RM} {len : Nat}

theorem setcc_answers {c : Cond} : Answers s (.setcc c rm) (setcc c rm len s) := by
  refine ⟨fun t h => ?_, fun x h => ?_, (s.writeRM_neverEnds .w8 rm _).bind fun _ => .ok _⟩
  · obtain ⟨pl, -, rfl⟩ := setcc_eq_ok.1 h
    exact .of_complete (s.put_faulted .w8 pl _)
  · obtain ⟨m, rfl, hwrite⟩ := setcc_exc h
    exact .first rfl hwrite

theorem storeTable_answers {tb : TableReg} {tn : Spec.TableName} {p : Pfx} :
    Answers s (.table tn p rm) (storeTable tb p rm len s) := by
  refine ⟨fun t h => ?_, fun x h => ?_, ?_⟩
  · obtain ⟨m, as, -, -, rfl⟩ := storeTable_eq_ok.1 h
    exact .of_complete rfl
  · rcases storeTable_exc h with ⟨rfl, n, rfl⟩ | ⟨m, rfl, hwrite⟩
    · exact .ud rfl trivial
    · exact .first rfl hwrite
  · cases rm with
    | reg n => exact .exc .ud
    | mem m => exact (s.storeAddrs_neverEnds _ _ _).bind fun _ => .ok _

theorem storeWordName_answers {v : Spec.WordName} : Answers s (.word v rm) (storeWordName v rm len s) := by
  by_cases hrec : v = .msw ∨ s.mode = .prot
  · rw [storeWordName_recognized hrec]
    refine ⟨fun t h => ?_, fun x h => ?_, (s.writeRM_neverEnds .w16 rm _).bind fun _ => .ok _⟩
    · obtain ⟨pl, -, rfl⟩ := storeWord16_eq_ok.1 h
      exact .of_complete (s.put_faulted .w16 pl _)
    · obtain ⟨m, rfl, hwrite⟩ := storeWord16_exc h
      exact .first (if_pos hrec) hwrite
  · rw [storeWordName_unrecognized hrec]
    refine ⟨fun t h => ?_, fun x h => ?_, .exc .ud⟩
    · cases h
    · cases h
      obtain ⟨hv, hmode⟩ := not_or.1 hrec
      cases v with
      | ldtr | tr => exact .ud rfl hmode
      | msw => exact absurd rfl hv

end

/-! ### Every row -/

/-- Every row but STI's settles one operation (STI's exception leaves IntInhibit, R195). -/
theorem runRow_eq_settle (len : Nat) (s : State) {r : Spec.Row} (hr : r ≠ .sti) :
    ∃ y, runRow len s r = settle s y ∧ Answers s r y := by
  cases r with
  | sti => exact absurd rfl hr
  | sahf | stc | std | subAcc => exact ⟨.ok _, rfl, .of_ok (.of_complete rfl)⟩
  | shift => exact ⟨_, rfl, shiftRM_answers⟩
  | subToRM => exact ⟨_, rfl, subToRM_answers⟩
  | subFromRM => exact ⟨_, rfl, subFromRM_answers⟩
  | scas => exact ⟨_, rfl, scas_answers⟩
  | stos => exact ⟨_, rfl, stos_answers⟩
  | setcc => exact ⟨_, rfl, setcc_answers⟩
  | table => exact ⟨_, rfl, storeTable_answers⟩
  | word => exact ⟨_, rfl, storeWordName_answers⟩
  | dshift => exact ⟨_, rfl, dshiftRM_answers⟩

theorem exec_eq_settle {i : Instr} (h : Spec.row i ≠ .sti) (s : State) :
    ∃ y, exec i s = settle s y ∧ Answers s (Spec.row i) y :=
  exec_eq_runRow i s ▸ runRow_eq_settle i.length s h

theorem exec_of_row_sti {i : Instr} (h : Spec.row i = .sti) (s : State) : exec i s = runSti i.length s := by
  rw [exec_eq_runRow, h, runRow]

/-- Everything STI can do when it answers a next state (R195, R197). -/
theorem runSti_eq_next {len : Nat} {s t : State} (h : runSti len s = .next t) :
    t = s.setInterruptFlag len ∨ (s.mode = .prot ∧ s.iopl < s.cpl ∧ t = s.markFaulted .gp0) := by
  simp only [runSti] at h
  split at h
  · cases h; exact .inl rfl
  · next hmode =>
    split at h <;> cases h
    · next hlevel => exact .inr ⟨hmode, hlevel, rfl⟩
    · exact .inl rfl
  · split at h <;> cases h
    exact .inl rfl

theorem runSti_ne_fault {len : Nat} {s : State} {f : Fault} : runSti len s ≠ .fault f := by
  simp only [runSti]
  split
  · nofun
  · split <;> nofun
  · split <;> nofun

end Sys2Proof.Machine
end

section
/-! How long IntInhibit lasts (R196). -/

namespace Sys2Proof.Machine

theorem encoding_rep_of_row_scas {i : Instr} {w : Width} {p : Pfx} {rep : Option RepCond}
    (h : Spec.row i = .scas w p rep) : i.encoding.rep = rep := by
  cases i <;> cases h
  all_goals rfl  -- the six names of SCAS

theorem encoding_rep_of_row_stos {i : Instr} {w : Width} {p : Pfx} {rep : Bool}
    (h : Spec.row i = .stos w p rep) : i.encoding.rep = stosRep rep := by
  cases i <;> cases h
  all_goals rfl  -- the six names of STOS

/-- A row that repeats is encoded with a repeat prefix (R73). -/
theorem encoding_rep_of_repeats {i : Instr} (h : (Spec.row i).Repeats) : i.encoding.rep ≠ none := by
  cases hrow : Spec.row i with
  | scas w p rep =>
    rw [encoding_rep_of_row_scas hrow]
    rwa [hrow] at h
  | stos w p rep =>
    rw [hrow] at h
    obtain rfl : rep = true := h
    rw [encoding_rep_of_row_stos hrow]
    nofun
  | sahf | stc | std | sti | shift | subAcc | subToRM | subFromRM | setcc | table | word | dshift =>
    rw [hrow] at h
    exact h.elim

/-- Settles O33: an exception clears IntInhibit, and so does success but for a repetition that stays. -/
theorem interruptInhibitLastsOneInstruction : Obligations.InterruptInhibitLastsOneInstruction := by
  refine ⟨fun i s t h hrow => ?_, fun s => ?_⟩
  · obtain ⟨y, hexec, hy⟩ := exec_eq_settle hrow s
    rcases settle_eq_next.1 (hexec ▸ h) with hok | ⟨x, -, rfl⟩
    · obtain ⟨hfaulted, hclear | ⟨hinhibit, heip, hrep⟩⟩ := hy.ok t hok
      · exact .inl hclear
      · exact .inr ⟨hinhibit, heip, hfaulted, encoding_rep_of_repeats hrep⟩
    · exact .inl rfl
  · rw [State.mayTakeExternalInterrupt, Bool.and_eq_true, Bool.not_eq_true']

end Sys2Proof.Machine
end

section
/-! Exceptions: their mark, their causes, and `#UD` (R222 to R232). -/

namespace Sys2Proof.Machine

/-- The mark of an instruction that began without one (R232). -/
theorem Outcome.eq_of_mark {len : Nat} {s t : State} (h : Outcome len s t) (hs : s.faulted = none)
    {m : FaultMark} (ht : t.faulted = some m) :
    m.eip = s.eip ∧ t = { s with faulted := some m, intInhibit := t.intInhibit } := by
  rcases h with hcompleted | ⟨x, rfl⟩ | rfl
  · rw [hcompleted.faulted, hs] at ht; cases ht
  · cases ht; exact ⟨rfl, rfl⟩
  · cases ht; exact ⟨rfl, rfl⟩

/-- Settles O50: only an unmarked state steps, and its mark is that of its instruction or of the fetch. -/
theorem exceptionMarksAndEnds : Obligations.ExceptionMarksAndEnds := by
  refine ⟨fun s t h m ht => ?_, fun s m => step_marked⟩
  obtain ⟨hs, -, ⟨i, -, hexec⟩ | ⟨x, -, rfl⟩⟩ := step_eq_next h
  · exact (exec_outcome hexec).eq_of_mark hs ht
  · cases ht; exact ⟨rfl, rfl⟩

/-- Settles O52: STI marks `#GP(0)` in one branch, and what another row marks its operation has raised. -/
theorem exceptionsHaveListedCauses : Obligations.ExceptionsHaveListedCauses := by
  intro i s t m hs h ht
  by_cases hrow : Spec.row i = .sti
  · rw [exec_of_row_sti hrow] at h
    rcases runSti_eq_next h with rfl | ⟨hmode, hlevel, rfl⟩
    · rw [State.setInterruptFlag_faulted, hs] at ht; cases ht
    · cases ht; exact .inr (.inl ⟨rfl, hrow, hmode, hlevel⟩)
  · obtain ⟨y, hexec, hy⟩ := exec_eq_settle hrow s
    rcases settle_eq_next.1 (hexec ▸ h) with hok | ⟨x, hx, rfl⟩
    · rw [(hy.ok t hok).faulted, hs] at ht; cases ht
    · cases ht
      cases hy.exc x hx with
      | ud hud hcause => exact .inl ⟨hud, hcause⟩
      | first hc hx => exact .inr (.inr ⟨_, _, _, _, hc, .inl hx⟩)
      | readBack hc hb has hx => exact .inr (.inr ⟨_, _, _, _, hc, .inr ⟨hb, ⟨_, has⟩, hx⟩⟩)

theorem runRow_of_udCause (len : Nat) {s : State} {r : Spec.Row} (h : Spec.udCause s r) :
    runRow len s r = settle s (.error (.exc .ud)) := by
  cases r with
  | table t p rm =>
    cases rm with
    | reg n => rfl
    | mem m => exact h.elim
  | word v rm =>
    have hunrec : ¬ (v = .msw ∨ s.mode = .prot) := by
      cases v with
      | ldtr | tr => simpa [Spec.udCause] using h
      | msw => exact h.elim
    rw [runRow, storeWordName_unrecognized hunrec]
  | sahf | stc | std | sti | shift | subAcc | subToRM | subFromRM | scas | stos | setcc | dshift => exact h.elim

/-- Settles O53: the listed forms stop at once, and of the causes of O52 no other is `#UD`: the checks of an
operand raise none (O54). -/
theorem undefinedOpcodeExactly : Obligations.UndefinedOpcodeExactly := by
  refine ⟨fun i s h => ?_, fun i s t m hs h ht hud => ?_⟩
  · rw [exec_eq_runRow, runRow_of_udCause i.length h]; rfl
  · have hcheck : ∀ {seg off n k}, s.operandAddrs seg off n k ≠ .error (.exc m.exc) := fun hx =>
      (exceptionsOfTheMode s _ _ _ _ _ hx).1 hud
    rcases exceptionsHaveListedCauses i s t m hs h ht with
      ⟨-, hcause⟩ | ⟨hgp, -⟩ | ⟨k, seg, off, n, -, hx | ⟨-, -, hx⟩⟩
    · exact hcause
    · rw [hud] at hgp; cases hgp
    · exact absurd hx hcheck
    · exact absurd hx hcheck

end Sys2Proof.Machine
end

section
/-! The end of a run, and that every run ends (R14, R264, R266). -/

namespace Sys2Proof.Machine

/-! ### No instruction and no fetch answers the end of the run -/

/-- An instruction faults where its operation does. -/
theorem settle_eq_fault {s : State} {y : Res State} {f : Fault} (h : settle s y = .fault f) :
    y = .error (.fault f) := by
  rcases y with (x | g | r) | t <;> cases h
  rfl

theorem exec_ne_endOfRun (i : Instr) (s : State) : exec i s ≠ .fault .endOfRun := by
  by_cases hrow : Spec.row i = .sti
  · rw [exec_of_row_sti hrow]; exact runSti_ne_fault
  · obtain ⟨y, hexec, hy⟩ := exec_eq_settle hrow s
    rw [hexec]; exact fun h => hy.neverEnds (settle_eq_fault h)

theorem State.fetchByte_neverEnds (s : State) (off : Nat) : (s.fetchByte off).NeverEnds := by
  rw [State.fetchByte]
  split
  · nofun
  · split
    · nofun
    · exact s.readSeg_neverEnds .w8 .cs off

theorem State.fetchBytes_ne_endOfRun (s : State) (n off : Nat) :
    (s.fetchBytes n off).2 ≠ some (.fault .endOfRun) := by
  induction n generalizing off with
  | zero => nofun
  | succ n ih =>
    rw [State.fetchBytes]
    split
    · exact ih (off + 1)
    · next e he =>
      intro h
      exact s.fetchByte_neverEnds off (he.trans (congrArg _ (Option.some.inj h)))

theorem State.fetchInstr_ne_endOfRun (s : State) : s.fetchInstr ≠ .error (.fault .endOfRun) := by
  rw [State.fetchInstr]
  split
  · nofun
  · split
    · next e he => exact fun h => s.fetchBytes_ne_endOfRun _ _ (he.trans (congrArg _ (Except.error.inj h)))
    · nofun
  · nofun

/-! ### The end of a run -/

/-- Short of End the fetch decides whether an instruction runs. -/
theorem step_of_fetch_error {s : State} {e : Stop} (hf : s.faulted = none) (hend : s.nextOffset ≠ s.codeEnd)
    (he : s.fetchInstr = .error e) : step s = settle s (.error e) := by
  simp only [step, hf, if_neg hend, he]

theorem step_eq_endOfRun_iff {s : State} :
    step s = .fault .endOfRun ↔ s.faulted = none ∧ s.nextOffset = s.codeEnd := by
  refine ⟨fun h => ?_, fun ⟨hf, hend⟩ => step_end hf hend⟩
  cases hf : s.faulted with
  | some m => rw [step_marked hf] at h; cases h
  | none =>
    refine ⟨rfl, by_contra fun hend => ?_⟩
    cases hfetch : s.fetchInstr with
    | ok i => exact exec_ne_endOfRun i s (step_fetched hf hend hfetch ▸ h)
    | error e =>
      have he := settle_eq_fault (step_of_fetch_error hf hend hfetch ▸ h)
      exact s.fetchInstr_ne_endOfRun (hfetch.trans (congrArg _ (Except.error.inj he)))

theorem offsetSpan_eq_offsetLimit (s : State) : offsetSpan s.defaultSize = Spec.offsetLimit s := by
  unfold offsetSpan Spec.offsetLimit
  cases s.defaultSize <;> rfl

/-- The offset that R264 compares with End, past the end of the range once EIP has wrapped. -/
theorem State.nextOffset_eq (s : State) :
    s.nextOffset = if s.wrapped then s.eip.toNat + Spec.offsetLimit s else s.eip.toNat := by
  rw [State.nextOffset, offsetSpan_eq_offsetLimit]
  cases s.wrapped <;> rfl

/-- An instruction that ends at the end of the offset range leaves EIP 0, wrapped (R14). -/
theorem advanced_at_offsetLimit {i : Instr} {s : State} (h : s.eip.toNat + i.length = Spec.offsetLimit s) :
    (Spec.advanced i s).eip = 0#32 ∧ (Spec.advanced i s).wrapped = true := by
  simp [Spec.advanced, h]

/-- Settles O59: only the test before the fetch answers the end of the run, and behind it a wrapped EIP fetches
nothing. -/
theorem endOfRunExactlyAtEnd : Obligations.EndOfRunExactlyAtEnd := by
  refine ⟨fun s => ?_, fun i s hf hlast hend => ?_, fun s hf hwrapped h => ?_⟩
  · rw [step_eq_endOfRun_iff, ← State.nextOffset_eq, eq_comm (a := s.codeEnd)]
  · obtain ⟨heip, hwrapped⟩ := advanced_at_offsetLimit hlast
    have hnext : (Spec.advanced i s).nextOffset = Spec.offsetLimit s := by
      rw [State.nextOffset_eq, if_pos hwrapped, heip]
      exact Nat.zero_add _
    exact ⟨heip, step_end hf (hnext.trans hend.symm)⟩
  · have hend : s.nextOffset ≠ s.codeEnd := fun he => h (step_end hf he)
    rw [step_of_fetch_error hf hend (State.fetchInstr_wrapped hwrapped), settle_refuse]

/-! ### Every run ends -/

theorem encoding_opcode_length_pos (i : Instr) : 1 ≤ i.encoding.opcode.length := by
  cases i <;> exact Nat.le_of_ble_eq_true rfl

theorem length_pos (i : Instr) : 0 < i.length := by
  have hopcode := encoding_opcode_length_pos i
  rw [Instr.length, encode, Encoding.bytes_length]
  omega

/-- A run takes its first step and runs on from the next state. -/
theorem run_succ_of_next {M : Host.Core} {s t : M.State} (h : M.step s = .next t) (k : Nat) :
    M.run (k + 1) s = M.run k t := by
  rw [Host.Core.run, h]

/-- Without a next state one step has none either. -/
theorem run_one_ne_next {M : Host.Core} {s : M.State} (h : ∀ t, M.step s ≠ .next t) (u : M.State) :
    M.run 1 s ≠ .next u := by
  rw [Host.Core.run]
  split
  · next t ht => exact absurd ht (h t)
  · nofun
  · nofun

/-- The run from `s` stops: after some number of steps there is no next state. -/
def State.Stops (s : State) : Prop := ∃ k, ∀ t, Host.Core.run core k s ≠ .next t

/-- A run stops when it does from the next state, where there is one. -/
theorem State.stops_of_step {s : State} (h : ∀ t, step s = .next t → t.Stops) : s.Stops := by
  by_cases hnext : ∃ t, step s = .next t
  · obtain ⟨t, ht⟩ := hnext
    obtain ⟨k, hk⟩ := h t ht
    exact ⟨k + 1, fun u => run_succ_of_next (M := core) ht k ▸ hk u⟩
  · exact ⟨1, run_one_ne_next (M := core) (not_exists.1 hnext)⟩

theorem State.stops_of_marked {s : State} {m : FaultMark} (h : s.faulted = some m) : s.Stops :=
  State.stops_of_step fun t ht => by rw [step_marked h] at ht; cases ht

/-- After a wrap nothing runs (log entry 15). -/
theorem State.stops_of_wrapped {s : State} (h : s.wrapped = true) : s.Stops := by
  refine State.stops_of_step fun t ht => ?_
  obtain ⟨-, -, ⟨i, hi, -⟩ | ⟨x, hx, -⟩⟩ := step_eq_next ht
  · rw [State.fetchInstr_ok_wrapped hi] at h; cases h
  · rw [State.fetchInstr_wrapped h] at hx; cases hx

/-- EIP moves past an instruction that does not wrap it (R14). -/
theorem State.nextEip_toNat {s : State} {len : Nat} (h : s.wraps len = false) :
    (s.nextEip len).toNat = s.eip.toNat + len := by
  have hlt : s.eip.toNat + len < offsetSpan s.defaultSize := by simpa [State.wraps] using h
  have hspan : offsetSpan s.defaultSize ≤ 2 ^ 32 := by cases s.defaultSize <;> decide
  rw [State.nextEip, BitVec.toNat_ofNat, Nat.mod_eq_of_lt hlt, Nat.mod_eq_of_lt (hlt.trans_le hspan)]

/-- Short of a wrap, an instruction moves EIP up, or keeps it and counts ECX down (R14, R147, R204). -/
theorem Effect.progress_of_not_wrapped {len : Nat} {s t : State} (h : Effect len s t) (hlen : 0 < len)
    (ht : t.wrapped = false) :
    s.eip.toNat < t.eip.toNat ∨ (t.eip = s.eip ∧ t.regs.ecx.toNat < s.regs.ecx.toNat) := by
  rcases h.progress with ⟨heip, hwrapped⟩ | ⟨heip, -, hcount⟩
  · have hwraps : s.wraps len = false := (Bool.or_eq_false_iff.1 (hwrapped ▸ ht)).2
    refine .inl ?_
    rw [heip, State.nextEip_toNat hwraps]
    omega
  · exact .inr ⟨heip, hcount⟩

/-- What a step leads to: a state from which the run stops, or one nearer to the end of the range, or to the end of
a repetition. -/
theorem step_stops_or_progress {s t : State} (h : step s = .next t) :
    t.Stops ∨ s.eip.toNat < t.eip.toNat ∨ (t.eip = s.eip ∧ t.regs.ecx.toNat < s.regs.ecx.toNat) := by
  obtain ⟨-, -, ⟨i, -, hexec⟩ | ⟨x, -, rfl⟩⟩ := step_eq_next h
  · rcases exec_outcome hexec with hcompleted | ⟨x, rfl⟩ | rfl
    · cases hwrapped : t.wrapped with
      | true => exact .inl (State.stops_of_wrapped hwrapped)
      | false => exact .inr (hcompleted.progress_of_not_wrapped (length_pos i) hwrapped)
    · exact .inl (State.stops_of_marked rfl)
    · exact .inl (State.stops_of_marked rfl)
  · exact .inl (State.stops_of_marked rfl)

/-- The run stops by induction on the rest of the range above EIP, then on ECX. -/
theorem State.stops (s : State) : s.Stops :=
  State.stops_of_step fun t h => by
    have heip := t.eip.isLt
    rcases step_stops_or_progress h with hstops | hup | ⟨hsame, hcount⟩
    · exact hstops
    · have hrest : 2 ^ 32 - t.eip.toNat < 2 ^ 32 - s.eip.toNat := by omega
      exact t.stops
    · exact t.stops
termination_by (2 ^ 32 - s.eip.toNat, s.regs.ecx.toNat)
decreasing_by
  · exact Prod.Lex.left _ _ hrest
  · rw [hsame]; exact Prod.Lex.right _ hcount

/-- Settles O60: no state is an exception to the induction of `State.stops`. -/
theorem everyRunEnds : Obligations.EveryRunEnds := State.stops

end Sys2Proof.Machine
end
